-- ==== Sys2Proof/Word.lean ====
section
/-! DEFINITION. The word types of the engine (00_scope.md R8, R11). -/

namespace Sys2Proof

/-- A byte: an unsigned 8-bit value (R11). -/
abbrev Byte := BitVec 8

/-- A command or operand word of the command port (R8 `WORD`, R90). -/
abbrev Word := BitVec 32

/-- A block of the block transform (R8 `BLOCK`): sixteen bytes, byte 0 in the most significant place (R11). -/
abbrev Block := BitVec 128

end Sys2Proof
end

