-- ==== Sys2Proof/Syntax.lean ====
section
/-! DEFINITION. The ten commands of the engine (30_encoding.md R92 to R99). -/

namespace Sys2Proof

/-- The source's `CipherDirection` (10_state.md R22): `ENC` and `DEC`. -/
inductive Dir where
  | enc
  | dec
deriving DecidableEq, Repr

/-- The one-bit encoding of a direction: `ENC` = 0, `DEC` = 1 (R22, R91). -/
def Dir.code : Dir → BitVec 1
  | .enc => 0#1
  | .dec => 1#1

/-- One constructor per row of `spec/opcode_table.json`. Offsets, lengths and the tag length are naturals, as R100 has
them; `Instr.wellFormed` says which of them fit their fields. -/
inductive Instr where
  /-- `INIT` (R94, R130): direction, key present, associated data present, tag length in bits, then the key, nonce and
  associated-data ranges of `IN`. -/
  | init (dir : Dir) (kp ap : Bool) (tagBits : Nat) (koff klen noff nlen aoff alen : Nat)
  /-- `PROCESS_AAD` (R95, R140). -/
  | processAad (inOff inLen : Nat)
  /-- `PROCESS_BYTES` (R96, R143). -/
  | processBytes (inOff inLen outOff : Nat)
  /-- `PROCESS_BYTE` (R97, R146). -/
  | processByte (byte : Byte) (outOff : Nat)
  /-- `DO_FINAL` (R98, R160). -/
  | doFinal (outOff : Nat)
  /-- `GET_MAC` (R99, R170). -/
  | getMac
  /-- `RESET` (R99, R172). -/
  | reset
  /-- `GET_UPDATE_OUTPUT_SIZE` (R99, R201). -/
  | getUpdateOutputSize (len : Nat)
  /-- `GET_OUTPUT_SIZE` (R99, R202). -/
  | getOutputSize (len : Nat)
  /-- `GET_ALGORITHM_NAME` (R99, R175). -/
  | getAlgorithmName
deriving DecidableEq, Repr

end Sys2Proof
end

