-- ==== Sys2Proof/WellFormed.lean ====
section
/-! DEFINITION. Which commands have an encoding (30_encoding.md R100): every operand in the range of its field. -/

namespace Sys2Proof

/-- An operand word is in 0 to `2^32 - 1` (R100). -/
def fitsWord (n : Nat) : Bool := decide (n < 2 ^ 32)

/-- `TAGBITS` is in 0 to 65535 (R100). -/
def fitsTagBits (n : Nat) : Bool := decide (n < 2 ^ 16)

/-- Every field of the command is in the range R100 gives it. -/
def Instr.wellFormed : Instr → Bool
  | .init _ _ _ tagBits koff klen noff nlen aoff alen =>
    fitsTagBits tagBits && fitsWord koff && fitsWord klen && fitsWord noff && fitsWord nlen && fitsWord aoff && fitsWord alen
  | .processAad inOff inLen => fitsWord inOff && fitsWord inLen
  | .processBytes inOff inLen outOff => fitsWord inOff && fitsWord inLen && fitsWord outOff
  | .processByte _ outOff => fitsWord outOff
  | .doFinal outOff => fitsWord outOff
  | .getMac => true
  | .reset => true
  | .getUpdateOutputSize len => fitsWord len
  | .getOutputSize len => fitsWord len
  | .getAlgorithmName => true

end Sys2Proof
end

