-- ==== Sys2Proof/Decode.lean ====
section
/-! DEFINITION. Decoding of the command-word stream (30_encoding.md R90 to R107), and the encoder. -/

namespace Sys2Proof

/-- Why a command word is illegal. -/
inductive IllegalReason where
  /-- A reserved opcode, 0x0 or 0xB to 0xF (R103). -/
  | reservedOpcode
  /-- A non-zero reserved field (R101). -/
  | reservedField
deriving DecidableEq, Repr

/-- What the decoder finds at the front of the word stream. `rest` is where the next command begins. -/
inductive Decoded where
  /-- A legal command with all its operand words. -/
  | command (i : Instr) (rest : List Word)
  /-- An illegal command word, its operand words consumed (R101, R103). -/
  | illegal (why : IllegalReason) (rest : List Word)
  /-- The host has not yet sent the whole command (R440: it sends the command word and all operand words). -/
  | incomplete
deriving DecidableEq, Repr

/-! ### Fields of the command word (R91) -/

/-- `OPC`, bits [3:0]. -/
def opcField (w : Word) : Nat := (w.extractLsb' 0 4).toNat

/-- `DIR`, bit 4. -/
def dirField (w : Word) : Dir := if w.getLsbD 4 then .dec else .enc

/-- `KP`, bit 5. -/
def kpField (w : Word) : Bool := w.getLsbD 5

/-- `AP`, bit 6. -/
def apField (w : Word) : Bool := w.getLsbD 6

/-- `BYTE`, bits [15:8]. -/
def byteField (w : Word) : Byte := w.extractLsb' 8 8

/-- `TAGBITS`, bits [31:16]. -/
def tagBitsField (w : Word) : Nat := (w.extractLsb' 16 16).toNat

/-! ### Decoding -/

/-- The number of operand words that follow a command word with this opcode (R93). -/
def operandCount (opc : Nat) : Nat :=
  match opc with
  | 0x1 => 6
  | 0x2 => 2
  | 0x3 => 3
  | 0x4 => 1
  | 0x5 => 1
  | 0x8 => 1
  | 0x9 => 1
  | _ => 0

/-- The reserved opcodes 0x0 and 0xB to 0xF (R92, R103). -/
def reservedOpcode (opc : Nat) : Bool := opc == 0 || decide (0xB ≤ opc)

/-- Whether the reserved fields of the command word are all zero, by its opcode (R101, R107). -/
def reservedFieldsZero (w : Word) : Bool :=
  match opcField w with
  | 0x1 => w.extractLsb' 7 9 == 0#9
  | 0x4 => w.extractLsb' 4 4 == 0#4 && w.extractLsb' 16 16 == 0#16
  | _ => w.extractLsb' 4 28 == 0#28

/-- The command a legal command word and its operand words stand for (R94 to R99); `none` when the operand words are
not the opcode's number, or the opcode is reserved. -/
def commandOf (w : Word) (ops : List Word) : Option Instr :=
  match opcField w with
  | 0x1 =>
    match ops with
    | [a, b, c, d, e, f] =>
      some (.init (dirField w) (kpField w) (apField w) (tagBitsField w) a.toNat b.toNat c.toNat d.toNat e.toNat f.toNat)
    | _ => none
  | 0x2 => match ops with | [a, b] => some (.processAad a.toNat b.toNat) | _ => none
  | 0x3 => match ops with | [a, b, c] => some (.processBytes a.toNat b.toNat c.toNat) | _ => none
  | 0x4 => match ops with | [a] => some (.processByte (byteField w) a.toNat) | _ => none
  | 0x5 => match ops with | [a] => some (.doFinal a.toNat) | _ => none
  | 0x6 => match ops with | [] => some .getMac | _ => none
  | 0x7 => match ops with | [] => some .reset | _ => none
  | 0x8 => match ops with | [a] => some (.getUpdateOutputSize a.toNat) | _ => none
  | 0x9 => match ops with | [a] => some (.getOutputSize a.toNat) | _ => none
  | 0xA => match ops with | [] => some .getAlgorithmName | _ => none
  | _ => none

/-- Decoding (R107), total on every stream of words. A command is decoded once all its operand words have been sent. -/
def decode : List Word → Decoded
  | [] => .incomplete
  | w :: ws =>
    if reservedOpcode (opcField w) then .illegal .reservedOpcode ws
    else if ws.length < operandCount (opcField w) then .incomplete
    else if reservedFieldsZero w then
      match commandOf w (ws.take (operandCount (opcField w))) with
      | some i => .command i (ws.drop (operandCount (opcField w)))
      | none => .illegal .reservedOpcode ws
    else .illegal .reservedField (ws.drop (operandCount (opcField w)))

/-! ### Encoding -/

/-- The opcode of a command (R92). -/
def Instr.opcode : Instr → Nat
  | .init .. => 0x1
  | .processAad .. => 0x2
  | .processBytes .. => 0x3
  | .processByte .. => 0x4
  | .doFinal .. => 0x5
  | .getMac => 0x6
  | .reset => 0x7
  | .getUpdateOutputSize .. => 0x8
  | .getOutputSize .. => 0x9
  | .getAlgorithmName => 0xA

/-- A command word from its fields, at the places R91 gives them. -/
def commandWord (opc : Nat) (dir : Dir) (kp ap : Bool) (byte : Byte) (tagBits : Nat) : Word :=
  BitVec.ofNat 16 tagBits ++ byte ++ 0#1 ++ BitVec.ofBool ap ++ BitVec.ofBool kp ++ dir.code ++ BitVec.ofNat 4 opc

/-- The operand words of a command, in the order of R94 to R99. -/
def Instr.operands : Instr → List Nat
  | .init _ _ _ _ koff klen noff nlen aoff alen => [koff, klen, noff, nlen, aoff, alen]
  | .processAad inOff inLen => [inOff, inLen]
  | .processBytes inOff inLen outOff => [inOff, inLen, outOff]
  | .processByte _ outOff => [outOff]
  | .doFinal outOff => [outOff]
  | .getMac => []
  | .reset => []
  | .getUpdateOutputSize len => [len]
  | .getOutputSize len => [len]
  | .getAlgorithmName => []

/-- The first word of a command (R91). -/
def Instr.headWord (i : Instr) : Word :=
  match i with
  | .init dir kp ap tagBits .. => commandWord i.opcode dir kp ap 0#8 tagBits
  | .processByte byte _ => commandWord i.opcode .enc false false byte 0
  | _ => commandWord i.opcode .enc false false 0#8 0

/-- The words of a command: the command word, then its operand words (R90). -/
def encode (i : Instr) : List Word := i.headWord :: i.operands.map (BitVec.ofNat 32)

/-! ### Words as `spec/opcode_table.json` numbers them -/

/-- The words of an instruction given as one number, bit 0 the least significant bit of the first word, every bit above
`nbits` zero: the command word and as many operand words as its opcode takes (R93). -/
def tableWords (nbits w : Nat) : List Word :=
  let v := w % 2 ^ nbits
  let first := BitVec.ofNat 32 v
  (List.range (1 + operandCount (opcField first))).map fun k => BitVec.ofNat 32 (v / 2 ^ (32 * k))

/-- The instruction the decoder reads from an instruction whose bits are `w`; `none` where it reads none. -/
def decodeTableWord (nbits w : Nat) : Option Instr :=
  match decode (tableWords nbits w) with
  | .command i _ => some i
  | .illegal _ _ => none
  | .incomplete => none

end Sys2Proof
end

