-- ==== Sys2Proof/Config.lean ====
section
/-! DEFINITION. The implementation parameters a model takes as arguments (00_scope.md R9, R10), and the values the spec
leaves free. -/

namespace Sys2Proof

/-- The two variants of the engine (R2); one instance is one variant. -/
inductive Variant where
  | ccm
  | ocb
deriving DecidableEq, Repr

/-- Which block transform `BT` an instance wraps (R9, R10). -/
inductive Transform where
  /-- The test transform `TOYXOR` of 95_test_vectors.md section 0: `E(k, x) = D(k, x) = x xor k`, keys of 16 bytes. -/
  | toyXor
  /-- An external transform, of which nothing is known but what R9 and R10 ask of it (log 2). -/
  | external (n : Nat)
deriving DecidableEq, Repr

/-- The parameters of an instance (R9). They are not engine state (R20) and no command changes them. -/
structure Config where
  /-- `VARIANT`. -/
  variant : Variant
  /-- `BT`. -/
  transform : Transform
  /-- `CCM_AAD_MAX`, in bytes. -/
  ccmAadMax : Nat
  /-- `CCM_DATA_MAX`, in bytes. -/
  ccmDataMax : Nat
  /-- `INIT_AD_MAX`, in bytes. -/
  initAdMax : Nat
  /-- `ALG_NAME`. -/
  algName : List Byte
deriving DecidableEq, Repr

/-- The constraints R9 puts on the parameters. -/
def Config.wf (c : Config) : Bool :=
  decide (1 ≤ c.ccmAadMax) && decide (c.ccmAadMax < 2 ^ 32) &&
  decide (16 ≤ c.ccmDataMax) && decide (c.ccmDataMax < 2 ^ 32) &&
  decide (c.initAdMax < 2 ^ 32) && (c.variant != .ccm || decide (c.initAdMax ≤ c.ccmAadMax)) &&
  decide (c.algName.length ≤ 255)

/-- DESIGN CHOICE (log 1): the instance that `State.reset` powers on, with the parameters 95_test_vectors.md gives its
vectors unless a vector says otherwise: OCB, capacities of 65536 bytes, the name `AES/OCB`, and an external transform. -/
def Config.specInstance : Config where
  variant := .ocb
  transform := .external 0
  ccmAadMax := 65536
  ccmDataMax := 65536
  initAdMax := 65536
  algName := [0x41#8, 0x45#8, 0x53#8, 0x2F#8, 0x4F#8, 0x43#8, 0x42#8]

/-- DESIGN CHOICE (log 2): external transform `n` under a key, uninterpreted: `E` is this permutation of the blocks and
`D` its inverse, which is what `D(k, E(k, x)) = x` (R9) says of total functions on 16-byte blocks. -/
opaque Config.externalPerm (n : Nat) (key : List Byte) : Equiv.Perm Block

/-- Whether external transform `n` accepts the key bytes: `KEY_OK` (R10), uninterpreted. -/
opaque Config.externalKeyOk (n : Nat) (key : List Byte) : Bool

/-- FREE VALUE (R430, U16; log 7): on the `n`-th power-on during a command, whether the byte at host address `a` already
has the value the lost command was writing. -/
opaque Config.writtenBeforeLoss (n a : Nat) : Bool

end Sys2Proof
end

