-- ==== Sys2Proof/Machine/State.lean ====
section
/-! DEFINITION. The machine's state: the engine's registers (10_state.md), the instance's parameters, the command port
and the host's windows (20_memory.md, 30_encoding.md), and the state right after power-on (R45, R430). -/

namespace Sys2Proof.Machine

/-- The source's `EngineState` (R21). The reserved encodings 4 to 7 are never held and have no constructor (log 9). -/
inductive Phase where
  | uninit
  | ready
  | aad
  | data
deriving DecidableEq, Repr

/-- The OCB datapath registers (10_state.md section 4). -/
structure OcbRegs where
  /-- `L_STAR` (R28). -/
  lStar : Block
  /-- `L_DOLLAR` (R29). -/
  lDollar : Block
  /-- `LT[0..63]` (R30). -/
  lt : Vector Block 64
  /-- `OFFSET` (R31). -/
  offset : Block
  /-- `CHECKSUM` (R32). -/
  checksum : Block
  /-- The valid bytes of `MAIN_BUF`; `MAIN_POS` is their number (R33, log 8). -/
  mainBuf : List Byte
  /-- `MAIN_COUNT` (R34). -/
  mainCount : BitVec 64
  /-- The valid bytes of `HASH_BUF`; `HASH_POS` is their number (R35, log 8). -/
  hashBuf : List Byte
  /-- `HASH_COUNT` (R36). -/
  hashCount : BitVec 64
  /-- `HASH_OFFSET` (R37). -/
  hashOffset : Block
  /-- `HASH_SUM` (R38). -/
  hashSum : Block
deriving DecidableEq, Repr

/-- The CCM datapath registers (10_state.md section 5). -/
structure CcmRegs where
  /-- `AAD_BUF` (R39). -/
  aadBuf : List Byte
  /-- `DATA_BUF` (R40). -/
  dataBuf : List Byte
deriving DecidableEq, Repr

/-- The registers of the engine (R20). -/
structure Engine where
  /-- `PHASE` (R21). -/
  phase : Phase
  /-- `DIR` (R22). -/
  dir : Dir
  /-- `KEY` (R23). -/
  key : List Byte
  /-- `KEY_VALID` (R23). -/
  keyValid : Bool
  /-- `NONCE`; `NONCE_LEN` is its length (R24, log 8). -/
  nonce : List Byte
  /-- `TAG_LEN`, in bytes (R25). -/
  tagLen : Nat
  /-- `INIT_AD` (R26). -/
  initAd : List Byte
  /-- `MAC` (R27). -/
  mac : List Byte
  /-- `MAC_VALID` (R27). -/
  macValid : Bool
  /-- Section 4; an instance of the CCM variant never writes them. -/
  ocb : OcbRegs
  /-- Section 5; an instance of the OCB variant never writes them. -/
  ccm : CcmRegs
deriving DecidableEq, Repr

/-- The statuses of R106. -/
inductive Status where
  | ok
  | invalidParameter
  | illegalState
  | dataLength
  | outputLength
  | invalidCiphertext
  | illegalCommand
  | capacity
deriving DecidableEq, Repr

/-- A response (R105). -/
structure Response where
  /-- `STATUS`. -/
  status : Status
  /-- `RESULT`, a 64-bit unsigned natural. -/
  result : BitVec 64
  /-- `RDATA`, carried on the response data channel. -/
  rdata : List Byte
deriving DecidableEq, Repr

/-- The host's storage, in which its windows lie: the listed bytes by address (log 4). -/
abbrev Memory := List Host.Cell

/-- A window of the host (R61, R62): where in the host's storage it begins, which the engine never sees (R70), and its
capacity, `IN_CAP` or `OUT_CAP`. -/
structure Window where
  base : Nat
  cap : BitVec 32
deriving DecidableEq, Repr

/-- A move of the host, or a power-on (R430, R440, R441; log 5). -/
inductive HostMove where
  /-- The host sends words to the command port. -/
  | send (words : List Word)
  /-- The host presents an input and an output window. -/
  | present (inp out : Window)
  /-- The host writes bytes of its own storage, the contents of a window among them. -/
  | store (addr : Nat) (bytes : List Byte)
  /-- Power-on reset between commands (R430). -/
  | powerOn
  /-- The host sends words, and power-on reset comes while the command they complete is in progress (R430, U16). -/
  | sendLost (words : List Word)
deriving DecidableEq, Repr

/-- The whole state. -/
structure State where
  /-- The instance's parameters (R9, log 1). -/
  cfg : Config
  /-- The engine's registers (R20). -/
  eng : Engine
  /-- The words the host has sent and the engine has not consumed (R90). -/
  port : List Word
  /-- The responses given so far, the first first (R105, R447). -/
  responses : List Response
  /-- The host's storage. -/
  mem : Memory
  /-- `IN` (R61). -/
  inWin : Window
  /-- `OUT` (R62). -/
  outWin : Window
  /-- The host's coming moves, the next first (log 5). -/
  moves : List HostMove
  /-- The model's own: how many free choices of U16 have been made (log 7). -/
  freeCount : Nat
deriving DecidableEq, Repr

/-- Why a step stops. -/
inductive Fault where
  /-- SAFE. Raised by the step for a move of the host that breaks a duty of R440 (it sends past the end of one command, or
  changes `IN` or `OUT` while a command is partly sent): a run outside what the spec describes (log 6). No command
  raises it. -/
  | hostDuty
deriving DecidableEq, Repr

/-- Why a step has no meaning. -/
inductive Refusal where
  /-- SAFE. Raised by an arm of `exec` for a command that has no meaning yet; no arm does. -/
  | notModelled (mnemonic : String)
deriving DecidableEq, Repr

/-- Every OCB register zero or empty (R45). -/
def OcbRegs.zero : OcbRegs where
  lStar := 0#128
  lDollar := 0#128
  lt := ⟨(List.replicate 64 0#128).toArray, rfl⟩
  offset := 0#128
  checksum := 0#128
  mainBuf := []
  mainCount := 0#64
  hashBuf := []
  hashCount := 0#64
  hashOffset := 0#128
  hashSum := 0#128

/-- Both CCM buffers empty (R45). -/
def CcmRegs.empty : CcmRegs where
  aadBuf := []
  dataBuf := []

/-- The registers after power-on reset (R45, R430). -/
def Engine.reset : Engine where
  phase := .uninit
  dir := .enc
  key := []
  keyValid := false
  nonce := []
  tagLen := 0
  initAd := []
  mac := []
  macValid := false
  ocb := .zero
  ccm := .empty

/-- An instance with the parameters `c` after power-on reset: the registers of R45, and, on the host's side, nothing
sent, nothing answered and no window presented yet (log 10). -/
def State.resetOf (c : Config) : State where
  cfg := c
  eng := .reset
  port := []
  responses := []
  mem := []
  inWin := ⟨0, 0#32⟩
  outWin := ⟨0, 0#32⟩
  moves := []
  freeCount := 0

/-- The machine right after reset (R45, R430), built with the parameters of log 1. -/
def State.reset : State := State.resetOf Config.specInstance

end Sys2Proof.Machine
end

