-- ==== Sys2Proof/Machine/Bytes.lean ====
section
/-! DEFINITION. Byte strings and numbers (00_scope.md R11): big-endian, most significant bit first. -/

namespace Sys2Proof.Machine

/-- `be_n(v)`: the `n`-byte big-endian encoding of `v` (R11). -/
def be : Nat → Nat → List Byte
  | 0, _ => []
  | n + 1, v => BitVec.ofNat 8 (v / 256 ^ n) :: be n v

/-- `int_be(s)`: the natural a byte string denotes read big-endian (R11). -/
def intBe (s : List Byte) : Nat := s.foldl (fun v b => 256 * v + b.toNat) 0

/-- The block a string of 16 bytes is (R11). -/
def blockOfBytes (s : List Byte) : Block := BitVec.ofNat 128 (intBe s)

/-- The 16 bytes of a block (R11). -/
def bytesOfBlock (x : Block) : List Byte := be 16 x.toNat

/-- `a xor b` on byte strings of equal length (R11). -/
def xorBytes (a b : List Byte) : List Byte := List.zipWith (· ^^^ ·) a b

/-- `0^n` (R11). -/
def zeroBytes (n : Nat) : List Byte := List.replicate n 0#8

/-- A string of at most 16 bytes, followed by zero bytes to 16. -/
def zeroPad16 (s : List Byte) : List Byte := s ++ zeroBytes (16 - s.length)

/-- The first `fuel` blocks of a string, the last one followed by zero bytes. -/
def zeroPaddedBlocksUpTo : Nat → List Byte → List Block
  | 0, _ => []
  | _ + 1, [] => []
  | fuel + 1, b :: s =>
    blockOfBytes (zeroPad16 ((b :: s).take 16)) :: zeroPaddedBlocksUpTo fuel ((b :: s).drop 16)

/-- A string followed by the fewest zero bytes that make its length a multiple of 16, as blocks; none for the empty
string (42_ccm_mac.md R243, R244). -/
def zeroPaddedBlocks (s : List Byte) : List Block := zeroPaddedBlocksUpTo s.length s

/-- `pad10(s)` for a string shorter than a block: one 1 bit, then zero bits (43_ocb_offset_mac.md R293). -/
def pad10 (s : List Byte) : List Byte := s ++ 0x80#8 :: zeroBytes (15 - s.length)

/-- The tag comparator (44_buffered_unit.md R352): every byte pair is examined, with no early exit. -/
def tagEqual (a b : List Byte) : Bool := (xorBytes a b).foldl (· ||| ·) 0#8 == 0#8

end Sys2Proof.Machine
end

