-- ==== Sys2Proof/Machine/Transform.lean ====
section
/-! DEFINITION. The block transform `BT` (00_scope.md R10): `E`, `D` and `KEY_OK`. -/

namespace Sys2Proof.Machine

/-- `BT.E(k, x)` (R10). -/
def blockE (t : Transform) (k : List Byte) (x : Block) : Block :=
  match t with
  | .toyXor => x ^^^ blockOfBytes k
  | .external n => Config.externalPerm n k x

/-- `BT.D(k, x)` (R10). -/
def blockD (t : Transform) (k : List Byte) (x : Block) : Block :=
  match t with
  | .toyXor => x ^^^ blockOfBytes k
  | .external n => (Config.externalPerm n k).symm x

/-- `BT.KEY_OK(k)` (R10). -/
def keyOk (t : Transform) (k : List Byte) : Bool :=
  match t with
  | .toyXor => k.length == 16
  | .external n => Config.externalKeyOk n k

end Sys2Proof.Machine
end

