-- ==== Sys2Proof/Machine/Ccm.lean ====
section
/-! DEFINITION. The CCM MacAccumulator and counter mode (42_ccm_mac.md). -/

namespace Sys2Proof.Machine

/-- The flags byte of the header block (R241): `Adata`, `(M - 2) / 2`, `L - 1`. -/
def ccmFlags (adata : Bool) (m l : Nat) : Byte :=
  BitVec.ofNat 8 ((if adata then 64 else 0) + 8 * ((m - 2) / 2) + (l - 1))

/-- The header block `B0` (R241), for a payload of `q` bytes. -/
def ccmHeader (nonce : List Byte) (m a q : Nat) : Block :=
  let l := 15 - nonce.length
  blockOfBytes (ccmFlags (decide (0 < a)) m l :: nonce ++ be l q)

/-- The associated-data length field `enc(a)`, for `a > 0` (R242). -/
def ccmAadLength (a : Nat) : List Byte :=
  if a < 2 ^ 16 - 2 ^ 8 then be 2 a
  else if a < 2 ^ 32 then 0xFF#8 :: 0xFE#8 :: be 4 a
  else 0xFF#8 :: 0xFF#8 :: be 8 a

/-- The associated-data blocks (R243). -/
def ccmAadBlocks (aad : List Byte) : List Block :=
  if aad.length = 0 then [] else zeroPaddedBlocks (ccmAadLength aad.length ++ aad)

/-- The chaining value `X` after the blocks `B0`, then `bs` (R245). -/
def cbcMac (t : Transform) (k : List Byte) (b0 : Block) (bs : List Block) : Block :=
  bs.foldl (fun x b => blockE t k (x ^^^ b)) (blockE t k b0)

/-- Counter block `i` (R246). -/
def ccmCounter (nonce : List Byte) (i : Nat) : Block :=
  let l := 15 - nonce.length
  blockOfBytes (be 1 (l - 1) ++ nonce ++ be l i)

/-- Keystream block `S_i` (R247). -/
def ccmStreamBlock (t : Transform) (k nonce : List Byte) (i : Nat) : Block := blockE t k (ccmCounter nonce i)

/-- The first `q` bytes of `S_1 || S_2 || ...`, from counters 1 to `ceil(q / 16)` (R247). -/
def ccmKeystream (t : Transform) (k nonce : List Byte) (q : Nat) : List Byte :=
  ((List.range ((q + 15) / 16)).flatMap fun i => bytesOfBlock (ccmStreamBlock t k nonce (i + 1))).take q

/-- The tag `U` of the payload plaintext `p` (R245, R248). -/
def ccmTag (t : Transform) (k nonce : List Byte) (m : Nat) (aad p : List Byte) : List Byte :=
  let x := cbcMac t k (ccmHeader nonce m aad.length p.length) (ccmAadBlocks aad ++ zeroPaddedBlocks p)
  xorBytes ((bytesOfBlock x).take m) ((bytesOfBlock (ccmStreamBlock t k nonce 0)).take m)

/-- `ccm_final()` (R250): the frame, the tag, and whether the frame may be released. -/
def ccmFinal (t : Transform) (k nonce : List Byte) (dir : Dir) (m : Nat) (r : CcmRegs) : List Byte × List Byte × Bool :=
  match dir with
  | .enc =>
    let p := r.dataBuf
    let u := ccmTag t k nonce m r.aadBuf p
    (xorBytes p (ccmKeystream t k nonce p.length) ++ u, u, true)
  | .dec =>
    let q := r.dataBuf.length - m
    let p := xorBytes (r.dataBuf.take q) (ccmKeystream t k nonce q)
    let u := ccmTag t k nonce m r.aadBuf p
    (p, u, tagEqual u (r.dataBuf.drop q))

end Sys2Proof.Machine
end

