-- ==== Sys2Proof/Machine/SizePredictor.lean ====
section
/-! DEFINITION. The size predictor's functions (41_size_calculator.md). -/

namespace Sys2Proof.Machine

/-- `MAIN_POS` (10_state.md R33). -/
def Engine.mainPos (e : Engine) : Nat := e.ocb.mainBuf.length

/-- `HASH_POS` (10_state.md R35). -/
def Engine.hashPos (e : Engine) : Nat := e.ocb.hashBuf.length

/-- `NONCE_LEN` (10_state.md R24). -/
def Engine.nonceLen (e : Engine) : Nat := e.nonce.length

/-- `held()`: the payload bytes received and not yet emitted (40_engine_commands.md R160). -/
def held (c : Config) (e : Engine) : Nat :=
  match c.variant with
  | .ccm => e.ccm.dataBuf.length
  | .ocb => e.mainPos

/-- `upd_size(n)` (R200). -/
def updSize (c : Config) (e : Engine) (n : Nat) : Nat :=
  match c.variant with
  | .ccm => 0
  | .ocb =>
    match e.dir with
    | .enc => (e.mainPos + n) - (e.mainPos + n) % 16
    | .dec =>
      if e.mainPos + n < e.tagLen then 0
      else (e.mainPos + n - e.tagLen) - (e.mainPos + n - e.tagLen) % 16

/-- `out_size(n)` (R203). -/
def outSize (c : Config) (e : Engine) (n : Nat) : Nat :=
  match e.dir with
  | .enc => held c e + n + e.tagLen
  | .dec => held c e + n - e.tagLen

end Sys2Proof.Machine
end

