-- ==== Sys2Proof/Machine/Flags.lean ====
section
/-! DEFINITION. The conditions a command's status depends on. The engine keeps no status flag between commands (10_state.md
R47); these are the checks of 60_exceptions.md R381 to R387, and the codes of R21 and R106. -/

namespace Sys2Proof.Machine

/-- The encoding of `PHASE` (10_state.md R21). -/
def Phase.code : Phase → BitVec 3
  | .uninit => 0#3
  | .ready => 1#3
  | .aad => 2#3
  | .data => 3#3

/-- The encoding of `STATUS` (30_encoding.md R106). -/
def Status.code : Status → BitVec 4
  | .ok => 0#4
  | .invalidParameter => 1#4
  | .illegalState => 2#4
  | .dataLength => 3#4
  | .outputLength => 4#4
  | .invalidCiphertext => 5#4
  | .illegalCommand => 6#4
  | .capacity => 7#4

/-- `TAGSET(VARIANT)`, in bits (00_scope.md R8, 40_engine_commands.md R132). -/
def tagSet : Variant → List Nat
  | .ccm => [32, 48, 64, 80, 96, 112, 128]
  | .ocb => [64, 72, 80, 88, 96, 104, 112, 120, 128]

/-- The tag-length check (R132). -/
def tagBitsOk (v : Variant) (tagBits : Nat) : Bool := (tagSet v).contains tagBits

/-- The nonce-length check, `NONCESET(VARIANT)` (R133). -/
def nonceLenOk (v : Variant) (n : Nat) : Bool :=
  match v with
  | .ccm => decide (7 ≤ n) && decide (n ≤ 13)
  | .ocb => decide (1 ≤ n) && decide (n ≤ 15)

/-- `aad_capacity_exceeded(n)` (R141). -/
def aadCapacityExceeded (c : Config) (e : Engine) (n : Nat) : Bool :=
  match c.variant with
  | .ccm => decide (c.ccmAadMax < e.ccm.aadBuf.length + n)
  | .ocb => decide (2 ^ 64 - 1 < e.ocb.hashCount.toNat + (e.hashPos + n) / 16)

/-- `ccm_qmax()` (R144). -/
def ccmQmax (c : Config) (e : Engine) : Nat :=
  min c.ccmDataMax (2 ^ (8 * (15 - e.nonceLen)) - 1 + (match e.dir with | .enc => 0 | .dec => e.tagLen))

/-- `data_capacity_exceeded(n, u)` (R144). -/
def dataCapacityExceeded (c : Config) (e : Engine) (n u : Nat) : Bool :=
  match c.variant with
  | .ccm => decide (ccmQmax c e < e.ccm.dataBuf.length + n)
  | .ocb => decide (2 ^ 64 - 1 < e.ocb.mainCount.toNat + u / 16)

end Sys2Proof.Machine
end

