-- ==== Sys2Proof/Machine/Ocb.lean ====
section
/-! DEFINITION. The OCB OffsetSequencer and MacAccumulator (43_ocb_offset_mac.md). -/

namespace Sys2Proof.Machine

/-- `dbl(S)`: doubling in GF(2^128) (R281). -/
def dbl (x : Block) : Block := (x <<< 1) ^^^ (if 2 ^ 127 ≤ x.toNat then 0x87#128 else 0#128)

/-- `dbl` applied `n` times. -/
def dblTimes : Nat → Block → Block
  | 0, x => x
  | n + 1, x => dbl (dblTimes n x)

/-- The trailing zero bits of `i`, counted up to `fuel`. -/
def ntzUpTo : Nat → Nat → Nat
  | 0, _ => 0
  | fuel + 1, i => if i % 2 = 1 then 0 else 1 + ntzUpTo fuel (i / 2)

/-- `ntz(i)` (R284), for the 64-bit block counters, which are never 0 when it is applied. -/
def ntz (i : Nat) : Nat := ntzUpTo 64 i

/-- `LT[0..63]` from `L_DOLLAR` (R283): `LT[0] = dbl(L_DOLLAR)`, `LT[k] = dbl(LT[k-1])`. -/
def doublingTable (lDollar : Block) : Vector Block 64 := Vector.ofFn fun k => dblTimes (k.val + 1) lDollar

/-- `LT[k]`. -/
def OcbRegs.ltAt (r : OcbRegs) (k : Nat) : Block := r.lt[k]?.getD 0#128

/-- The formatted nonce `NF` (R285). -/
def formattedNonce (nonce : List Byte) (tagLen : Nat) : List Byte :=
  let placed := zeroBytes (16 - nonce.length) ++ nonce
  let tagged := placed.modify 0 (· ||| BitVec.ofNat 8 (((8 * tagLen) % 128) <<< 1))
  tagged.modify (15 - nonce.length) (· ||| 0x01#8)

/-- The last byte of the formatted nonce, `NF[15]`. -/
def lastNonceByte (nonce : List Byte) (tagLen : Nat) : Byte := (formattedNonce nonce tagLen).getD 15 0#8

/-- `KTOP` (R286): the transform of the formatted nonce with the low six bits of its last byte cleared. -/
def ktop (t : Transform) (k nonce : List Byte) (tagLen : Nat) : Block :=
  blockE t k (blockOfBytes ((formattedNonce nonce tagLen).take 15 ++ [lastNonceByte nonce tagLen &&& 0xC0#8]))

/-- `STRETCH` (R286): `KTOP`, then its first eight bytes xor the eight bytes from index 1. -/
def stretch (top : Block) : List Byte :=
  bytesOfBlock top ++ xorBytes ((bytesOfBlock top).take 8) (((bytesOfBlock top).drop 1).take 8)

/-- `offset0(N, TAG_LEN)` (R286). -/
def offset0 (t : Transform) (k nonce : List Byte) (tagLen : Nat) : Block :=
  let bottom := (lastNonceByte nonce tagLen &&& 0x3F#8).toNat
  BitVec.ofNat 128 (intBe (stretch (ktop t k nonce tagLen)) >>> (64 - bottom))

/-- `ocb_hash_block(A)` (R291). -/
def ocbHashBlock (t : Transform) (k : List Byte) (r : OcbRegs) (a : Block) : OcbRegs :=
  let count := r.hashCount + 1#64
  let offset := r.hashOffset ^^^ r.ltAt (ntz count.toNat)
  { r with hashCount := count, hashOffset := offset, hashSum := r.hashSum ^^^ blockE t k (a ^^^ offset) }

/-- One byte into the associated-data window (40_engine_commands.md R151). -/
def hashFeedByte (t : Transform) (k : List Byte) (r : OcbRegs) (b : Byte) : OcbRegs :=
  let buf := r.hashBuf ++ [b]
  if buf.length = 16 then { ocbHashBlock t k r (blockOfBytes buf) with hashBuf := [] }
  else { r with hashBuf := buf }

/-- The bytes `a` into the associated-data window, in order (R151). -/
def hashFeed (t : Transform) (k : List Byte) (r : OcbRegs) (a : List Byte) : OcbRegs :=
  a.foldl (hashFeedByte t k) r

/-- `hash_final()` (R292). -/
def hashFinal (t : Transform) (k : List Byte) (r : OcbRegs) : Block :=
  if r.hashBuf.length = 0 then r.hashSum
  else r.hashSum ^^^ blockE t k (blockOfBytes (pad10 r.hashBuf) ^^^ (r.hashOffset ^^^ r.lStar))

/-- The payload offset step (R294). -/
def offsetStep (r : OcbRegs) : OcbRegs :=
  let count := r.mainCount + 1#64
  { r with mainCount := count, offset := r.offset ^^^ r.ltAt (ntz count.toNat) }

/-- `ocb_main_block(B)` (R295 to R297): the registers after it, and the 16 output bytes as a block. -/
def ocbMainBlock (t : Transform) (k : List Byte) (dir : Dir) (r : OcbRegs) (b : Block) : OcbRegs × Block :=
  let r1 := offsetStep r
  match dir with
  | .enc => ({ r1 with checksum := r1.checksum ^^^ b }, blockE t k (b ^^^ r1.offset) ^^^ r1.offset)
  | .dec =>
    let out := blockD t k (b ^^^ r1.offset) ^^^ r1.offset
    ({ r1 with checksum := r1.checksum ^^^ out }, out)

/-- The final partial block (R298) of the window bytes `part` that are payload: `(out, OFF_F, CK_F)`. -/
def finalPart (t : Transform) (k : List Byte) (dir : Dir) (r : OcbRegs) (part : List Byte) : List Byte × Block × Block :=
  if part.length = 0 then ([], r.offset, r.checksum)
  else
    let off := r.offset ^^^ r.lStar
    let out := xorBytes part ((bytesOfBlock (blockE t k off)).take part.length)
    let plain := match dir with | .enc => part | .dec => out
    (out, off, r.checksum ^^^ blockOfBytes (pad10 plain))

/-- The tag (R300), truncated to `tagLen` bytes. -/
def ocbTag (t : Transform) (k : List Byte) (r : OcbRegs) (tagLen : Nat) (off ck : Block) : List Byte :=
  (bytesOfBlock (blockE t k (ck ^^^ off ^^^ r.lDollar) ^^^ hashFinal t k r)).take tagLen

/-- `ocb_final()` (R301): the frame, the tag, and whether the frame may be released. -/
def ocbFinal (t : Transform) (k : List Byte) (dir : Dir) (tagLen : Nat) (r : OcbRegs) : List Byte × List Byte × Bool :=
  match dir with
  | .enc =>
    let (out, off, ck) := finalPart t k .enc r r.mainBuf
    let tag := ocbTag t k r tagLen off ck
    (out ++ tag, tag, true)
  | .dec =>
    let m := r.mainBuf.length - tagLen
    let (out, off, ck) := finalPart t k .dec r (r.mainBuf.take m)
    let tag := ocbTag t k r tagLen off ck
    (out, tag, tagEqual tag (r.mainBuf.drop m))

/-- The OCB part of the session start (40_engine_commands.md R150). -/
def ocbSessionStart (t : Transform) (k nonce : List Byte) (tagLen : Nat) : OcbRegs :=
  let lStar := blockE t k 0#128
  { lStar := lStar
    lDollar := dbl lStar
    lt := doublingTable (dbl lStar)
    offset := offset0 t k nonce tagLen
    checksum := 0#128
    mainBuf := []
    mainCount := 0#64
    hashBuf := []
    hashCount := 0#64
    hashOffset := 0#128
    hashSum := 0#128 }

end Sys2Proof.Machine
end

