-- ==== Sys2Proof/Machine/Framing.lean ====
section
/-! DEFINITION. The ByteBuffer framing unit of the OCB payload (44_buffered_unit.md). -/

namespace Sys2Proof.Machine

/-- The capacity `CAP` of the payload window (R341). -/
def windowCap (dir : Dir) (tagLen : Nat) : Nat :=
  match dir with
  | .enc => 16
  | .dec => 16 + tagLen

/-- One byte into the payload window (R343): the registers after it, and the bytes emitted. -/
def windowFeedByte (t : Transform) (k : List Byte) (dir : Dir) (tagLen : Nat) (r : OcbRegs) (b : Byte) :
    OcbRegs × List Byte :=
  let buf := r.mainBuf ++ [b]
  if buf.length = windowCap dir tagLen then
    let (r1, out) := ocbMainBlock t k dir r (blockOfBytes (buf.take 16))
    ({ r1 with mainBuf := buf.drop 16 }, bytesOfBlock out)
  else ({ r with mainBuf := buf }, [])

/-- `window_feed(p)` (R343): the registers after it, and the bytes emitted, in order. -/
def windowFeed (t : Transform) (k : List Byte) (dir : Dir) (tagLen : Nat) : OcbRegs → List Byte → OcbRegs × List Byte
  | r, [] => (r, [])
  | r, b :: p =>
    let (r1, out1) := windowFeedByte t k dir tagLen r b
    let (r2, out2) := windowFeed t k dir tagLen r1 p
    (r2, out1 ++ out2)

end Sys2Proof.Machine
end

