-- ==== Sys2Proof/Machine/Memory.lean ====
section
/-! DEFINITION. The host's storage (log 4): a list of (address, byte) pairs, addresses strictly rising, no entry equal
to what an unlisted address reads as. -/

namespace Sys2Proof.Machine

/-- What an address that is not listed reads as (log 4): the contents of the windows are the host's, which lists every
byte that differs. -/
def unlisted : Byte := 0#8

/-- Every listed address is at least `lo`, the addresses rise strictly, and no entry reads as unlisted. -/
def Memory.wfFrom : Nat → Memory → Bool
  | _, [] => true
  | lo, (a, b) :: m => decide (lo ≤ a) && b != unlisted && Memory.wfFrom (a + 1) m

/-- The canonical form. -/
def Memory.wf (m : Memory) : Bool := Memory.wfFrom 0 m

/-- The byte at an address. -/
def Memory.read (m : Memory) (a : Nat) : Byte := ((m.find? fun c => c.1 == a).map Prod.snd).getD unlisted

/-- The byte at `a` becomes `b`, the canonical form kept. -/
def Memory.write (m : Memory) (a : Nat) (b : Byte) : Memory :=
  match m with
  | [] => if b = unlisted then [] else [(a, b)]
  | (c, v) :: rest =>
    if a < c then (if b = unlisted then (c, v) :: rest else (a, b) :: (c, v) :: rest)
    else if a = c then (if b = unlisted then rest else (a, b) :: rest)
    else (c, v) :: Memory.write rest a b

/-- The `n` bytes from `a` on. -/
def Memory.readBytes (m : Memory) (a n : Nat) : List Byte := (List.range n).map fun j => m.read (a + j)

/-- The bytes `s` stored from `a` on. -/
def Memory.writeBytes (m : Memory) (a : Nat) (s : List Byte) : Memory :=
  match s with
  | [] => m
  | b :: rest => Memory.writeBytes (m.write a b) (a + 1) rest

end Sys2Proof.Machine
end

