-- ==== Sys2Proof/Machine/Operands.lean ====
section
/-! DEFINITION. The operand forms of the commands: ranges of the windows `IN` and `OUT` (20_memory.md). -/

namespace Sys2Proof.Machine

/-- `off + n` is inside the window, on unbounded naturals (R63, R64). -/
def Window.holds (w : Window) (off n : Nat) : Bool := decide (off + n ≤ w.cap.toNat)

/-- `InBounds(off, n)` (R63). -/
def State.inBounds (s : State) (off n : Nat) : Bool := s.inWin.holds off n

/-- `InRead(off, n)` (R63). -/
def State.inRead (s : State) (off n : Nat) : List Byte := s.mem.readBytes (s.inWin.base + off) n

/-- `OutBounds(off, n)` (R64). -/
def State.outBounds (s : State) (off n : Nat) : Bool := s.outWin.holds off n

/-- The host's address of `OUT[off]`. -/
def State.outAddr (s : State) (off : Nat) : Nat := s.outWin.base + off

/-- `OutWrite(off, bytes)` (R64). The commands compute `bytes` from the state before the write, so every `InRead` comes
before it (R68), even where the windows share storage. -/
def State.outWrite (s : State) (off : Nat) (bytes : List Byte) : State :=
  { s with mem := s.mem.writeBytes (s.outAddr off) bytes }

end Sys2Proof.Machine
end

