-- ==== Sys2Proof/Machine/Ops.lean ====
section
/-! DEFINITION. The operations the commands share: the session start and the associated-data stream
(40_engine_commands.md R150, R151), responding and raising an error (30_encoding.md R105, 60_exceptions.md R380). -/

namespace Sys2Proof.Machine

/-- What a step answers. -/
abbrev Result := Host.Outcome State Fault Refusal

/-! ### The session (engine registers only) -/

/-- `absorb_aad(a)` (R151). -/
def absorbAad (c : Config) (e : Engine) (a : List Byte) : Engine :=
  match c.variant with
  | .ccm => { e with ccm := { e.ccm with aadBuf := e.ccm.aadBuf ++ a } }
  | .ocb => { e with ocb := hashFeed c.transform e.key e.ocb a }

/-- The datapath registers at a session start, before the init-time associated data (R150). -/
def clearSession (c : Config) (e : Engine) : Engine :=
  match c.variant with
  | .ccm => { e with ccm := .empty }
  | .ocb => { e with ocb := ocbSessionStart c.transform e.key e.nonce e.tagLen }

/-- `session_start()` (R150): the shared reset procedure, with the session parameters of R49. -/
def sessionStart (c : Config) (e : Engine) : Engine :=
  if e.initAd.length = 0 then { clearSession c e with phase := .ready }
  else { absorbAad c (clearSession c e) e.initAd with phase := .aad }

/-- The registers with the session parameters INIT was given, and the tag register cleared (R131). -/
def Engine.withParams (e : Engine) (dir : Dir) (tagBits : Nat) (k n ad : List Byte) : Engine :=
  { e with
    key := k, keyValid := true, dir := dir, tagLen := tagBits / 8, nonce := n, initAd := ad, mac := [], macValid := false }

/-- `commit_init(k, n, ad)` (R131). -/
def commitInit (c : Config) (e : Engine) (dir : Dir) (tagBits : Nat) (k n ad : List Byte) : Engine :=
  sessionStart c (e.withParams dir tagBits k n ad)

/-- The final procedure of the variant (R160): `(frame, tag, ok)`. -/
def finalFrame (c : Config) (e : Engine) : List Byte × List Byte × Bool :=
  match c.variant with
  | .ccm => ccmFinal c.transform e.key e.nonce e.dir e.tagLen e.ccm
  | .ocb => ocbFinal c.transform e.key e.dir e.tagLen e.ocb

/-- The payload bytes `p` into the datapath (R143): the registers after it, and the bytes emitted. -/
def feedPayload (c : Config) (e : Engine) (p : List Byte) : Engine × List Byte :=
  match c.variant with
  | .ccm => ({ e with phase := .data, ccm := { e.ccm with dataBuf := e.ccm.dataBuf ++ p } }, [])
  | .ocb =>
    let (r, out) := windowFeed c.transform e.key e.dir e.tagLen e.ocb p
    ({ e with phase := .data, ocb := r }, out)

/-! ### Responses and errors -/

/-- The registers become `e`. -/
def State.withEngine (s : State) (e : Engine) : State := { s with eng := e }

/-- The state after a response (R105): it is appended to the responses, and nothing else changes. -/
def State.answered (s : State) (r : Response) : State := { s with responses := s.responses ++ [r] }

/-- A response whose status is `OK`, with its `RESULT` and `RDATA` (R105). -/
def okResponse (result : Nat) (rdata : List Byte) : Response :=
  { status := .ok, result := BitVec.ofNat 64 result, rdata := rdata }

/-- A response whose status is an error: `RESULT` = 0 and `RDATA` = [] (R105, R380). -/
def errorResponse (status : Status) : Response := { status := status, result := 0#64, rdata := [] }

/-- `respond(OK, RESULT, RDATA)` (R105): the command ends with exactly one response. -/
def State.respondOk (s : State) (result : Nat) (rdata : List Byte) : Result := .next (s.answered (okResponse result rdata))

/-- `raise S` (R380): an error is the response of the command that detects it. It saves nothing, changes no mode and
transfers no control (R393), and leaves every register and every byte of `OUT` as they were (R388). -/
def State.raise (s : State) (status : Status) : Result := .next (s.answered (errorResponse status))

/-- `raise INVALID_CIPHERTEXT`, the one error with an effect: the session start (R385). -/
def State.raiseInvalidCiphertext (s : State) : Result :=
  (s.withEngine (sessionStart s.cfg s.eng)).raise .invalidCiphertext

/-- An illegal command word: no effect but its response (R101, R103, R386). -/
def State.illegalCommand (s : State) : Result := s.raise .illegalCommand

/-- The bytes `p`, accepted for the payload, into the datapath, and the bytes emitted to `OUT` (R143, R146): what
PROCESS_BYTES and PROCESS_BYTE share, from the output check on. `p` has `n` bytes. -/
def State.processPayload (s : State) (p : List Byte) (n outOff : Nat) : Result :=
  if !s.outBounds outOff (updSize s.cfg s.eng n) then s.raise .outputLength
  else if dataCapacityExceeded s.cfg s.eng n (updSize s.cfg s.eng n) then s.raise .capacity
  else
    let (e, out) := feedPayload s.cfg s.eng p
    ((s.withEngine e).outWrite outOff out).respondOk (updSize s.cfg s.eng n) []

/-- Power-on reset (R430): every register at its value of R45, the words of a command only partly sent lost with it,
no response and no write to `OUT`. -/
def State.powerOnReset (s : State) : State := { s with eng := .reset, port := [] }

end Sys2Proof.Machine
end

