-- ==== Sys2Proof/Machine/Init.lean ====
section
/-! DEFINITION. INIT and PROCESS_AAD (40_engine_commands.md sections 2 and 3). -/

namespace Sys2Proof.Machine

/-- The key INIT uses (R130): the supplied bytes, or with `KP = 0` the retained key (R135). -/
def initKeyBytes (s : State) (kp : Bool) (koff klen : Nat) : List Byte := if kp then s.inRead koff klen else s.eng.key

/-- Whether INIT has a key: `KEY_OK` accepts the supplied bytes (R134), or with `KP = 0` a key is retained (R135). -/
def initKeyAccepted (s : State) (kp : Bool) (koff klen : Nat) : Bool :=
  if kp then keyOk s.cfg.transform (s.inRead koff klen) else s.eng.keyValid

/-- The associated data INIT uses (R94, R130): empty when `AP = 0`. -/
def initAdBytes (s : State) (ap : Bool) (aoff alen : Nat) : List Byte := if ap then s.inRead aoff alen else []

/-- INIT (R130). -/
def execInit (dir : Dir) (kp ap : Bool) (tagBits koff klen noff nlen aoff alen : Nat) (s : State) : Result :=
  if kp && !s.inBounds koff klen then s.raise .dataLength
  else if !s.inBounds noff nlen then s.raise .dataLength
  else if ap && !s.inBounds aoff alen then s.raise .dataLength
  else if !tagBitsOk s.cfg.variant tagBits then s.raise .invalidParameter
  else if !nonceLenOk s.cfg.variant nlen then s.raise .invalidParameter
  else if !initKeyAccepted s kp koff klen then s.raise .invalidParameter
  else if s.cfg.initAdMax < (initAdBytes s ap aoff alen).length then s.raise .capacity
  else
    (s.withEngine
      (commitInit s.cfg s.eng dir tagBits (initKeyBytes s kp koff klen) (s.inRead noff nlen)
        (initAdBytes s ap aoff alen))).respondOk 0 []

/-- PROCESS_AAD (R140, R142). -/
def execProcessAad (inOff inLen : Nat) (s : State) : Result :=
  if s.eng.phase = .uninit then s.raise .illegalState
  else if s.eng.phase = .data then s.raise .illegalState
  else if !s.inBounds inOff inLen then s.raise .dataLength
  else if aadCapacityExceeded s.cfg s.eng inLen then s.raise .capacity
  else (s.withEngine { absorbAad s.cfg s.eng (s.inRead inOff inLen) with phase := .aad }).respondOk 0 []

end Sys2Proof.Machine
end

