-- ==== Sys2Proof/Machine/Payload.lean ====
section
/-! DEFINITION. PROCESS_BYTES, PROCESS_BYTE and DO_FINAL (40_engine_commands.md sections 4 and 5). -/

namespace Sys2Proof.Machine

/-- PROCESS_BYTES (R143). -/
def execProcessBytes (inOff inLen outOff : Nat) (s : State) : Result :=
  if s.eng.phase = .uninit then s.raise .illegalState
  else if !s.inBounds inOff inLen then s.raise .dataLength
  else s.processPayload (s.inRead inOff inLen) inLen outOff

/-- PROCESS_BYTE (R146): PROCESS_BYTES of the one byte of the command word; it does not read `IN`. -/
def execProcessByte (byte : Byte) (outOff : Nat) (s : State) : Result :=
  if s.eng.phase = .uninit then s.raise .illegalState
  else s.processPayload [byte] 1 outOff

/-- DO_FINAL (R160 to R163). -/
def execDoFinal (outOff : Nat) (s : State) : Result :=
  if s.eng.phase = .uninit then s.raise .illegalState
  else if s.eng.dir = .dec ∧ held s.cfg s.eng < s.eng.tagLen then s.raiseInvalidCiphertext
  else if !s.outBounds outOff (outSize s.cfg s.eng 0) then s.raise .outputLength
  else
    match finalFrame s.cfg s.eng with
    | (_, _, false) => s.raiseInvalidCiphertext
    | (frame, tag, true) =>
      ((s.withEngine { sessionStart s.cfg s.eng with mac := tag, macValid := true }).outWrite outOff frame).respondOk
        (outSize s.cfg s.eng 0) []

end Sys2Proof.Machine
end

