-- ==== Sys2Proof/Machine/Query.lean ====
section
/-! DEFINITION. GET_MAC, RESET, GET_ALGORITHM_NAME (40_engine_commands.md sections 6 to 8) and the size queries
(41_size_calculator.md section 2). -/

namespace Sys2Proof.Machine

/-- What GET_MAC returns (R170): the empty string before the first tag. -/
def Engine.visibleMac (e : Engine) : List Byte := if e.macValid then e.mac else []

/-- GET_MAC (R170). -/
def execGetMac (s : State) : Result := s.respondOk s.eng.visibleMac.length s.eng.visibleMac

/-- RESET (R172). -/
def execReset (s : State) : Result :=
  if s.eng.phase = .uninit then s.respondOk 0 []
  else (s.withEngine { sessionStart s.cfg s.eng with mac := [], macValid := false }).respondOk 0 []

/-- GET_UPDATE_OUTPUT_SIZE (R201). -/
def execGetUpdateOutputSize (len : Nat) (s : State) : Result :=
  if s.eng.phase = .uninit then s.raise .illegalState
  else s.respondOk (updSize s.cfg s.eng len) []

/-- GET_OUTPUT_SIZE (R202). -/
def execGetOutputSize (len : Nat) (s : State) : Result :=
  if s.eng.phase = .uninit then s.raise .illegalState
  else s.respondOk (outSize s.cfg s.eng len) []

/-- GET_ALGORITHM_NAME (R175). -/
def execGetAlgorithmName (s : State) : Result := s.respondOk s.cfg.algName.length s.cfg.algName

end Sys2Proof.Machine
end

