-- ==== Sys2Proof/Machine/Dispatch.lean ====
section
/-! DEFINITION. The meaning of every command: one arm per constructor of Instr. -/

namespace Sys2Proof.Machine

def exec (i : Instr) (s : State) : Host.Outcome State Fault Refusal :=
  match i with
  | .init dir kp ap tagBits koff klen noff nlen aoff alen => Sys2Proof.Machine.execInit dir kp ap tagBits koff klen noff nlen aoff alen s
  | .processAad inOff inLen => Sys2Proof.Machine.execProcessAad inOff inLen s
  | .processBytes inOff inLen outOff => Sys2Proof.Machine.execProcessBytes inOff inLen outOff s
  | .processByte byte outOff => Sys2Proof.Machine.execProcessByte byte outOff s
  | .doFinal outOff => Sys2Proof.Machine.execDoFinal outOff s
  | .getMac => Sys2Proof.Machine.execGetMac s
  | .reset => Sys2Proof.Machine.execReset s
  | .getUpdateOutputSize len => Sys2Proof.Machine.execGetUpdateOutputSize len s
  | .getOutputSize len => Sys2Proof.Machine.execGetOutputSize len s
  | .getAlgorithmName => Sys2Proof.Machine.execGetAlgorithmName s

end Sys2Proof.Machine
end

