-- ==== Sys2Proof/Machine/HostMoves.lean ====
section
/-! DEFINITION. The host's moves and power-on reset (70_reset_and_hazards.md; logs 5 to 7), and running the command at
the front of the port. -/

namespace Sys2Proof.Machine

/-- The command at the front of the port (30_encoding.md R90, R93, R107): its words leave the port and it is executed. An
illegal command word leaves the port with its operand words and is answered `ILLEGAL_COMMAND`. `none` while the port
holds no whole command. -/
def runPort (s : State) : Option Result :=
  match decode s.port with
  | .command i rest => some (exec i { s with port := rest })
  | .illegal _ rest => some (State.illegalCommand { s with port := rest })
  | .incomplete => none

/-! ### The host's duties (R440): what it must not do -/

/-- An address of the window. -/
def Window.covers (w : Window) (a : Nat) : Bool := decide (w.base ≤ a) && decide (a < w.base + w.cap.toNat)

/-- Whether the bytes, stored from `addr` on, change a byte of `IN` or of `OUT`. -/
def State.changesWindow (s : State) (addr : Nat) (bytes : List Byte) : Bool :=
  match bytes with
  | [] => false
  | b :: rest =>
    ((s.inWin.covers addr || s.outWin.covers addr) && s.mem.read addr != b) || State.changesWindow s (addr + 1) rest

/-- Whether the words, sent behind those at the port, go on past the end of one command: the host has not waited for its
response. -/
def State.sendsPastCommand (s : State) (words : List Word) : Bool :=
  match decode (s.port ++ words) with
  | .command _ rest => !rest.isEmpty
  | .illegal _ rest => !rest.isEmpty
  | .incomplete => false

/-- Whether a move of the host breaks a duty of R440: it sends past the end of one command, or changes `IN` or `OUT` while
a command is partly sent. -/
def HostMove.breaksDuty (m : HostMove) (s : State) : Bool :=
  match m with
  | .send words => s.sendsPastCommand words
  | .present inp out => !s.port.isEmpty && (inp != s.inWin || out != s.outWin)
  | .store addr bytes => !s.port.isEmpty && s.changesWindow addr bytes
  | .powerOn => false
  | .sendLost words => s.sendsPastCommand words

/-! ### Power-on during a command, and the moves -/

/-- The storage after a power-on during a command that was changing `before` into `after` (R430, U16; log 7): each byte has
its old or its new value, which of them is free. -/
def partWritten (n : Nat) (before after : Memory) : Memory :=
  (before.map Prod.fst ++ after.map Prod.fst).foldl
    (fun m a => if Config.writtenBeforeLoss n a then m else m.write a (before.read a)) after

/-- Power-on reset while the command whose last words are in the port is in progress (R430, U16): the command is lost
without a response, and of the bytes it writes to `OUT` any are written. With no whole command in the port it is a
power-on with part of a command sent. -/
def State.loseCommand (s : State) : State :=
  match runPort s with
  | some (.next s1) =>
    { s.powerOnReset with mem := partWritten s.freeCount s.mem s1.mem, freeCount := s.freeCount + 1 }
  | some (.fault _) => s.powerOnReset
  | some (.refused _) => s.powerOnReset
  | none => s.powerOnReset

/-- The state after a move of the host (R430, R441). -/
def State.afterMove (s : State) (m : HostMove) : State :=
  match m with
  | .send words => { s with port := s.port ++ words }
  | .present inp out => { s with inWin := inp, outWin := out }
  | .store addr bytes => { s with mem := s.mem.writeBytes addr bytes }
  | .powerOn => s.powerOnReset
  | .sendLost words => State.loseCommand { s with port := s.port ++ words }

/-- One move of the host, made when the port holds no whole command. A move that breaks a duty (R440) stops the run
(log 6). -/
def hostMove (m : HostMove) (s : State) : Result :=
  if m.breaksDuty s then .fault .hostDuty else .next (s.afterMove m)

/-- The host's next move; with none left the engine is idle and holds its state (60_exceptions.md R405). -/
def takeMove (s : State) : Result :=
  match s.moves with
  | [] => .next s
  | m :: ms => hostMove m { s with moves := ms }

end Sys2Proof.Machine
end

