-- ==== Sys2Proof/Machine/Step.lean ====
section
/-! DEFINITION. One step: the whole command at the front of the port, or else the host's next move. -/

namespace Sys2Proof.Machine

/-- One step (R72, R90, R445): the engine executes the command the port holds; while it holds no whole command, the host
moves. -/
def step (s : State) : Host.Outcome State Fault Refusal :=
  match runPort s with
  | some r => r
  | none => takeMove s

/-- `s` with the instruction whose bits are `w` at the front of the port, where the engine takes its next command from
(log 11). -/
def State.withFetchWord (s : State) (nbits w : Nat) : State :=
  { s with port := tableWords nbits w ++ s.port }

end Sys2Proof.Machine
end

