-- ==== Sys2Proof/Safety.lean ====
section
/-! DEFINITION. What holds of a good state: the invariants of 10_state.md section 6 and of the OCB datapath
(43_ocb_offset_mac.md), in the terms the statements use. -/

namespace Sys2Proof.Machine

/-- The session parameters (10_state.md R42, first lines): what the phase says about them. -/
def ParamsOk (c : Config) (e : Engine) : Prop :=
  match e.phase with
  | .uninit => e.keyValid = false ∧ e.macValid = false
  | _ =>
    e.keyValid = true ∧ keyOk c.transform e.key = true ∧ tagBitsOk c.variant (8 * e.tagLen) = true ∧
      nonceLenOk c.variant e.nonce.length = true ∧ e.initAd.length ≤ c.initAdMax

/-- The payload window of the OCB variant (R42): at most 15 bytes that are not withheld, and on decryption the withheld
bytes stay once a block has been emitted. -/
def MainWindowOk (e : Engine) : Prop :=
  match e.dir with
  | .enc => e.mainPos ≤ 15
  | .dec => e.mainPos ≤ 15 + e.tagLen ∧ (e.ocb.mainCount ≠ 0#64 → e.tagLen ≤ e.mainPos)

/-- The invariant of R42 on the registers of an instance. -/
structure EngineInv (c : Config) (e : Engine) : Prop where
  /-- `PHASE`, `KEY_VALID`, `TAG_LEN` and the other session parameters. -/
  params : ParamsOk c e
  /-- The OCB payload window. -/
  mainWindow : c.variant = .ocb → MainWindowOk e
  /-- The OCB associated-data window. -/
  hashWindow : c.variant = .ocb → e.hashPos ≤ 15
  /-- The CCM associated-data buffer. -/
  aadBuffer : c.variant = .ccm → e.ccm.aadBuf.length ≤ c.ccmAadMax
  /-- The CCM message buffer. -/
  dataBuffer : c.variant = .ccm → e.ccm.dataBuf.length ≤ c.ccmDataMax
  /-- The tag register. -/
  macLength : e.macValid = true → e.mac.length = e.tagLen

/-- The invariant of a state: the parameters as R9 constrains them, the registers as R42 says. -/
def StateInv (s : State) : Prop := s.cfg.wf = true ∧ EngineInv s.cfg s.eng

/-- An instance of one variant never writes the other variant's registers (R20): they stay as power-on left them. -/
def OtherVariantUnused (s : State) : Prop :=
  match s.cfg.variant with
  | .ocb => s.eng.ccm = .empty
  | .ccm => s.eng.ocb = .zero

/-- The OCB key-derived constants (R28 to R30, R282, R283), once there is a session. -/
def DerivedConstantsOk (s : State) : Prop :=
  s.cfg.variant = .ocb → s.eng.phase ≠ .uninit →
    s.eng.ocb.lStar = blockE s.cfg.transform s.eng.key 0#128 ∧
    s.eng.ocb.lDollar = dbl s.eng.ocb.lStar ∧
    s.eng.ocb.ltAt 0 = dbl s.eng.ocb.lDollar ∧
    ∀ k, 1 ≤ k → k ≤ 63 → s.eng.ocb.ltAt k = dbl (s.eng.ocb.ltAt (k - 1))

/-- The binary-reflected Gray code of `i` (R287). -/
def grayCode (i : Nat) : Nat := i ^^^ (i / 2)

/-- The exclusive-or of `LT[k]` over every bit `k < 64` set in `g` (R287). -/
def tableSum (r : OcbRegs) (g : Nat) : Block :=
  (List.range 64).foldl (fun x k => if g.testBit k then x ^^^ r.ltAt k else x) 0#128

/-- The Gray-code form of both offsets (R287). -/
def OffsetsAreGrayCoded (s : State) : Prop :=
  s.cfg.variant = .ocb → s.eng.phase ≠ .uninit →
    s.eng.ocb.offset =
      offset0 s.cfg.transform s.eng.key s.eng.nonce s.eng.tagLen ^^^ tableSum s.eng.ocb (grayCode s.eng.ocb.mainCount.toNat) ∧
    s.eng.ocb.hashOffset = tableSum s.eng.ocb (grayCode s.eng.ocb.hashCount.toNat)

/-- The port holds at most one command: the host waits for the response before it sends anything else (R440). -/
def OneCommandAtMost (s : State) : Prop :=
  match decode s.port with
  | .command _ rest => rest = []
  | .illegal _ rest => rest = []
  | .incomplete => True

/-- A response is as 30_encoding.md R105 says: an error carries no result and no data, and the data has at most 255 bytes. -/
def ResponseOk (r : Response) : Prop :=
  (r.status ≠ .ok → r.result = 0#64 ∧ r.rdata = []) ∧ r.rdata.length ≤ 255

/-- INIT's checks pass (40_engine_commands.md R130, R132 to R135): the ranges it reads lie in `IN`, the tag length and the
nonce length are in the variant's sets, the key is accepted or one is retained, and the associated data fits. -/
def InitAccepted (s : State) (kp ap : Bool) (tagBits koff klen noff nlen aoff alen : Nat) : Prop :=
  (kp = true → s.inBounds koff klen = true ∧ keyOk s.cfg.transform (s.inRead koff klen) = true) ∧
  (kp = false → s.eng.keyValid = true) ∧
  s.inBounds noff nlen = true ∧
  (ap = true → s.inBounds aoff alen = true ∧ alen ≤ s.cfg.initAdMax) ∧
  tagBitsOk s.cfg.variant tagBits = true ∧
  nonceLenOk s.cfg.variant nlen = true

/-- The engine goes on: a step that answers a next state. -/
def GoesOn (s : State) : Prop := ∃ t, step s = .next t

end Sys2Proof.Machine
end

