-- ==== Sys2Proof/Certificates/Slice0/Obligations.lean ====
section
/-! DEFINITION. The statements for the provers. -/

open Sys2Proof Sys2Proof.Machine

/-! ### Terms of the statements -/

namespace Sys2Proof.Machine

/-- The command word matches a row of `spec/opcode_table.json` under its mask. -/
def MatchesTable (w : Word) : Prop :=
  w &&& 0x0000FF8F#32 = 0x00000001#32 ∨ w &&& 0xFFFF00FF#32 = 0x00000004#32 ∨
    w ∈ [2#32, 3#32, 5#32, 6#32, 7#32, 8#32, 9#32, 10#32]

/-- The opcode of a command word is reserved: 0x0, or 0xB to 0xF (R103). -/
def OpcodeReserved (w : Word) : Prop := w.toNat % 16 = 0 ∨ 11 ≤ w.toNat % 16

/-- Of a list of checks, each with the status it raises, the status of the first that fails; `OK` when none does (R390). -/
def firstFailing : List (Prop × Status) → Status → Prop
  | [], st => st = .ok
  | (p, e) :: rest, st => (p ∧ st = e) ∨ (¬ p ∧ firstFailing rest st)

/-- `n` more bytes of associated data exceed the capacity (R141). -/
def AadExceeds (c : Config) (e : Engine) (n : Nat) : Prop :=
  (c.variant = .ccm ∧ c.ccmAadMax < e.ccm.aadBuf.length + n) ∨
  (c.variant = .ocb ∧ 2 ^ 64 ≤ e.ocb.hashCount.toNat + (e.ocb.hashBuf.length + n) / 16)

/-- `n` more bytes of payload exceed the capacity (R144): on CCM that of the instance, or the greatest payload length that
`15 - NONCE_LEN` bytes hold, to which the tag is added on decryption. -/
def DataExceeds (c : Config) (e : Engine) (n : Nat) : Prop :=
  (c.variant = .ccm ∧
    (c.ccmDataMax < e.ccm.dataBuf.length + n ∨
      2 ^ (8 * (15 - e.nonce.length)) - 1 + (if e.dir = .dec then e.tagLen else 0) < e.ccm.dataBuf.length + n)) ∨
  (c.variant = .ocb ∧ 2 ^ 64 ≤ e.ocb.mainCount.toNat + updSize c e n / 16)

/-- The checks of a command and their statuses, in the order of R390. -/
def checksOf (s : State) : Instr → List (Prop × Status)
  | .init _ kp ap tagBits koff klen noff nlen aoff alen =>
    [(kp = true ∧ s.inWin.cap.toNat < koff + klen, .dataLength),
     (s.inWin.cap.toNat < noff + nlen, .dataLength),
     (ap = true ∧ s.inWin.cap.toNat < aoff + alen, .dataLength),
     (tagBitsOk s.cfg.variant tagBits = false, .invalidParameter),
     (nonceLenOk s.cfg.variant nlen = false, .invalidParameter),
     (kp = true ∧ keyOk s.cfg.transform (s.inRead koff klen) = false, .invalidParameter),
     (kp = false ∧ s.eng.keyValid = false, .invalidParameter),
     (ap = true ∧ s.cfg.initAdMax < alen, .capacity)]
  | .processAad inOff inLen =>
    [(s.eng.phase = .uninit, .illegalState), (s.eng.phase = .data, .illegalState),
     (s.inWin.cap.toNat < inOff + inLen, .dataLength), (AadExceeds s.cfg s.eng inLen, .capacity)]
  | .processBytes inOff inLen outOff =>
    [(s.eng.phase = .uninit, .illegalState), (s.inWin.cap.toNat < inOff + inLen, .dataLength),
     (s.outWin.cap.toNat < outOff + updSize s.cfg s.eng inLen, .outputLength),
     (DataExceeds s.cfg s.eng inLen, .capacity)]
  | .processByte _ outOff =>
    [(s.eng.phase = .uninit, .illegalState), (s.outWin.cap.toNat < outOff + updSize s.cfg s.eng 1, .outputLength),
     (DataExceeds s.cfg s.eng 1, .capacity)]
  | .doFinal outOff =>
    [(s.eng.phase = .uninit, .illegalState),
     (s.eng.dir = .dec ∧ held s.cfg s.eng < s.eng.tagLen, .invalidCiphertext),
     (s.outWin.cap.toNat < outOff + outSize s.cfg s.eng 0, .outputLength),
     (s.eng.dir = .dec ∧ (finalFrame s.cfg s.eng).2.2 = false, .invalidCiphertext)]
  | .getMac => []
  | .reset => []
  | .getUpdateOutputSize _ => [(s.eng.phase = .uninit, .illegalState)]
  | .getOutputSize _ => [(s.eng.phase = .uninit, .illegalState)]
  | .getAlgorithmName => []

/-- Where the bytes a command may write to `OUT` lie in the host's storage, and how many (R143, R146, R160): the place its
meaning computes. A command that writes none has length 0. -/
def outRange (s : State) : Instr → Nat × Nat
  | .processBytes _ inLen outOff => (s.outAddr outOff, updSize s.cfg s.eng inLen)
  | .processByte _ outOff => (s.outAddr outOff, updSize s.cfg s.eng 1)
  | .doFinal outOff => (s.outAddr outOff, outSize s.cfg s.eng 0)
  | _ => (0, 0)

/-- PROCESS_BYTES or PROCESS_BYTE. -/
def feedsPayload (i : Instr) : Prop :=
  (∃ inOff inLen outOff, i = .processBytes inOff inLen outOff) ∨ ∃ byte outOff, i = .processByte byte outOff

/-- The command with this status starts a session (R131, R160, R172): an INIT that answered OK, a RESET, or a DO_FINAL that answered
OK or INVALID_CIPHERTEXT. -/
def startsASession (i : Instr) (status : Status) : Prop :=
  ((∃ dir kp ap tagBits koff klen noff nlen aoff alen, i = .init dir kp ap tagBits koff klen noff nlen aoff alen) ∧
    status = .ok) ∨
  i = .reset ∨ ((∃ outOff, i = .doFinal outOff) ∧ (status = .ok ∨ status = .invalidCiphertext))

/-- The session parameters of R49 are the same. -/
def SameSessionParams (e e' : Engine) : Prop :=
  e'.dir = e.dir ∧ e'.key = e.key ∧ e'.keyValid = e.keyValid ∧ e'.nonce = e.nonce ∧ e'.tagLen = e.tagLen ∧ e'.initAd = e.initAd

/-- The phase a session start ends in (R150, R152). -/
def startPhase (e : Engine) : Phase := if e.initAd = [] then .ready else .aad

/-- `off` is the initial offset of R286 for the nonce and the tag length: `nf` is the formatted nonce of R285, byte by byte, `stretch` is
`KTOP` followed by the xor of its first eight bytes with the eight from index 1, and bit `j` of `off`, most significant first,
is bit `bottom + j` of `stretch`. -/
def InitialOffsetIs (t : Transform) (k nonce : List Byte) (tagLen : Nat) (off : Block) : Prop :=
  ∃ (nf top stretch : List Byte) (bottom : Nat),
    nf.length = 16 ∧
    (∀ i, i < 16 →
      nf.getD i 0#8 =
        (if 16 - nonce.length ≤ i then nonce.getD (i - (16 - nonce.length)) 0#8 else 0#8) |||
          (if i = 0 then BitVec.ofNat 8 (2 * (8 * tagLen % 128)) else 0#8) ||| (if i = 15 - nonce.length then 1#8 else 0#8)) ∧
    bottom = (nf.getD 15 0#8).toNat % 64 ∧
    top = bytesOfBlock (blockE t k (blockOfBytes (nf.take 15 ++ [nf.getD 15 0#8 &&& 0xC0#8]))) ∧
    stretch.length = 24 ∧
    (∀ j, j < 16 → stretch.getD j 0#8 = top.getD j 0#8) ∧
    (∀ j, j < 8 → stretch.getD (16 + j) 0#8 = top.getD j 0#8 ^^^ top.getD (j + 1) 0#8) ∧
    ∀ j, j < 128 → off.getMsbD j = (stretch.getD ((bottom + j) / 8) 0#8).getMsbD ((bottom + j) % 8)

/-- The whole blocks of a string, and what is left of it. -/
def wholeBlocks (a : List Byte) : List Block :=
  (List.range (a.length / 16)).map fun j => blockOfBytes ((a.drop (16 * j)).take 16)

/-- The associated-data chain over whole blocks (R291), as a recurrence on the block index `i`, the offset and the sum. -/
def pmacChain (t : Transform) (k : List Byte) (r : OcbRegs) : Nat → Block → Block → List Block → Block × Block
  | _, off, sum, [] => (off, sum)
  | i, off, sum, a :: rest =>
    pmacChain t k r (i + 1) (off ^^^ r.ltAt (ntz (i + 1))) (sum ^^^ blockE t k (a ^^^ (off ^^^ r.ltAt (ntz (i + 1))))) rest

/-- `IN` and `OUT` share no byte of the host's storage. -/
def WindowsApart (s : State) : Prop :=
  s.inWin.base + s.inWin.cap.toNat ≤ s.outWin.base ∨ s.outWin.base + s.outWin.cap.toNat ≤ s.inWin.base

/-- A move of the host breaks a duty of R440: it sends past the end of one command, or changes `IN` or `OUT` while a command is
partly sent. -/
def BreaksHostDuty (s : State) : HostMove → Prop
  | .send words => ∃ rest, rest ≠ [] ∧
    ((∃ i, decode (s.port ++ words) = .command i rest) ∨ ∃ why, decode (s.port ++ words) = .illegal why rest)
  | .present inp out => s.port ≠ [] ∧ (inp ≠ s.inWin ∨ out ≠ s.outWin)
  | .store addr bytes => s.port ≠ [] ∧
    ∃ a, addr ≤ a ∧ a < addr + bytes.length ∧ bytes.getD (a - addr) 0#8 ≠ s.mem.read a ∧
      ((s.inWin.base ≤ a ∧ a < s.inWin.base + s.inWin.cap.toNat) ∨ (s.outWin.base ≤ a ∧ a < s.outWin.base + s.outWin.cap.toNat))
  | .powerOn => False
  | .sendLost words => ∃ rest, rest ≠ [] ∧
    ((∃ i, decode (s.port ++ words) = .command i rest) ∨ ∃ why, decode (s.port ++ words) = .illegal why rest)

/-- `frame` and `tag` are those of R298, R292, R300 and R301 for the OCB registers: `part` is the payload left in the window, `out`
its transform, `plain` its plaintext. -/
def OcbFinalIs (t : Transform) (k : List Byte) (dir : Dir) (tagLen : Nat) (r : OcbRegs) (frame tag : List Byte) : Prop :=
  ∃ (part out plain : List Byte) (offF ckF hash : Block),
    part = (match dir with | .enc => r.mainBuf | .dec => r.mainBuf.take (r.mainBuf.length - tagLen)) ∧
    plain = (match dir with | .enc => part | .dec => out) ∧
    (part = [] → offF = r.offset ∧ ckF = r.checksum ∧ out = []) ∧
    (part ≠ [] →
      offF = r.offset ^^^ r.lStar ∧ out = xorBytes part ((bytesOfBlock (blockE t k offF)).take part.length) ∧
      ckF = r.checksum ^^^ blockOfBytes (plain ++ 0x80#8 :: zeroBytes (15 - plain.length))) ∧
    (r.hashBuf = [] → hash = r.hashSum) ∧
    (r.hashBuf ≠ [] →
      hash = r.hashSum ^^^
        blockE t k (blockOfBytes (r.hashBuf ++ 0x80#8 :: zeroBytes (15 - r.hashBuf.length)) ^^^ (r.hashOffset ^^^ r.lStar))) ∧
    tag = (bytesOfBlock (blockE t k (ckF ^^^ offF ^^^ r.lDollar) ^^^ hash)).take tagLen ∧
    frame = out ++ (match dir with | .enc => tag | .dec => [])

/-- The fewest zero bytes that make a string's length a multiple of 16 follow it (R243, R244). -/
def zeroFilled (s : List Byte) : List Byte := s ++ zeroBytes ((16 - s.length % 16) % 16)

/-- The string the associated-data blocks are cut from, before the zero bytes (R242, R243). -/
def ccmAadString (aad : List Byte) : List Byte :=
  if aad.length = 0 then []
  else if aad.length < 0xFF00 then be 2 aad.length ++ aad
  else if aad.length < 2 ^ 32 then 0xFF#8 :: 0xFE#8 :: be 4 aad.length ++ aad
  else 0xFF#8 :: 0xFF#8 :: be 8 aad.length ++ aad

/-- `frame` and `tag` are those of R241 to R250 for the CCM buffers: `input` is the payload as it was received, `out` its transform
byte by byte, `plain` its plaintext, `x` the chaining value over the header, the associated data and the plaintext. -/
def CcmFinalIs (t : Transform) (k nonce : List Byte) (dir : Dir) (tagLen : Nat) (r : CcmRegs) (frame tag : List Byte) : Prop :=
  ∃ (input out plain : List Byte) (x : Block),
    input = (match dir with | .enc => r.dataBuf | .dec => r.dataBuf.take (r.dataBuf.length - tagLen)) ∧
    out.length = input.length ∧
    (∀ j, j < input.length →
      out.getD j 0#8 = input.getD j 0#8 ^^^ (bytesOfBlock (blockE t k (ccmCounter nonce (j / 16 + 1)))).getD (j % 16) 0#8) ∧
    plain = (match dir with | .enc => input | .dec => out) ∧
    x = (ccmHeader nonce tagLen r.aadBuf.length plain.length ::
        (wholeBlocks (zeroFilled (ccmAadString r.aadBuf)) ++ wholeBlocks (zeroFilled plain))).foldl
      (fun y b => blockE t k (y ^^^ b)) 0#128 ∧
    tag = xorBytes ((bytesOfBlock x).take tagLen) ((bytesOfBlock (blockE t k (ccmCounter nonce 0))).take tagLen) ∧
    frame = out ++ (match dir with | .enc => tag | .dec => [])

/-- The bytes received that stand for the tag: the last `TAG_LEN` the instance holds (R250, R301). -/
def receivedTag (c : Config) (e : Engine) : List Byte :=
  match c.variant with
  | .ccm => e.ccm.dataBuf.drop (e.ccm.dataBuf.length - e.tagLen)
  | .ocb => e.ocb.mainBuf.drop (e.ocb.mainBuf.length - e.tagLen)

/-- The registers a message meets at a session start of the OCB variant with nothing processed yet. -/
def OcbFresh (r : OcbRegs) : Prop := r.mainBuf = [] ∧ r.checksum = 0#128 ∧ r.mainCount = 0#64

end Sys2Proof.Machine

/-! ### The command words (30_encoding.md) -/

/-- Every well-formed command is decoded from its own words, whatever follows them (R91 to R100, R107). -/
def Obligations.DecodeOfEncodeGivesTheCommandBack : Prop :=
  ∀ (i : Instr) (rest : List Word), i.wellFormed = true → decode (encode i ++ rest) = .command i rest

/-- A command is decoded from no words but its own: every bit of the words is read (R101, R107). -/
def Obligations.EncodeOfDecodeGivesTheWordsBack : Prop :=
  ∀ (ws : List Word) (i : Instr) (rest : List Word),
    decode ws = .command i rest → i.wellFormed = true ∧ ws = encode i ++ rest

/-- R102: the legal command words are exactly those that match a row of the table (six operand words being at hand). -/
def Obligations.LegalCommandWordsMatchTheTable : Prop :=
  ∀ (w : Word) (ops : List Word), 6 ≤ ops.length →
    ((∃ i rest, decode (w :: ops) = .command i rest) ↔ MatchesTable w)

/-- R93: how many operand words a command takes is a function of its opcode alone, legal or not. -/
def Obligations.CommandLengthDependsOnTheOpcodeOnly : Prop :=
  ∃ count : Nat → Nat,
    count 1 = 6 ∧ count 2 = 2 ∧ count 3 = 3 ∧ count 4 = 1 ∧ count 5 = 1 ∧ count 8 = 1 ∧ count 9 = 1 ∧
    count 6 = 0 ∧ count 7 = 0 ∧ count 10 = 0 ∧ count 0 = 0 ∧ (∀ o, 11 ≤ o → count o = 0) ∧
    ∀ (w : Word) (ops : List Word),
      (ops.length < count (w.toNat % 16) → decode (w :: ops) = .incomplete) ∧
      (count (w.toNat % 16) ≤ ops.length →
        (∃ i, decode (w :: ops) = .command i (ops.drop (count (w.toNat % 16)))) ∨
        (∃ why, decode (w :: ops) = .illegal why (ops.drop (count (w.toNat % 16)))))

/-- Words of 95_test_vectors.md, written out bit by bit, decode to the commands they stand for. -/
def Obligations.WordsOfTheSpecDecode : Prop :=
  decode [0x00800071#32, 0#32, 0x10#32, 0x10#32, 0xC#32, 0x1C#32, 0x10#32] =
    .command (.init .dec true true 128 0 16 16 12 28 16) [] ∧
  decode [0x00000002#32, 0x1C#32, 5#32] = .command (.processAad 28 5) [] ∧
  decode [0x00000003#32, 0x33#32, 9#32, 0#32, 7#32] = .command (.processBytes 51 9 0) [7#32] ∧
  decode [0x00001F04#32, 0#32] = .command (.processByte 0x1F#8 0) [] ∧
  decode [0x00000005#32, 0x10#32] = .command (.doFinal 16) [] ∧
  decode [0x12345604#32, 0#32] = .illegal .reservedField [] ∧
  decode [0x0000000B#32, 9#32] = .illegal .reservedOpcode [9#32]

/-! ### The step and the host -/

/-- A step runs the decoded command: its words leave the port, and nothing else surrounds `exec` (R72, R90). -/
def Obligations.StepRunsTheDecodedCommand : Prop :=
  ∀ (s : State) (i : Instr) (rest : List Word),
    decode s.port = .command i rest → step s = exec i { s with port := rest }

/-- R101, R103: an illegal command word consumes its operand words, changes no state and is answered ILLEGAL_COMMAND. -/
def Obligations.IllegalCommandWordsHaveNoEffect : Prop :=
  ∀ (s : State) (w : Word) (ops : List Word), s.port = w :: ops →
    (OpcodeReserved w →
      step s = .next { s with port := ops, responses := s.responses ++ [⟨.illegalCommand, 0#64, []⟩] }) ∧
    (¬ OpcodeReserved w → ¬ MatchesTable w → operandCount (w.toNat % 16) ≤ ops.length →
      step s =
        .next { s with
          port := ops.drop (operandCount (w.toNat % 16))
          responses := s.responses ++ [⟨.illegalCommand, 0#64, []⟩] })

/-- No command and no illegal word ever stops the machine (R380, R447): it stops exactly for a move of the host that breaks a
duty of R440, taken while the port holds no whole command, and nothing is refused. The stop is the model's choice, log 6. -/
def Obligations.OnlyABreachByTheHostStopsTheMachine : Prop :=
  ∀ s : State,
    (∀ r, step s ≠ .refused r) ∧
    (∀ f, step s = .fault f ↔ decode s.port = .incomplete ∧ ∃ m ms, s.moves = m :: ms ∧ BreaksHostDuty s m) ∧
    (s.moves = [] → GoesOn s)

/-- Every command ends with exactly one response, and a response that is not OK carries no result and no data (R105, R447). -/
def Obligations.EveryCommandGivesOneResponse : Prop :=
  ∀ (i : Instr) (s : State), ∃ t r, exec i s = .next t ∧ t.responses = s.responses ++ [r] ∧
    (r.status ≠ .ok → r.result = 0#64 ∧ r.rdata = [])

/-- While the port holds no whole command the host moves, and with no move left the engine is idle and holds its state (R405;
the list of moves is the model's choice, log 5). The host's liberties (R441, R75): sending words, presenting windows and
writing its storage change no register of the engine and give no response. And no step leaves more than one command at the
port: the host waits for each response (R440). -/
def Obligations.HostMovesLeaveTheEngineAlone : Prop :=
  (∀ s : State, decode s.port = .incomplete →
    (s.moves = [] → step s = .next s) ∧
    ∀ m ms, s.moves = m :: ms → step s = hostMove m { s with moves := ms }) ∧
  (∀ s t : State, OneCommandAtMost s → step s = .next t → OneCommandAtMost t) ∧
  ∀ (s t : State) (m : HostMove),
    ((∃ ws, m = .send ws) ∨ (∃ inp out, m = .present inp out) ∨ (∃ addr bytes, m = .store addr bytes)) →
    hostMove m s = .next t →
    t.eng = s.eng ∧ t.cfg = s.cfg ∧ t.responses = s.responses ∧
    (∀ ws, m = .send ws → t.port = s.port ++ ws ∧ t.mem = s.mem) ∧
    (∀ inp out, m = .present inp out → t.inWin = inp ∧ t.outWin = out ∧ t.mem = s.mem) ∧
    (∀ addr bytes, m = .store addr bytes → s.mem.wf = true →
      ∀ a, t.mem.read a = if addr ≤ a ∧ a < addr + bytes.length then bytes.getD (a - addr) 0#8 else s.mem.read a)

/-- Power-on reset (R430, R45): every register at its value, no response, no write. What is lost of the port is the
model's (log 5). -/
def Obligations.PowerOnSetsEveryRegister : Prop :=
  ∀ s : State, ∃ t, hostMove .powerOn s = .next t ∧
    t.mem = s.mem ∧ t.responses = s.responses ∧ t.port = [] ∧ t.cfg = s.cfg ∧
    t.eng.phase = .uninit ∧ t.eng.dir = .enc ∧ t.eng.key = [] ∧ t.eng.keyValid = false ∧ t.eng.nonce = [] ∧
    t.eng.tagLen = 0 ∧ t.eng.initAd = [] ∧ t.eng.mac = [] ∧ t.eng.macValid = false ∧
    t.eng.ccm.aadBuf = [] ∧ t.eng.ccm.dataBuf = [] ∧
    t.eng.ocb.lStar = 0#128 ∧ t.eng.ocb.lDollar = 0#128 ∧ (∀ k, t.eng.ocb.ltAt k = 0#128) ∧ t.eng.ocb.offset = 0#128 ∧
    t.eng.ocb.checksum = 0#128 ∧ t.eng.ocb.mainBuf = [] ∧ t.eng.ocb.mainCount = 0#64 ∧ t.eng.ocb.hashBuf = [] ∧
    t.eng.ocb.hashCount = 0#64 ∧ t.eng.ocb.hashOffset = 0#128 ∧ t.eng.ocb.hashSum = 0#128

/-- A command in progress at power-on is lost without a response (R430), and every byte of the storage has its old value or
the one the command was writing (U16); which of them is the model's free value (log 7), and the statement holds for
every choice. -/
def Obligations.LostCommandWritesOldOrNewBytes : Prop :=
  ∀ (s : State) (words : List Word) (i : Instr),
    s.mem.wf = true → decode (s.port ++ words) = .command i [] →
    ∃ t u, exec i { s with port := [] } = .next u ∧ hostMove (.sendLost words) s = .next t ∧
      t.eng = Engine.reset ∧ t.responses = s.responses ∧ t.mem.wf = true ∧
      ∀ a, t.mem.read a = s.mem.read a ∨ t.mem.read a = u.mem.read a

/-! ### Every command -/

/-- R388: every error but INVALID_CIPHERTEXT leaves the whole state as it was, and INVALID_CIPHERTEXT writes nothing and
changes only what the session start changes. -/
def Obligations.FailedCommandsChangeNothing : Prop :=
  ∀ (i : Instr) (s t : State) (r : Response), exec i s = .next t → t.responses = s.responses ++ [r] → r.status ≠ .ok →
    (r.status ≠ .invalidCiphertext → t = { s with responses := s.responses ++ [r] }) ∧
    (r.status = .invalidCiphertext →
      t = { s with eng := sessionStart s.cfg s.eng, responses := s.responses ++ [r] } ∧
      t.eng.mac = s.eng.mac ∧ t.eng.macValid = s.eng.macValid ∧ SameSessionParams s.eng t.eng)

/-- R385, R396: INVALID_CIPHERTEXT is raised by DO_FINAL alone, on decryption, for a truncated input or a tag that differs, and
both causes give the same response and the same state: the session start, the tag register and the session parameters kept,
nothing written. -/
def Obligations.InvalidCiphertextHasOneForm : Prop :=
  ∀ (i : Instr) (s t : State) (r : Response), exec i s = .next t → t.responses = s.responses ++ [r] →
    r.status = .invalidCiphertext →
    (∃ outOff, i = .doFinal outOff) ∧ s.eng.dir = .dec ∧
    (held s.cfg s.eng < s.eng.tagLen ∨ (finalFrame s.cfg s.eng).2.2 = false) ∧
    r = ⟨.invalidCiphertext, 0#64, []⟩ ∧
    t = { s with eng := sessionStart s.cfg s.eng, responses := s.responses ++ [r] } ∧
    t.eng.mac = s.eng.mac ∧ t.eng.macValid = s.eng.macValid ∧ SameSessionParams s.eng t.eng

/-- R390: decoding is checked first; of a command's checks that fail it reports the first in its row, and with none failing it
answers OK. -/
def Obligations.CommandsReportTheFirstFailingCheck : Prop :=
  (∀ (s : State) (why : IllegalReason) (rest : List Word), decode s.port = .illegal why rest →
    ∃ t, step s = .next t ∧ t.responses = s.responses ++ [⟨.illegalCommand, 0#64, []⟩]) ∧
  ∀ (i : Instr) (s : State), ∃ t r, exec i s = .next t ∧ t.responses = s.responses ++ [r] ∧ firstFailing (checksOf s i) r.status

/-- R49: only a successful INIT writes the session parameters. -/
def Obligations.OnlyInitWritesTheSessionParameters : Prop :=
  ∀ (i : Instr) (s t : State), exec i s = .next t → ¬ SameSessionParams s.eng t.eng →
    (∃ dir kp ap tagBits koff klen noff nlen aoff alen, i = .init dir kp ap tagBits koff klen noff nlen aoff alen) ∧
    t.responses = s.responses ++ [⟨.ok, 0#64, []⟩]

/-- R152: the phase after a command, by the command, the phase before and the status. -/
def Obligations.PhaseFollowsTheTransitionTable : Prop :=
  ∀ (i : Instr) (s t : State) (r : Response), exec i s = .next t → t.responses = s.responses ++ [r] →
    match i with
    | .init .. => t.eng.phase = if r.status = .ok then startPhase t.eng else s.eng.phase
    | .processAad .. =>
      ((s.eng.phase = .uninit ∨ s.eng.phase = .data) → r.status = .illegalState) ∧
      t.eng.phase = if r.status = .ok then .aad else s.eng.phase
    | .processBytes .. =>
      (s.eng.phase = .uninit → r.status = .illegalState) ∧ t.eng.phase = if r.status = .ok then .data else s.eng.phase
    | .processByte .. =>
      (s.eng.phase = .uninit → r.status = .illegalState) ∧ t.eng.phase = if r.status = .ok then .data else s.eng.phase
    | .doFinal .. =>
      (s.eng.phase = .uninit → r.status = .illegalState) ∧
      t.eng.phase = if r.status = .ok ∨ r.status = .invalidCiphertext then startPhase s.eng else s.eng.phase
    | .reset => r.status = .ok ∧ t.eng.phase = if s.eng.phase = .uninit then .uninit else startPhase s.eng
    | .getMac => t.eng.phase = s.eng.phase
    | .getAlgorithmName => t.eng.phase = s.eng.phase
    | .getUpdateOutputSize .. => (s.eng.phase = .uninit → r.status = .illegalState) ∧ t.eng.phase = s.eng.phase
    | .getOutputSize .. => (s.eng.phase = .uninit → r.status = .illegalState) ∧ t.eng.phase = s.eng.phase

/-- The frame of every command on storage (R62, R67): a byte outside the range the command computes for its output reads as
before; the range lies in `OUT`; and with a status that is not OK every byte does. -/
def Obligations.CommandsWriteOnlyTheirOutRange : Prop :=
  ∀ (i : Instr) (s t : State) (r : Response), s.mem.wf = true → StateInv s → exec i s = .next t →
    t.responses = s.responses ++ [r] →
    (∀ a, (a < (outRange s i).1 ∨ (outRange s i).1 + (outRange s i).2 ≤ a) → t.mem.read a = s.mem.read a) ∧
    (r.status ≠ .ok → ∀ a, t.mem.read a = s.mem.read a) ∧
    (r.status = .ok → (outRange s i).2 ≠ 0 →
      s.outWin.base ≤ (outRange s i).1 ∧ (outRange s i).1 + (outRange s i).2 ≤ s.outWin.base + s.outWin.cap.toNat)

/-- A command changes no parameter of the instance (R20), no window, no word of the port and no coming move; it adds one
response. No step changes the parameters. -/
def Obligations.CommandsKeepParametersAndWindows : Prop :=
  (∀ (i : Instr) (s t : State), exec i s = .next t →
    t.cfg = s.cfg ∧ t.inWin = s.inWin ∧ t.outWin = s.outWin ∧ t.port = s.port ∧ t.moves = s.moves ∧
      t.freeCount = s.freeCount) ∧
  ∀ s t : State, step s = .next t → t.cfg = s.cfg

/-! ### Invariants -/

/-- Every step keeps the storage's canonical form (log 4). -/
def Obligations.StepKeepsTheStorageCanonical : Prop :=
  ∀ s t : State, s.mem.wf = true → step s = .next t → t.mem.wf = true

/-- Every step keeps the register invariant of R42. -/
def Obligations.StepKeepsTheRegisterInvariant : Prop :=
  ∀ s t : State, StateInv s → step s = .next t → StateInv t

/-- Every step keeps the other variant's registers at their power-on values (R20). -/
def Obligations.StepKeepsTheOtherVariantUnused : Prop :=
  ∀ s t : State, OtherVariantUnused s → step s = .next t → OtherVariantUnused t

/-- Every step keeps the OCB key-derived constants at the values R28 to R30, R282 and R283 give them. -/
def Obligations.StepKeepsTheDerivedConstants : Prop :=
  ∀ s t : State, DerivedConstantsOk s → step s = .next t → DerivedConstantsOk t

/-- R287: every step keeps both offsets at the Gray-code form of their block counters. -/
def Obligations.StepKeepsTheOffsetsGrayCoded : Prop :=
  ∀ s t : State, StateInv s → OffsetsAreGrayCoded s → step s = .next t → OffsetsAreGrayCoded t

/-- Responses are only appended, and each is as R105 says. -/
def Obligations.StepKeepsTheResponsesWellFormed : Prop :=
  ∀ s t : State, StateInv s → (∀ r ∈ s.responses, ResponseOk r) → step s = .next t →
    s.responses <+: t.responses ∧ ∀ r ∈ t.responses, ResponseOk r

/-- The invariants hold after power-on of any instance R9 allows (R42, R45), `State.reset` (log 1) among them. -/
def Obligations.InvariantsHoldAfterReset : Prop :=
  (∀ c : Config, c.wf = true →
    (State.resetOf c).mem.wf = true ∧ StateInv (State.resetOf c) ∧ OtherVariantUnused (State.resetOf c) ∧
    DerivedConstantsOk (State.resetOf c) ∧ OffsetsAreGrayCoded (State.resetOf c) ∧
    (∀ r ∈ (State.resetOf c).responses, ResponseOk r) ∧ OneCommandAtMost (State.resetOf c)) ∧
  Config.specInstance.wf = true ∧ State.reset = State.resetOf Config.specInstance

/-! ### INIT and the session start -/

/-- R132, R133, R134: with the ranges it reads inside `IN` and the associated data within its capacity, INIT succeeds
exactly when the tag length, the nonce length and the key are accepted. -/
def Obligations.InitSucceedsExactlyWhenItsChecksPass : Prop :=
  ∀ (dir : Dir) (kp ap : Bool) (tagBits koff klen noff nlen aoff alen : Nat) (s : State),
    koff + klen ≤ s.inWin.cap.toNat → noff + nlen ≤ s.inWin.cap.toNat → aoff + alen ≤ s.inWin.cap.toNat →
    alen ≤ s.cfg.initAdMax →
    ∃ t r, exec (.init dir kp ap tagBits koff klen noff nlen aoff alen) s = .next t ∧ t.responses = s.responses ++ [r] ∧
      (r.status = .ok ↔
        (s.cfg.variant = .ccm → tagBits ∈ [32, 48, 64, 80, 96, 112, 128] ∧ 7 ≤ nlen ∧ nlen ≤ 13) ∧
        (s.cfg.variant = .ocb → tagBits ∈ [64, 72, 80, 88, 96, 104, 112, 120, 128] ∧ 1 ≤ nlen ∧ nlen ≤ 15) ∧
        (kp = true → keyOk s.cfg.transform (s.inRead koff klen) = true) ∧ (kp = false → s.eng.keyValid = true)) ∧
      (r.status ≠ .ok → r = ⟨.invalidParameter, 0#64, []⟩)

/-- R131: an accepted INIT answers OK with the session parameters written, the tag register cleared and a session started;
nothing outside the engine's registers changes but the response. -/
def Obligations.InitCommitsTheSessionParameters : Prop :=
  ∀ (dir : Dir) (kp ap : Bool) (tagBits koff klen noff nlen aoff alen : Nat) (s : State),
    InitAccepted s kp ap tagBits koff klen noff nlen aoff alen →
    ∃ e : Engine,
      exec (.init dir kp ap tagBits koff klen noff nlen aoff alen) s =
        .next { s with eng := e, responses := s.responses ++ [⟨.ok, 0#64, []⟩] } ∧
      e.key = (if kp then s.inRead koff klen else s.eng.key) ∧ e.keyValid = true ∧ e.dir = dir ∧ e.tagLen = tagBits / 8 ∧
      e.nonce = s.inRead noff nlen ∧ e.nonceLen = nlen ∧ e.initAd = (if ap then s.inRead aoff alen else []) ∧
      e.mac = [] ∧ e.macValid = false ∧ e.phase = startPhase e ∧
      e = sessionStart s.cfg (s.eng.withParams dir tagBits e.key e.nonce e.initAd)

/-- R150: what the session start leaves in every register. `OFFSET` is the one of R285 and R286, written out bit by bit. The
associated data given at INIT is absorbed in whole blocks (the chain of R291 from zero), the rest of it is held. -/
def Obligations.SessionStartSetsTheDatapath : Prop :=
  ∀ (c : Config) (e : Engine), e.initAd.length < 2 ^ 32 →
    SameSessionParams e (sessionStart c e) ∧
    (sessionStart c e).mac = e.mac ∧ (sessionStart c e).macValid = e.macValid ∧ (sessionStart c e).phase = startPhase e ∧
    (c.variant = .ccm →
      (sessionStart c e).ocb = e.ocb ∧ (sessionStart c e).ccm.aadBuf = e.initAd ∧ (sessionStart c e).ccm.dataBuf = []) ∧
    (c.variant = .ocb →
      let r := (sessionStart c e).ocb
      (sessionStart c e).ccm = e.ccm ∧
      r.lStar = blockE c.transform e.key 0#128 ∧ r.lDollar = dbl r.lStar ∧ r.ltAt 0 = dbl r.lDollar ∧
      (∀ k, 1 ≤ k → k ≤ 63 → r.ltAt k = dbl (r.ltAt (k - 1))) ∧
      r.offset = offset0 c.transform e.key e.nonce e.tagLen ∧
      (1 ≤ e.nonce.length → e.nonce.length ≤ 15 → InitialOffsetIs c.transform e.key e.nonce e.tagLen r.offset) ∧ r.checksum = 0#128 ∧ r.mainBuf = [] ∧ r.mainCount = 0#64 ∧
      r.hashBuf = e.initAd.drop (16 * (e.initAd.length / 16)) ∧ r.hashCount.toNat = e.initAd.length / 16 ∧
      (r.hashOffset, r.hashSum) = pmacChain c.transform e.key r 0 0#128 0#128 (wholeBlocks e.initAd))

/-- R135: an INIT with `KP = 0` leaves the retained key as it is, for any direction, tag length, nonce and associated data it
accepts; with the same ones as an INIT that supplied the same key it starts an identical session. With no key retained it
returns INVALID_PARAMETER. -/
def Obligations.KeyReuseStartsTheSameSession : Prop :=
  (∀ (dir : Dir) (ap : Bool) (tagBits koff klen noff nlen aoff alen koff' klen' : Nat) (s s' t : State),
    InitAccepted s true ap tagBits koff klen noff nlen aoff alen →
    s'.cfg = s.cfg → s'.inWin = s.inWin → s'.mem = s.mem → OtherVariantUnused s → OtherVariantUnused s' →
    s'.eng.keyValid = true → s'.eng.key = s.inRead koff klen →
    exec (.init dir true ap tagBits koff klen noff nlen aoff alen) s = .next t →
    ∃ t', exec (.init dir false ap tagBits koff' klen' noff nlen aoff alen) s' = .next t' ∧ t'.eng = t.eng) ∧
  (∀ (dir : Dir) (ap : Bool) (tagBits koff klen noff nlen aoff alen : Nat) (s : State),
    InitAccepted s false ap tagBits koff klen noff nlen aoff alen →
    ∃ t, exec (.init dir false ap tagBits koff klen noff nlen aoff alen) s = .next t ∧
      t.responses = s.responses ++ [⟨.ok, 0#64, []⟩] ∧ t.eng.key = s.eng.key ∧ t.eng.keyValid = true) ∧
  ∀ (dir : Dir) (ap : Bool) (tagBits koff klen noff nlen aoff alen : Nat) (s : State),
    s.eng.keyValid = false → noff + nlen ≤ s.inWin.cap.toNat → (ap = true → aoff + alen ≤ s.inWin.cap.toNat) →
    exec (.init dir false ap tagBits koff klen noff nlen aoff alen) s =
      .next { s with responses := s.responses ++ [⟨.invalidParameter, 0#64, []⟩] }

/-! ### Associated data -/

/-- PROCESS_AAD in a session that has seen no payload, its range inside `IN` and its capacity not exceeded, answers OK and
appends the bytes to the associated-data stream (R140, R151): to `AAD_BUF` on CCM, through the associated-data window on OCB
(what that computes, AssociatedDataIsHashedBlockwise says); nothing else changes. -/
def Obligations.ProcessAadAbsorbsItsBytes : Prop :=
  ∀ (inOff inLen : Nat) (s : State),
    (s.eng.phase = .ready ∨ s.eng.phase = .aad) → inOff + inLen ≤ s.inWin.cap.toNat →
    ¬ AadExceeds s.cfg s.eng inLen → s.eng.hashPos ≤ 15 →
    ∃ e : Engine,
      exec (.processAad inOff inLen) s = .next { s with eng := e, responses := s.responses ++ [⟨.ok, 0#64, []⟩] } ∧
      e.phase = .aad ∧ SameSessionParams s.eng e ∧ e.mac = s.eng.mac ∧ e.macValid = s.eng.macValid ∧
      (s.cfg.variant = .ccm → e.ocb = s.eng.ocb ∧ e.ccm = { s.eng.ccm with aadBuf := s.eng.ccm.aadBuf ++ s.inRead inOff inLen }) ∧
      (s.cfg.variant = .ocb →
        e.ccm = s.eng.ccm ∧ e.ocb = hashFeed s.cfg.transform s.eng.key s.eng.ocb (s.inRead inOff inLen) ∧
        e.hashPos = (s.eng.hashPos + inLen) % 16 ∧
        e.ocb.hashCount.toNat = s.eng.ocb.hashCount.toNat + (s.eng.hashPos + inLen) / 16 ∧
        e.ocb =
          { s.eng.ocb with
            hashBuf := e.ocb.hashBuf, hashCount := e.ocb.hashCount, hashOffset := e.ocb.hashOffset, hashSum := e.ocb.hashSum })

/-- The bytes of the associated-data stream are absorbed block by block (R151, R291): from an empty window, feeding a string is
the chain over its whole blocks, and the rest stays in the window. -/
def Obligations.AssociatedDataIsHashedBlockwise : Prop :=
  ∀ (t : Transform) (k : List Byte) (r : OcbRegs) (a : List Byte),
    r.hashBuf = [] → r.hashCount.toNat + a.length / 16 < 2 ^ 64 →
    (hashFeed t k r a).hashBuf = a.drop (16 * (a.length / 16)) ∧
    (hashFeed t k r a).hashCount.toNat = r.hashCount.toNat + a.length / 16 ∧
    ((hashFeed t k r a).hashOffset, (hashFeed t k r a).hashSum) =
      pmacChain t k r r.hashCount.toNat r.hashOffset r.hashSum (wholeBlocks a)

/-- R151: how the associated data is split into commands does not matter: where one PROCESS_AAD of `m + n` bytes succeeds, one of
the first `m` and then one of the last `n` succeed and leave the same registers. -/
def Obligations.AssociatedDataSplitDoesNotMatter : Prop :=
  ∀ (inOff m n : Nat) (s t : State), s.eng.hashPos ≤ 15 →
    exec (.processAad inOff (m + n)) s = .next t → t.responses = s.responses ++ [⟨.ok, 0#64, []⟩] →
    ∃ t1 t2, exec (.processAad inOff m) s = .next t1 ∧ exec (.processAad (inOff + m) n) t1 = .next t2 ∧
      t2.eng = t.eng ∧ t2.mem = t.mem ∧ t2.responses = s.responses ++ [⟨.ok, 0#64, []⟩, ⟨.ok, 0#64, []⟩]

/-- R142: once a PROCESS_BYTES or PROCESS_BYTE of the session has returned OK, every PROCESS_AAD returns ILLEGAL_STATE with no
effect, until INIT, RESET or DO_FINAL starts a new session (an INIT that failed and a DO_FINAL answered OUTPUT_LENGTH start none).
A PROCESS_BYTES or PROCESS_BYTE that failed does not count. -/
def Obligations.AadAfterDataIsRefused : Prop :=
  ∀ (i : Instr) (s t : State) (r : Response), exec i s = .next t → t.responses = s.responses ++ [r] →
    (feedsPayload i ∨ (s.eng.phase = .data ∧ ¬ startsASession i r.status) →
      (feedsPayload i → r.status = .ok ∨ s.eng.phase = .data) →
      t.eng.phase = .data ∧
      ∀ inOff inLen, exec (.processAad inOff inLen) t =
        .next { t with responses := t.responses ++ [⟨.illegalState, 0#64, []⟩] }) ∧
    (feedsPayload i → r.status ≠ .ok → t.eng.phase = s.eng.phase)

/-! ### Payload -/

/-- R230, R143, R144: on a CCM instance PROCESS_BYTES and PROCESS_BYTE within their bounds answer OK, append their input to
`DATA_BUF`, emit nothing and call no transform; past the bound of R144 they answer CAPACITY and change nothing. -/
def Obligations.CcmBuffersThePayload : Prop :=
  ∀ (s : State) (outOff : Nat), s.cfg.variant = .ccm → s.eng.phase ≠ .uninit → outOff ≤ s.outWin.cap.toNat →
    (∀ inOff inLen, inOff + inLen ≤ s.inWin.cap.toNat →
      (¬ DataExceeds s.cfg s.eng inLen →
        exec (.processBytes inOff inLen outOff) s =
          .next { s with
            eng := { s.eng with
              phase := .data
              ccm := { s.eng.ccm with dataBuf := s.eng.ccm.dataBuf ++ s.inRead inOff inLen } }
            responses := s.responses ++ [⟨.ok, 0#64, []⟩] }) ∧
      (DataExceeds s.cfg s.eng inLen →
        exec (.processBytes inOff inLen outOff) s = .next { s with responses := s.responses ++ [⟨.capacity, 0#64, []⟩] })) ∧
    ∀ byte,
      (¬ DataExceeds s.cfg s.eng 1 →
        exec (.processByte byte outOff) s =
          .next { s with
            eng := { s.eng with phase := .data, ccm := { s.eng.ccm with dataBuf := s.eng.ccm.dataBuf ++ [byte] } }
            responses := s.responses ++ [⟨.ok, 0#64, []⟩] }) ∧
      (DataExceeds s.cfg s.eng 1 →
        exec (.processByte byte outOff) s = .next { s with responses := s.responses ++ [⟨.capacity, 0#64, []⟩] })

/-- On an OCB instance PROCESS_BYTES within its bounds answers OK and writes exactly the `upd_size` bytes its output check
reserved, at `OUT[OUTOFF]` on: those the window emits when fed the input read from `IN`. Of the
bytes the window has had it keeps those not emitted; its fill is `MAIN_POS + n - upd_size(n)` (R143, R343, R344, R345). -/
def Obligations.OcbEmitsWhatThePredictorSays : Prop :=
  ∀ (inOff inLen outOff : Nat) (s : State), s.cfg.variant = .ocb → s.eng.phase ≠ .uninit → MainWindowOk s.eng → s.mem.wf = true →
    inOff + inLen ≤ s.inWin.cap.toNat → outOff + updSize s.cfg s.eng inLen ≤ s.outWin.cap.toNat →
    s.eng.ocb.mainCount.toNat + updSize s.cfg s.eng inLen / 16 < 2 ^ 64 →
    ∃ (e : Engine) (m : Memory) (out : List Byte),
      exec (.processBytes inOff inLen outOff) s =
        .next { s with
          eng := e, mem := m, responses := s.responses ++ [⟨.ok, BitVec.ofNat 64 (updSize s.cfg s.eng inLen), []⟩] } ∧
      windowFeed s.cfg.transform s.eng.key s.eng.dir s.eng.tagLen s.eng.ocb (s.inRead inOff inLen) = (e.ocb, out) ∧
      out.length = updSize s.cfg s.eng inLen ∧
      e.ocb.mainBuf = (s.eng.ocb.mainBuf ++ s.inRead inOff inLen).drop (updSize s.cfg s.eng inLen) ∧
      (∀ a, m.read a =
        if s.outAddr outOff ≤ a ∧ a < s.outAddr outOff + updSize s.cfg s.eng inLen then out.getD (a - s.outAddr outOff) 0#8
        else s.mem.read a) ∧
      e.phase = .data ∧ SameSessionParams s.eng e ∧ e.mac = s.eng.mac ∧ e.macValid = s.eng.macValid ∧ e.ccm = s.eng.ccm ∧
      e.mainPos = s.eng.mainPos + inLen - updSize s.cfg s.eng inLen ∧
      e.ocb.mainCount.toNat = s.eng.ocb.mainCount.toNat + updSize s.cfg s.eng inLen / 16 ∧
      e.ocb =
        { s.eng.ocb with
          mainBuf := e.ocb.mainBuf, mainCount := e.ocb.mainCount, offset := e.ocb.offset, checksum := e.ocb.checksum }

/-- R146: PROCESS_BYTE is PROCESS_BYTES run with the one-byte input of its command word: where that byte lies in `IN` the two
answer the same, and whatever `IN` is and holds, PROCESS_BYTE does the same. -/
def Obligations.ProcessByteIsProcessBytesOfOneByte : Prop :=
  ∀ (byte : Byte) (inOff outOff : Nat) (s : State), inOff + 1 ≤ s.inWin.cap.toNat → s.mem.read (s.inWin.base + inOff) = byte →
    exec (.processByte byte outOff) s = exec (.processBytes inOff 1 outOff) s ∧
    ∀ (m : Memory) (w : Window), ∃ t t', exec (.processByte byte outOff) s = .next t ∧
      exec (.processByte byte outOff) { s with mem := m, inWin := w } = .next t' ∧ t'.eng = t.eng ∧ t'.responses = t.responses

/-- R294, R295: PROCESS_BYTE completing a block on OCB encryption steps the offset, writes `E(P xor OFFSET) xor OFFSET` to `OUT` and
adds the plaintext to the checksum. -/
def Obligations.OcbEncryptsAFullBlock : Prop :=
  ∀ (p : List Byte) (b : Byte) (outOff : Nat) (s : State),
    s.cfg.variant = .ocb → s.eng.phase ≠ .uninit → s.eng.dir = .enc → s.eng.ocb.mainBuf = p → p.length = 15 →
    outOff + 16 ≤ s.outWin.cap.toNat → s.eng.ocb.mainCount.toNat + 1 < 2 ^ 64 →
    let off := s.eng.ocb.offset ^^^ s.eng.ocb.ltAt (ntz (s.eng.ocb.mainCount.toNat + 1))
    let x := blockOfBytes (p ++ [b])
    exec (.processByte b outOff) s =
      .next { s with
        eng := { s.eng with
          phase := .data
          ocb := { s.eng.ocb with
            mainBuf := [], mainCount := s.eng.ocb.mainCount + 1#64, offset := off, checksum := s.eng.ocb.checksum ^^^ x } }
        mem := s.mem.writeBytes (s.outAddr outOff) (bytesOfBlock (blockE s.cfg.transform s.eng.key (x ^^^ off) ^^^ off))
        responses := s.responses ++ [⟨.ok, 16#64, []⟩] }

/-- R296, R342: PROCESS_BYTE completing `16 + TAG_LEN` bytes on OCB decryption steps the offset, writes `D(C xor OFFSET) xor OFFSET`
of the first 16 to `OUT`, adds the plaintext to the checksum and withholds the last `TAG_LEN`. -/
def Obligations.OcbDecryptsAFullBlock : Prop :=
  ∀ (p : List Byte) (b : Byte) (outOff : Nat) (s : State),
    s.cfg.variant = .ocb → s.eng.phase ≠ .uninit → s.eng.dir = .dec → s.eng.ocb.mainBuf = p →
    p.length = 15 + s.eng.tagLen → outOff + 16 ≤ s.outWin.cap.toNat → s.eng.ocb.mainCount.toNat + 1 < 2 ^ 64 →
    let off := s.eng.ocb.offset ^^^ s.eng.ocb.ltAt (ntz (s.eng.ocb.mainCount.toNat + 1))
    let x := blockD s.cfg.transform s.eng.key (blockOfBytes ((p ++ [b]).take 16) ^^^ off) ^^^ off
    exec (.processByte b outOff) s =
      .next { s with
        eng := { s.eng with
          phase := .data
          ocb := { s.eng.ocb with
            mainBuf := (p ++ [b]).drop 16, mainCount := s.eng.ocb.mainCount + 1#64, offset := off,
            checksum := s.eng.ocb.checksum ^^^ x } }
        mem := s.mem.writeBytes (s.outAddr outOff) (bytesOfBlock x)
        responses := s.responses ++ [⟨.ok, 16#64, []⟩] }

/-- PROCESS_BYTE with the window not completed answers OK, holds the byte and writes nothing (R146, R343), on OCB. -/
def Obligations.OcbHoldsAByteBelowTheCapacity : Prop :=
  ∀ (b : Byte) (outOff : Nat) (s : State), s.cfg.variant = .ocb → s.eng.phase ≠ .uninit →
    (s.eng.dir = .enc → s.eng.mainPos < 15) → (s.eng.dir = .dec → s.eng.mainPos < 15 + s.eng.tagLen) →
    outOff ≤ s.outWin.cap.toNat →
    exec (.processByte b outOff) s =
      .next { s with
        eng := { s.eng with phase := .data, ocb := { s.eng.ocb with mainBuf := s.eng.ocb.mainBuf ++ [b] } }
        responses := s.responses ++ [⟨.ok, 0#64, []⟩] }

/-- R145: how the payload is split into commands does not matter: where one PROCESS_BYTES of `m + n` bytes succeeds, one of the
first `m` and then one of the last `n`, written behind the first one's output, succeed, leave the same registers and the
same storage, and their results add up. The windows share no storage, so that the second reads what the first left. -/
def Obligations.PayloadSplitDoesNotMatter : Prop :=
  ∀ (inOff m n outOff : Nat) (s t : State) (r : Response), StateInv s → s.mem.wf = true → WindowsApart s →
    exec (.processBytes inOff (m + n) outOff) s = .next t → t.responses = s.responses ++ [r] → r.status = .ok →
    ∃ t1 t2, exec (.processBytes inOff m outOff) s = .next t1 ∧
      exec (.processBytes (inOff + m) n (outOff + updSize s.cfg s.eng m)) t1 = .next t2 ∧
      t2.eng = t.eng ∧ t2.mem = t.mem ∧
      ∃ r1 r2, t2.responses = s.responses ++ [r1, r2] ∧ r1.status = .ok ∧ r2.status = .ok ∧ r1.result + r2.result = r.result

/-! ### DO_FINAL -/

/-- DO_FINAL in a session, not truncated, `OUT` large enough and, on decryption, the tag verified, answers OK with `out_size(0)`,
writes the frame, of exactly that length, at `OUT[OUTOFF]` on, starts a new session and leaves the tag in `MAC` (R160, R350).
The frame and the tag are those of R298, R292, R300 and R301 on OCB and of R241 to R250 on CCM, and the tag is verified exactly
when it is the received one. -/
def Obligations.DoFinalWritesTheFrame : Prop :=
  (∀ (outOff : Nat) (s : State), EngineInv s.cfg s.eng → s.mem.wf = true → s.eng.phase ≠ .uninit →
    (s.eng.dir = .dec → s.eng.tagLen ≤ held s.cfg s.eng ∧ (finalFrame s.cfg s.eng).2.2 = true) →
    outOff + outSize s.cfg s.eng 0 ≤ s.outWin.cap.toNat →
    ∃ (frame tag : List Byte) (m : Memory),
      exec (.doFinal outOff) s =
        .next { s with
          eng := { sessionStart s.cfg s.eng with mac := tag, macValid := true }
          mem := m
          responses := s.responses ++ [⟨.ok, BitVec.ofNat 64 (outSize s.cfg s.eng 0), []⟩] } ∧
      frame = (finalFrame s.cfg s.eng).1 ∧ tag = (finalFrame s.cfg s.eng).2.1 ∧
      frame.length = outSize s.cfg s.eng 0 ∧ tag.length = s.eng.tagLen ∧
      (s.eng.dir = .enc → frame.drop (held s.cfg s.eng) = tag) ∧
      ∀ a, m.read a =
        if s.outAddr outOff ≤ a ∧ a < s.outAddr outOff + outSize s.cfg s.eng 0 then frame.getD (a - s.outAddr outOff) 0#8
        else s.mem.read a) ∧
  ∀ (c : Config) (e : Engine), EngineInv c e → e.phase ≠ .uninit → (e.dir = .dec → e.tagLen ≤ held c e) →
    (c.variant = .ocb → OcbFinalIs c.transform e.key e.dir e.tagLen e.ocb (finalFrame c e).1 (finalFrame c e).2.1) ∧
    (c.variant = .ccm → CcmFinalIs c.transform e.key e.nonce e.dir e.tagLen e.ccm (finalFrame c e).1 (finalFrame c e).2.1) ∧
    ((finalFrame c e).2.2 = true ↔ (e.dir = .dec → (finalFrame c e).2.1 = receivedTag c e))

/-- R161: on decryption with fewer than `TAG_LEN` bytes received DO_FINAL returns INVALID_CIPHERTEXT, whatever `OUT` holds, writes
nothing and runs the session start. -/
def Obligations.DoFinalRefusesATruncatedInput : Prop :=
  ∀ (outOff : Nat) (s : State), s.eng.phase ≠ .uninit → s.eng.dir = .dec → held s.cfg s.eng < s.eng.tagLen →
    exec (.doFinal outOff) s =
      .next { s with eng := sessionStart s.cfg s.eng, responses := s.responses ++ [⟨.invalidCiphertext, 0#64, []⟩] }

/-- R162: with `OUT` too small DO_FINAL returns OUTPUT_LENGTH, changes no register, and a retry with any window then behaves as if
the failed attempt had not happened. -/
def Obligations.DoFinalMayBeRetried : Prop :=
  ∀ (outOff : Nat) (s : State), s.eng.phase ≠ .uninit → (s.eng.dir = .dec → s.eng.tagLen ≤ held s.cfg s.eng) →
    s.outWin.cap.toNat < outOff + outSize s.cfg s.eng 0 →
    ∃ t, exec (.doFinal outOff) s = .next t ∧ t.responses = s.responses ++ [⟨.outputLength, 0#64, []⟩] ∧
      t.eng = s.eng ∧ t.mem = s.mem ∧
      ∀ w : Window, ∃ u v, exec (.doFinal outOff) { t with outWin := w } = .next u ∧
        exec (.doFinal outOff) { s with outWin := w } = .next v ∧
        u.eng = v.eng ∧ u.mem = v.mem ∧ ∃ r, v.responses = s.responses ++ [r] ∧ u.responses = t.responses ++ [r]

/-- R163: on decryption with a received tag that differs from the recomputed one DO_FINAL writes no byte, runs the session start,
keeps `MAC` and `MAC_VALID` and returns INVALID_CIPHERTEXT. -/
def Obligations.DoFinalRefusesAForgedTag : Prop :=
  ∀ (outOff : Nat) (s : State) (received : List Byte), EngineInv s.cfg s.eng → s.eng.phase ≠ .uninit → s.eng.dir = .dec →
    s.eng.tagLen ≤ held s.cfg s.eng → outOff + outSize s.cfg s.eng 0 ≤ s.outWin.cap.toNat →
    (s.cfg.variant = .ccm → received = s.eng.ccm.dataBuf.drop (s.eng.ccm.dataBuf.length - s.eng.tagLen)) →
    (s.cfg.variant = .ocb → received = s.eng.ocb.mainBuf.drop (s.eng.ocb.mainBuf.length - s.eng.tagLen)) →
    (finalFrame s.cfg s.eng).2.1 ≠ received →
    exec (.doFinal outOff) s =
        .next { s with eng := sessionStart s.cfg s.eng, responses := s.responses ++ [⟨.invalidCiphertext, 0#64, []⟩] } ∧
      (sessionStart s.cfg s.eng).mac = s.eng.mac ∧ (sessionStart s.cfg s.eng).macValid = s.eng.macValid

/-- R352: the comparator's result is true exactly when the two strings of equal length are equal. -/
def Obligations.TagComparatorDecidesEquality : Prop :=
  ∀ a b : List Byte, a.length = b.length → (tagEqual a b = true ↔ a = b)

/-- What a CCM instance sealed it opens: decrypting the frame an encryption wrote gives the payload back, the same tag, and a match
(R250; 95_test_vectors.md V3 items 1). -/
def Obligations.CcmOpensWhatItSealed : Prop :=
  ∀ (t : Transform) (k nonce : List Byte) (m : Nat) (aad p : List Byte), m ≤ 16 → nonce.length ≤ 13 →
    ∀ frame tag, ccmFinal t k nonce .enc m ⟨aad, p⟩ = (frame, tag, true) →
      frame.length = p.length + m ∧ ccmFinal t k nonce .dec m ⟨aad, frame⟩ = (p, tag, true)

/-- What an OCB instance sealed it opens: from the same registers at the start of a message, decrypting all that an encryption
emitted gives the payload back, the same tag, and a match, whatever the transform (R295, R296, R301; 95_test_vectors.md V3
item 1). It rests on `D` inverting `E`, which R9 says for the keys the transform accepts; that it holds under the other keys too
is the model's choice (logs 2 and 3). -/
def Obligations.OcbOpensWhatItSealed : Prop :=
  ∀ (t : Transform) (k : List Byte) (m : Nat) (r : OcbRegs) (p : List Byte), m ≤ 16 → OcbFresh r →
    let sealed := windowFeed t k .enc m r p
    let last := ocbFinal t k .enc m sealed.1
    let opened := windowFeed t k .dec m r (sealed.2 ++ last.1)
    let final := ocbFinal t k .dec m opened.1
    opened.2 ++ final.1 = p ∧ final.2.1 = last.2.1 ∧ final.2.2 = true

/-! ### GET_MAC, RESET, GET_ALGORITHM_NAME and the size queries -/

/-- R170: GET_MAC answers OK in every phase with the tag, empty before there is one, and changes nothing. -/
def Obligations.GetMacReturnsTheTag : Prop :=
  ∀ s : State, ∃ tag : List Byte,
    exec .getMac s = .next { s with responses := s.responses ++ [⟨.ok, BitVec.ofNat 64 tag.length, tag⟩] } ∧
    (s.eng.macValid = true → tag = s.eng.mac) ∧ (s.eng.macValid = false → tag = [])

/-- R172: RESET answers OK in every phase; before the first INIT it changes nothing, and after it it starts a session, clears the
tag register and keeps the session parameters. -/
def Obligations.ResetStartsASessionAgain : Prop :=
  ∀ s : State,
    (s.eng.phase = .uninit → exec .reset s = .next { s with responses := s.responses ++ [⟨.ok, 0#64, []⟩] }) ∧
    (s.eng.phase ≠ .uninit → ∃ e : Engine,
      exec .reset s = .next { s with eng := e, responses := s.responses ++ [⟨.ok, 0#64, []⟩] } ∧
      e = { sessionStart s.cfg s.eng with mac := [], macValid := false } ∧ SameSessionParams s.eng e ∧ e.phase = startPhase s.eng)

/-- RESET forgets the session (R432): two instances with the same parameters and session parameters, whatever they have processed,
have the same registers after it, and a second RESET changes none. -/
def Obligations.ResetForgetsTheSession : Prop :=
  ∀ s s' t t' u : State, s.cfg = s'.cfg → SameSessionParams s.eng s'.eng → OtherVariantUnused s → OtherVariantUnused s' →
    s.eng.phase ≠ .uninit → s'.eng.phase ≠ .uninit →
    exec .reset s = .next t → exec .reset s' = .next t' → exec .reset t = .next u → t'.eng = t.eng ∧ u.eng = t.eng

/-- R175: GET_ALGORITHM_NAME answers OK in every phase with `ALG_NAME` and changes nothing. -/
def Obligations.GetAlgorithmNameReturnsTheName : Prop :=
  ∀ s : State,
    exec .getAlgorithmName s =
      .next { s with responses := s.responses ++ [⟨.ok, BitVec.ofNat 64 s.cfg.algName.length, s.cfg.algName⟩] }

/-- R201, R202: in a session the two size queries answer OK with `upd_size(LEN)` and `out_size(LEN)`, written out as R200 and R203
give them, and change nothing; before the first INIT they return ILLEGAL_STATE. Under the invariant, for a `LEN` of 32 bits,
neither prediction overflows the 64-bit `RESULT`. -/
def Obligations.SizeQueriesAnswerThePredictions : Prop :=
  ∀ (len : Nat) (s : State),
    (s.eng.phase ≠ .uninit →
      exec (.getUpdateOutputSize len) s =
        .next { s with responses := s.responses ++ [⟨.ok, BitVec.ofNat 64 (updSize s.cfg s.eng len), []⟩] } ∧
      exec (.getOutputSize len) s =
        .next { s with responses := s.responses ++ [⟨.ok, BitVec.ofNat 64 (outSize s.cfg s.eng len), []⟩] }) ∧
    (s.eng.phase = .uninit →
      exec (.getUpdateOutputSize len) s = .next { s with responses := s.responses ++ [⟨.illegalState, 0#64, []⟩] } ∧
      exec (.getOutputSize len) s = .next { s with responses := s.responses ++ [⟨.illegalState, 0#64, []⟩] }) ∧
    updSize s.cfg s.eng len =
      (match s.cfg.variant, s.eng.dir with
        | .ccm, _ => 0
        | .ocb, .enc => 16 * ((s.eng.ocb.mainBuf.length + len) / 16)
        | .ocb, .dec => 16 * ((s.eng.ocb.mainBuf.length + len - s.eng.tagLen) / 16)) ∧
    outSize s.cfg s.eng len =
      (match s.cfg.variant, s.eng.dir with
        | .ccm, .enc => s.eng.ccm.dataBuf.length + len + s.eng.tagLen
        | .ccm, .dec => s.eng.ccm.dataBuf.length + len - s.eng.tagLen
        | .ocb, .enc => s.eng.ocb.mainBuf.length + len + s.eng.tagLen
        | .ocb, .dec => s.eng.ocb.mainBuf.length + len - s.eng.tagLen) ∧
    (StateInv s → s.eng.phase ≠ .uninit → len < 2 ^ 32 →
      (BitVec.ofNat 64 (updSize s.cfg s.eng len)).toNat = updSize s.cfg s.eng len ∧
      (BitVec.ofNat 64 (outSize s.cfg s.eng len)).toNat = outSize s.cfg s.eng len)

/-- After a PROCESS_BYTES of `m` bytes that succeeds, what it emitted and the prediction of `n` more bytes add up to the
prediction of `m + n` bytes, for `upd_size` and for `out_size` (the first equation of R205, and R206). The second equation of R205
itself holds where nothing was emitted, so always on CCM; log 14 says why it holds nowhere else. -/
def Obligations.SizePredictionsAreAdditive : Prop :=
  ∀ (inOff m outOff n : Nat) (s t : State) (r : Response), StateInv s →
    exec (.processBytes inOff m outOff) s = .next t → t.responses = s.responses ++ [r] → r.status = .ok →
    updSize s.cfg s.eng m + updSize t.cfg t.eng n = updSize s.cfg s.eng (m + n) ∧
    updSize s.cfg s.eng m + outSize t.cfg t.eng n = outSize s.cfg s.eng (m + n) ∧
    (s.cfg.variant = .ccm ∨ updSize s.cfg s.eng m = 0 → outSize t.cfg t.eng n = outSize s.cfg s.eng (m + n))

/-- R207: on decryption nothing is emitted and nothing predicted while at most `TAG_LEN` bytes have been given. -/
def Obligations.NoPlaintextBeforeTheTagLength : Prop :=
  ∀ (n : Nat) (c : Config) (e : Engine), e.dir = .dec → held c e + n ≤ e.tagLen → updSize c e n = 0 ∧ outSize c e n = 0

/-! ### The datapath -/

/-- `D` inverts `E` for every transform under every key it accepts (R9, R10), and `TOYXOR` is the transform 95_test_vectors.md
describes. That `E` and `D` are inverse also under keys that are not accepted, and that `TOYXOR` xors with the value of a key
of any length, is the model's choice (logs 2 and 3). -/
def Obligations.TransformInverts : Prop :=
  (∀ (t : Transform) (k : List Byte) (x : Block), blockD t k (blockE t k x) = x ∧ blockE t k (blockD t k x) = x) ∧
  ∀ (k : List Byte) (x : Block), blockE .toyXor k x = x ^^^ blockOfBytes k ∧ (keyOk .toyXor k = true ↔ k.length = 16)

/-- R281: the value of `dbl`; it is linear and loses nothing, as a multiplication by `x` in the field must be. -/
def Obligations.DoublingHasItsValue : Prop :=
  ∀ x y : Block,
    (dbl x).toNat = ((2 * x.toNat) % 2 ^ 128) ^^^ (if 2 ^ 127 ≤ x.toNat then 0x87 else 0) ∧
    dbl (x ^^^ y) = dbl x ^^^ dbl y ∧ (dbl x = dbl y → x = y)

/-- R284: `ntz(i)` is the number of trailing zero bits of a 64-bit counter, at most 63. -/
def Obligations.NtzCountsTrailingZeros : Prop :=
  ∀ i : Nat, 0 < i → i < 2 ^ 64 → 2 ^ ntz i ∣ i ∧ ¬ 2 ^ (ntz i + 1) ∣ i ∧ ntz i ≤ 63

/-- R241, R246: the header block and the counter blocks are sixteen bytes laid out as the tables say, for every CCM nonce length. -/
def Obligations.CcmBlocksAreLaidOutAsTheTablesSay : Prop :=
  ∀ (nonce : List Byte) (m a q i : Nat), 7 ≤ nonce.length → nonce.length ≤ 13 → 4 ≤ m → m ≤ 16 →
    bytesOfBlock (ccmHeader nonce m a q) =
      BitVec.ofNat 8 ((if 0 < a then 0x40 else 0) + 8 * ((m - 2) / 2) + (14 - nonce.length)) :: nonce ++ be (15 - nonce.length) q ∧
    bytesOfBlock (ccmCounter nonce i) =
      BitVec.ofNat 8 (14 - nonce.length) :: nonce ++ be (15 - nonce.length) i

/-- The worked values of R252 and of 95_test_vectors.md V17 and V18. -/
def Obligations.WorkedValuesOfTheDatapath : Prop :=
  ccmHeader [0x00#8, 0x00#8, 0x00#8, 0x03#8, 0x02#8, 0x01#8, 0x00#8, 0xA0#8, 0xA1#8, 0xA2#8, 0xA3#8, 0xA4#8, 0xA5#8] 8 8 23 =
    0x5900000003020100A0A1A2A3A4A50017#128 ∧
  ccmAadLength 1 = [0x00#8, 0x01#8] ∧ ccmAadLength 65279 = [0xFE#8, 0xFF#8] ∧
  ccmAadLength 65280 = [0xFF#8, 0xFE#8, 0x00#8, 0x00#8, 0xFF#8, 0x00#8] ∧
  blockOfBytes (formattedNonce (List.replicate 15 0xFF#8) 8) = 0x81FFFFFFFFFFFFFFFFFFFFFFFFFFFFFF#128 ∧
  blockOfBytes (formattedNonce [0x2A#8] 12) = 0xC000000000000000000000000000012A#128 ∧
  dbl (BitVec.allOnes 128) = 0xFFFFFFFFFFFFFFFFFFFFFFFFFFFFFF79#128 ∧
  blockOfBytes (pad10 [0x30#8, 0x31#8, 0x32#8, 0x33#8, 0x34#8]) = 0x30313233348000000000000000000000#128
end

