-- ==== Sys2Proof/Laws/Bytes.lean ====
section
/-! SUPPORT. Byte strings, blocks and numbers: the conversions are inverse to each other, and the comparator decides
equality. -/

namespace Sys2Proof.Machine

@[simp] theorem length_be (n v : Nat) : (be n v).length = n := by
  induction n with
  | zero => rfl
  | succ n ih => simp [be, ih]

@[simp] theorem length_bytesOfBlock (x : Block) : (bytesOfBlock x).length = 16 := length_be 16 _

@[simp] theorem length_zeroBytes (n : Nat) : (zeroBytes n).length = n := by simp [zeroBytes]

@[simp] theorem length_xorBytes (a b : List Byte) : (xorBytes a b).length = min a.length b.length := by
  simp [xorBytes]

theorem foldl_intBe (s : List Byte) (v : Nat) :
    s.foldl (fun v b => 256 * v + b.toNat) v = v * 256 ^ s.length + s.foldl (fun v b => 256 * v + b.toNat) 0 := by
  induction s generalizing v with
  | nil => simp
  | cons b s ih =>
    simp only [List.foldl_cons]
    rw [ih (256 * v + b.toNat), ih (256 * 0 + b.toNat)]
    simp only [List.length_cons, pow_succ]
    ring

theorem intBe_cons (b : Byte) (s : List Byte) : intBe (b :: s) = b.toNat * 256 ^ s.length + intBe s := by
  rw [intBe, List.foldl_cons, foldl_intBe]; simp [intBe]

theorem intBe_lt (s : List Byte) : intBe s < 256 ^ s.length := by
  induction s with
  | nil => simp [intBe]
  | cons b s ih =>
    rw [intBe_cons, List.length_cons, pow_succ]
    have hb := b.isLt
    have : b.toNat * 256 ^ s.length + 256 ^ s.length ≤ 256 ^ s.length * 256 := by
      calc b.toNat * 256 ^ s.length + 256 ^ s.length = (b.toNat + 1) * 256 ^ s.length := by ring
        _ ≤ 256 * 256 ^ s.length := Nat.mul_le_mul_right _ (by omega)
        _ = 256 ^ s.length * 256 := by ring
    omega

/-- The number of the `n`-byte encoding of `v`. -/
theorem intBe_be (n v : Nat) : intBe (be n v) = v % 256 ^ n := by
  induction n with
  | zero => simp [be, intBe, Nat.mod_one]
  | succ n ih =>
    rw [be, intBe_cons, ih, length_be, BitVec.toNat_ofNat, show (2 : Nat) ^ 8 = 256 from rfl, pow_succ, Nat.mod_mul]
    ring

/-- The encoding of a number only depends on the number modulo `256^n`. -/
theorem be_mod (n v : Nat) : ∀ m, n ≤ m → be n (v % 256 ^ m) = be n v := by
  intro m hm
  induction n with
  | zero => rfl
  | succ n ih =>
    rw [be, be, ih (by omega)]
    congr 1
    apply BitVec.eq_of_toNat_eq
    rw [BitVec.toNat_ofNat, BitVec.toNat_ofNat]
    obtain ⟨d, rfl⟩ : ∃ d, m = n + 1 + d := ⟨m - (n + 1), by omega⟩
    rw [show 256 ^ (n + 1 + d) = 256 ^ n * (2 ^ 8 * 256 ^ d) by ring, Nat.mod_mul_right_div_self, Nat.mod_mul_right_mod]

/-- The `n`-byte encoding of the number of a string of `n` bytes is the string. -/
theorem be_intBe (s : List Byte) : be s.length (intBe s) = s := by
  induction s with
  | nil => rfl
  | cons b s ih =>
    have hlt := intBe_lt s
    have hpos : 0 < 256 ^ s.length := Nat.pos_of_ne_zero (by positivity)
    rw [List.length_cons, be, intBe_cons]
    congr 1
    · apply BitVec.eq_of_toNat_eq
      rw [BitVec.toNat_ofNat, Nat.mul_comm, Nat.mul_add_div hpos, Nat.div_eq_of_lt hlt]
      have := b.isLt
      omega
    · rw [← be_mod s.length _ s.length le_rfl, Nat.mul_comm, Nat.mul_add_mod, Nat.mod_eq_of_lt hlt, ih]

@[simp] theorem blockOfBytes_bytesOfBlock (x : Block) : blockOfBytes (bytesOfBlock x) = x := by
  unfold blockOfBytes bytesOfBlock
  apply BitVec.eq_of_toNat_eq
  rw [intBe_be, BitVec.toNat_ofNat]
  have := x.isLt
  have h : (256 : Nat) ^ 16 = 2 ^ 128 := by norm_num
  rw [h]; omega

theorem bytesOfBlock_blockOfBytes {s : List Byte} (h : s.length = 16) : bytesOfBlock (blockOfBytes s) = s := by
  unfold blockOfBytes bytesOfBlock
  have hlt := intBe_lt s
  have h2 : (256 : Nat) ^ 16 = 2 ^ 128 := by norm_num
  rw [h, h2] at hlt
  rw [BitVec.toNat_ofNat, Nat.mod_eq_of_lt hlt, ← h, be_intBe]

/-- `xor` with the same string twice gives the string back. -/
theorem xorBytes_xorBytes {a k : List Byte} (h : a.length ≤ k.length) : xorBytes (xorBytes a k) k = a := by
  induction a generalizing k with
  | nil => simp [xorBytes]
  | cons x a ih =>
    cases k with
    | nil => simp at h
    | cons y k =>
      simp only [List.length_cons, Nat.add_le_add_iff_right] at h
      have := ih h
      simp only [xorBytes] at this ⊢
      simp [List.zipWith_cons_cons, this]

theorem foldl_or_eq_zero (l : List Byte) (v : Byte) :
    l.foldl (· ||| ·) v = 0#8 ↔ v = 0#8 ∧ ∀ x ∈ l, x = 0#8 := by
  induction l generalizing v with
  | nil => simp
  | cons x l ih =>
    rw [List.foldl_cons, ih]
    have : v ||| x = 0#8 ↔ v = 0#8 ∧ x = 0#8 := by
      constructor
      · intro h
        constructor
        · ext i hi
          have := congrArg (fun z : Byte => z[i]'hi) h
          simp only [BitVec.getElem_or, BitVec.getElem_zero, Bool.or_eq_false_iff] at this
          simp [this.1]
        · ext i hi
          have := congrArg (fun z : Byte => z[i]'hi) h
          simp only [BitVec.getElem_or, BitVec.getElem_zero, Bool.or_eq_false_iff] at this
          simp [this.2]
      · rintro ⟨rfl, rfl⟩; rfl
    simp [this, and_assoc]

/-- The comparator's accumulator is zero exactly when every pair of bytes is equal. -/
theorem tagEqual_iff_pairs (a b : List Byte) :
    tagEqual a b = true ↔ ∀ x ∈ xorBytes a b, x = 0#8 := by
  simp [tagEqual, foldl_or_eq_zero]

theorem tagEqual_self (a : List Byte) : tagEqual a a = true := by
  rw [tagEqual_iff_pairs]
  induction a with
  | nil => simp [xorBytes]
  | cons x a ih => simp [xorBytes]

end Sys2Proof.Machine
end

