-- ==== Sys2Proof/Laws/Memory.lean ====
section
/-! SUPPORT. The host's storage: every operation keeps the canonical form, and a read after a write gives the byte
written there and the old byte elsewhere. -/

namespace Sys2Proof.Machine

theorem Memory.wfFrom_mono {lo lo' : Nat} {m : Memory} (h : lo' ≤ lo) (hm : Memory.wfFrom lo m = true) :
    Memory.wfFrom lo' m = true := by
  cases m with
  | nil => rfl
  | cons c m =>
    simp only [Memory.wfFrom, Bool.and_eq_true, decide_eq_true_eq] at hm ⊢
    exact ⟨⟨by omega, hm.1.2⟩, hm.2⟩

theorem Memory.wfFrom_write {lo : Nat} {m : Memory} (hm : Memory.wfFrom lo m = true) {a : Nat} (ha : lo ≤ a) (b : Byte) :
    Memory.wfFrom lo (m.write a b) = true := by
  induction m generalizing lo with
  | nil => by_cases hb : b = unlisted <;> simp [Memory.write, Memory.wfFrom, hb, ha]
  | cons c m ih =>
    obtain ⟨c, v⟩ := c
    simp only [Memory.wfFrom, Bool.and_eq_true, decide_eq_true_eq, bne_iff_ne, ne_eq] at hm
    obtain ⟨⟨hlo, hv⟩, hrest⟩ := hm
    unfold Memory.write
    split_ifs with h1 hb h2 hb
    · simp [Memory.wfFrom, hlo, hv, hrest]
    · simp only [Memory.wfFrom, Bool.and_eq_true, decide_eq_true_eq, bne_iff_ne, ne_eq]
      exact ⟨⟨ha, hb⟩, ⟨by omega, hv⟩, hrest⟩
    · exact Memory.wfFrom_mono (by omega) hrest
    · subst h2
      simp only [Memory.wfFrom, Bool.and_eq_true, decide_eq_true_eq, bne_iff_ne, ne_eq]
      exact ⟨⟨ha, hb⟩, hrest⟩
    · simp only [Memory.wfFrom, Bool.and_eq_true, decide_eq_true_eq, bne_iff_ne, ne_eq]
      exact ⟨⟨hlo, hv⟩, ih hrest (by omega)⟩

/-- A write keeps the canonical form. -/
theorem Memory.wf_write {m : Memory} (hm : m.wf = true) (a : Nat) (b : Byte) : (m.write a b).wf = true :=
  Memory.wfFrom_write hm (Nat.zero_le a) b

/-- A run of writes keeps the canonical form. -/
theorem Memory.wf_writeBytes {m : Memory} (hm : m.wf = true) (a : Nat) (bs : List Byte) : (m.writeBytes a bs).wf = true := by
  induction bs generalizing m a with
  | nil => exact hm
  | cons b bs ih => exact ih (Memory.wf_write hm a b) (a + 1)

theorem Memory.read_nil (a : Nat) : Memory.read [] a = unlisted := rfl

theorem Memory.read_cons (c : Nat) (v : Byte) (m : Memory) (a : Nat) :
    Memory.read ((c, v) :: m) a = if c = a then v else Memory.read m a := by
  by_cases h : c = a <;> simp [Memory.read, h]

theorem Memory.read_below {lo : Nat} {m : Memory} (hm : Memory.wfFrom lo m = true) {a : Nat} (ha : a < lo) :
    m.read a = unlisted := by
  induction m generalizing lo with
  | nil => rfl
  | cons c m ih =>
    obtain ⟨c, v⟩ := c
    simp only [Memory.wfFrom, Bool.and_eq_true, decide_eq_true_eq] at hm
    rw [Memory.read_cons, if_neg (by omega)]
    exact ih hm.2 (by omega)

theorem Memory.read_write_from {lo : Nat} {m : Memory} (hm : Memory.wfFrom lo m = true) (a : Nat) (b : Byte) (x : Nat) :
    (m.write a b).read x = if x = a then b else m.read x := by
  induction m generalizing lo with
  | nil =>
    by_cases hb : b = unlisted
    · simp [Memory.write, hb, Memory.read_nil]
    · simp only [Memory.write, hb, if_false, Memory.read_cons, Memory.read_nil]
      simp only [eq_comm]
  | cons c m ih =>
    obtain ⟨c, v⟩ := c
    simp only [Memory.wfFrom, Bool.and_eq_true, decide_eq_true_eq] at hm
    unfold Memory.write
    by_cases h1 : a < c
    · by_cases hb : b = unlisted
      · by_cases hx : x = a
        · subst hx
          simp only [h1, hb, if_true, Memory.read_cons]
          rw [if_neg (by omega)]
          exact Memory.read_below hm.2 (by omega)
        · simp [h1, hb, hx]
      · simp only [h1, hb, if_true, if_false, Memory.read_cons a]
        simp only [eq_comm]
    · by_cases h2 : a = c
      · subst h2
        by_cases hb : b = unlisted
        · by_cases hx : x = a
          · subst hx
            simp only [h1, hb, if_true, if_false]
            exact Memory.read_below hm.2 (by omega)
          · simp only [h1, hb, if_true, if_false, hx, Memory.read_cons]
            rw [if_neg (fun h => hx h.symm)]
        · by_cases hx : x = a
          · subst hx; simp [hb, Memory.read_cons]
          · simp only [h1, hb, if_true, if_false, hx, Memory.read_cons]
            rw [if_neg (fun h => hx h.symm), if_neg (fun h => hx h.symm)]
      · simp only [h1, h2, if_false, Memory.read_cons, ih hm.2]
        by_cases hx : c = x
        · subst hx; simp [Ne.symm h2]
        · simp [hx]

/-- A read after a write: the byte written at its address, the old byte at every other. -/
theorem Memory.read_write {m : Memory} (hm : m.wf = true) (a : Nat) (b : Byte) (x : Nat) :
    (m.write a b).read x = if x = a then b else m.read x := Memory.read_write_from hm a b x

/-- A read after a run of writes: the byte of the run inside it, the old byte outside. -/
theorem Memory.read_writeBytes {m : Memory} (hm : m.wf = true) (a : Nat) (bs : List Byte) (x : Nat) :
    (m.writeBytes a bs).read x = if a ≤ x ∧ x < a + bs.length then bs.getD (x - a) unlisted else m.read x := by
  induction bs generalizing m a with
  | nil => simp [Memory.writeBytes]
  | cons b bs ih =>
    rw [Memory.writeBytes, ih (Memory.wf_write hm a b) (a + 1), Memory.read_write hm]
    by_cases hx : x = a
    · subst hx; simp
    · by_cases hin : a + 1 ≤ x ∧ x < a + 1 + bs.length
      · rw [if_pos hin, if_pos (by simp; omega)]
        obtain ⟨k, rfl⟩ : ∃ k, x = a + 1 + k := ⟨x - (a + 1), by omega⟩
        have h1 : a + 1 + k - (a + 1) = k := by omega
        have h2 : a + 1 + k - a = k + 1 := by omega
        simp [h1, h2]
      · rw [if_neg hin, if_neg hx, if_neg (by simp; omega)]

/-- Outside the run, a run of writes changes no byte. -/
theorem Memory.read_writeBytes_outside {m : Memory} (hm : m.wf = true) {a : Nat} {bs : List Byte} {x : Nat}
    (hx : x < a ∨ a + bs.length ≤ x) : (m.writeBytes a bs).read x = m.read x := by
  rw [Memory.read_writeBytes hm, if_neg (by omega)]

@[simp] theorem Memory.length_readBytes (m : Memory) (a n : Nat) : (m.readBytes a n).length = n := by
  simp [Memory.readBytes]

@[simp] theorem State.length_inRead (s : State) (off n : Nat) : (s.inRead off n).length = n := by
  simp [State.inRead]

/-- Reading a run in two parts. -/
theorem Memory.readBytes_add (m : Memory) (a n k : Nat) :
    m.readBytes a (n + k) = m.readBytes a n ++ m.readBytes (a + n) k := by
  simp [Memory.readBytes, List.range_add, Nat.add_assoc]

end Sys2Proof.Machine
end

