-- ==== Sys2Proof/Laws/Ocb.lean ====
section
/-! SUPPORT. The OCB datapath: what each block step and each byte of a window changes, and what it leaves. -/

namespace Sys2Proof.Machine

/-- `D` inverts `E` (00_scope.md R9). -/
theorem blockD_blockE_cancel (t : Transform) (k : List Byte) (x : Block) : blockD t k (blockE t k x) = x := by
  cases t with
  | toyXor => simp [blockD, blockE]
  | external n => simp [blockD, blockE]

section HashBlock
variable (t : Transform) (k : List Byte) (r : OcbRegs) (a : Block)
@[simp] theorem ocbHashBlock_hashCount : (ocbHashBlock t k r a).hashCount = r.hashCount + 1#64 := rfl
@[simp] theorem ocbHashBlock_lt : (ocbHashBlock t k r a).lt = r.lt := rfl
@[simp] theorem ocbHashBlock_lStar : (ocbHashBlock t k r a).lStar = r.lStar := rfl
@[simp] theorem ocbHashBlock_lDollar : (ocbHashBlock t k r a).lDollar = r.lDollar := rfl
@[simp] theorem ocbHashBlock_offset : (ocbHashBlock t k r a).offset = r.offset := rfl
@[simp] theorem ocbHashBlock_checksum : (ocbHashBlock t k r a).checksum = r.checksum := rfl
@[simp] theorem ocbHashBlock_mainBuf : (ocbHashBlock t k r a).mainBuf = r.mainBuf := rfl
@[simp] theorem ocbHashBlock_mainCount : (ocbHashBlock t k r a).mainCount = r.mainCount := rfl
@[simp] theorem ocbHashBlock_hashBuf : (ocbHashBlock t k r a).hashBuf = r.hashBuf := rfl
end HashBlock

/-- What the associated-data stream never touches: the constants and the payload side. -/
structure SamePayloadSide (r r' : OcbRegs) : Prop where
  lStar : r'.lStar = r.lStar
  lDollar : r'.lDollar = r.lDollar
  lt : r'.lt = r.lt
  offset : r'.offset = r.offset
  checksum : r'.checksum = r.checksum
  mainBuf : r'.mainBuf = r.mainBuf
  mainCount : r'.mainCount = r.mainCount

/-- What the payload stream never touches: the constants and the associated-data side. -/
structure SameHashSide (r r' : OcbRegs) : Prop where
  lStar : r'.lStar = r.lStar
  lDollar : r'.lDollar = r.lDollar
  lt : r'.lt = r.lt
  hashBuf : r'.hashBuf = r.hashBuf
  hashCount : r'.hashCount = r.hashCount
  hashOffset : r'.hashOffset = r.hashOffset
  hashSum : r'.hashSum = r.hashSum

theorem hashFeedByte_samePayloadSide (t : Transform) (k : List Byte) (r : OcbRegs) (b : Byte) :
    SamePayloadSide r (hashFeedByte t k r b) := by
  unfold hashFeedByte
  dsimp only
  split <;> constructor <;> rfl

theorem SamePayloadSide.trans {r r' r'' : OcbRegs} (h : SamePayloadSide r r') (h' : SamePayloadSide r' r'') :
    SamePayloadSide r r'' := by
  cases h; cases h'; constructor <;> simp_all

theorem hashFeed_samePayloadSide (t : Transform) (k : List Byte) (r : OcbRegs) (a : List Byte) :
    SamePayloadSide r (hashFeed t k r a) := by
  induction a generalizing r with
  | nil => constructor <;> rfl
  | cons b a ih => exact (hashFeedByte_samePayloadSide t k r b).trans (ih _)

/-- Two parts of the associated data fed one after the other (40_engine_commands.md R151). -/
theorem hashFeed_append (t : Transform) (k : List Byte) (r : OcbRegs) (a b : List Byte) :
    hashFeed t k r (a ++ b) = hashFeed t k (hashFeed t k r a) b := by simp [hashFeed]

theorem hashFeedByte_window (t : Transform) (k : List Byte) (r : OcbRegs) (b : Byte) (h : r.hashBuf.length ≤ 15) :
    (hashFeedByte t k r b).hashBuf.length = (r.hashBuf.length + 1) % 16 ∧
    (hashFeedByte t k r b).hashCount = r.hashCount + BitVec.ofNat 64 ((r.hashBuf.length + 1) / 16) := by
  unfold hashFeedByte
  by_cases h16 : (r.hashBuf ++ [b]).length = 16
  · have h15 : r.hashBuf.length = 15 := by simpa using h16
    simp [h15]
  · have hlt : r.hashBuf.length + 1 < 16 := by simp at h16; omega
    simp only [h16, if_false]
    simp [Nat.mod_eq_of_lt hlt, Nat.div_eq_of_lt hlt]

/-- The associated-data window after `a.length` more bytes: its fill and the number of blocks absorbed. -/
theorem hashFeed_window (t : Transform) (k : List Byte) (r : OcbRegs) (a : List Byte) (h : r.hashBuf.length ≤ 15) :
    (hashFeed t k r a).hashBuf.length = (r.hashBuf.length + a.length) % 16 ∧
    (hashFeed t k r a).hashCount = r.hashCount + BitVec.ofNat 64 ((r.hashBuf.length + a.length) / 16) := by
  induction a generalizing r with
  | nil => simp [hashFeed, Nat.mod_eq_of_lt (show r.hashBuf.length < 16 by omega), Nat.div_eq_of_lt (show r.hashBuf.length < 16 by omega)]
  | cons b a ih =>
    obtain ⟨hw, hc⟩ := hashFeedByte_window t k r b h
    have := ih (hashFeedByte t k r b) (by omega)
    have hf : hashFeed t k r (b :: a) = hashFeed t k (hashFeedByte t k r b) a := rfl
    rw [hf, this.1, this.2, hw, hc]
    constructor
    · simp only [List.length_cons]; omega
    · rw [BitVec.add_assoc, ← BitVec.ofNat_add]
      congr 2
      simp only [List.length_cons]; omega

section MainBlock
variable (t : Transform) (k : List Byte) (dir : Dir) (r : OcbRegs) (b : Block)

theorem ocbMainBlock_sameHashSide : SameHashSide r (ocbMainBlock t k dir r b).1 := by
  cases dir <;> constructor <;> rfl

@[simp] theorem ocbMainBlock_mainCount : (ocbMainBlock t k dir r b).1.mainCount = r.mainCount + 1#64 := by
  cases dir <;> rfl

@[simp] theorem ocbMainBlock_offset :
    (ocbMainBlock t k dir r b).1.offset = r.offset ^^^ r.ltAt (ntz (r.mainCount + 1#64).toNat) := by
  cases dir <;> rfl
end MainBlock

theorem SameHashSide.trans {r r' r'' : OcbRegs} (h : SameHashSide r r') (h' : SameHashSide r' r'') :
    SameHashSide r r'' := by
  cases h; cases h'; constructor <;> simp_all

theorem windowFeedByte_sameHashSide (t : Transform) (k : List Byte) (dir : Dir) (tagLen : Nat) (r : OcbRegs) (b : Byte) :
    SameHashSide r (windowFeedByte t k dir tagLen r b).1 := by
  unfold windowFeedByte
  dsimp only
  split
  · have h := ocbMainBlock_sameHashSide t k dir r (blockOfBytes ((r.mainBuf ++ [b]).take 16))
    cases h; constructor <;> simpa
  · constructor <;> rfl

theorem windowFeed_sameHashSide (t : Transform) (k : List Byte) (dir : Dir) (tagLen : Nat) (r : OcbRegs) (p : List Byte) :
    SameHashSide r (windowFeed t k dir tagLen r p).1 := by
  induction p generalizing r with
  | nil => constructor <;> rfl
  | cons b p ih => exact (windowFeedByte_sameHashSide t k dir tagLen r b).trans (ih _)

/-- Two parts of the payload fed one after the other: the outputs are concatenated (44_buffered_unit.md R345). -/
theorem windowFeed_append (t : Transform) (k : List Byte) (dir : Dir) (tagLen : Nat) (r : OcbRegs) (p q : List Byte) :
    windowFeed t k dir tagLen r (p ++ q) =
      ((windowFeed t k dir tagLen (windowFeed t k dir tagLen r p).1 q).1,
        (windowFeed t k dir tagLen r p).2 ++ (windowFeed t k dir tagLen (windowFeed t k dir tagLen r p).1 q).2) := by
  induction p generalizing r with
  | nil => simp [windowFeed]
  | cons b p ih => simp [windowFeed, ih, List.append_assoc]

/-- The blocks a feed of `n` bytes emits from fill `pos`. -/
def blocksEmitted (dir : Dir) (tagLen pos n : Nat) : Nat :=
  match dir with
  | .enc => (pos + n) / 16
  | .dec => (pos + n - tagLen) / 16

theorem windowFeedByte_window (t : Transform) (k : List Byte) (dir : Dir) (tagLen : Nat) (r : OcbRegs) (b : Byte)
    (h : r.mainBuf.length < windowCap dir tagLen) :
    (windowFeedByte t k dir tagLen r b).2.length = 16 * blocksEmitted dir tagLen r.mainBuf.length 1 ∧
    (windowFeedByte t k dir tagLen r b).1.mainBuf.length + 16 * blocksEmitted dir tagLen r.mainBuf.length 1 =
      r.mainBuf.length + 1 ∧
    (windowFeedByte t k dir tagLen r b).1.mainCount =
      r.mainCount + BitVec.ofNat 64 (blocksEmitted dir tagLen r.mainBuf.length 1) ∧
    (windowFeedByte t k dir tagLen r b).1.mainBuf.length < windowCap dir tagLen := by
  unfold windowFeedByte
  by_cases hc : (r.mainBuf ++ [b]).length = windowCap dir tagLen
  · have hb : blocksEmitted dir tagLen r.mainBuf.length 1 = 1 := by
      cases dir <;> simp [blocksEmitted, windowCap] at hc ⊢ <;> omega
    simp only [hc, if_true, hb]
    have : windowCap dir tagLen ≥ 16 := by cases dir <;> simp [windowCap]
    simp at hc
    simp
    omega
  · have hb : blocksEmitted dir tagLen r.mainBuf.length 1 = 0 := by
      cases dir <;> simp [blocksEmitted, windowCap] at hc h ⊢ <;> omega
    simp only [hc, if_false, hb]
    simp at hc
    simp
    omega

/-- Window arithmetic (44_buffered_unit.md R344, R345): the length of the output, the fill after the feed, the blocks
counted, and the fill stays below the capacity. -/
theorem windowFeed_window (t : Transform) (k : List Byte) (dir : Dir) (tagLen : Nat) (r : OcbRegs) (p : List Byte)
    (h : r.mainBuf.length < windowCap dir tagLen) :
    (windowFeed t k dir tagLen r p).2.length = 16 * blocksEmitted dir tagLen r.mainBuf.length p.length ∧
    (windowFeed t k dir tagLen r p).1.mainBuf.length + 16 * blocksEmitted dir tagLen r.mainBuf.length p.length =
      r.mainBuf.length + p.length ∧
    (windowFeed t k dir tagLen r p).1.mainCount =
      r.mainCount + BitVec.ofNat 64 (blocksEmitted dir tagLen r.mainBuf.length p.length) ∧
    (windowFeed t k dir tagLen r p).1.mainBuf.length < windowCap dir tagLen := by
  induction p generalizing r with
  | nil =>
    have : blocksEmitted dir tagLen r.mainBuf.length 0 = 0 := by
      cases dir <;> simp [blocksEmitted, windowCap] at h ⊢ <;> omega
    simp [windowFeed, this, h]
  | cons b p ih =>
    obtain ⟨hl, hf, hcnt, hlt⟩ := windowFeedByte_window t k dir tagLen r b h
    obtain ⟨il, jf, jcnt, jlt⟩ := ih (windowFeedByte t k dir tagLen r b).1 hlt
    have hadd : blocksEmitted dir tagLen r.mainBuf.length (b :: p).length =
        blocksEmitted dir tagLen r.mainBuf.length 1 +
          blocksEmitted dir tagLen (windowFeedByte t k dir tagLen r b).1.mainBuf.length p.length := by
      cases dir <;> simp only [blocksEmitted, windowCap, List.length_cons] at * <;> omega
    have heq : windowFeed t k dir tagLen r (b :: p) =
        ((windowFeed t k dir tagLen (windowFeedByte t k dir tagLen r b).1 p).1,
          (windowFeedByte t k dir tagLen r b).2 ++ (windowFeed t k dir tagLen (windowFeedByte t k dir tagLen r b).1 p).2) := rfl
    rw [heq]
    refine ⟨?_, ?_, ?_, jlt⟩
    · simp only [List.length_append, hl, il, hadd]; ring
    · simp only [List.length_cons] at hadd ⊢; omega
    · simp only [jcnt, hcnt, hadd, BitVec.ofNat_add, BitVec.add_assoc]

/-- `blocksEmitted` counts the blocks of `upd_size` (41_size_calculator.md R200). -/
theorem updSize_eq_blocksEmitted (c : Config) (e : Engine) (n : Nat) (hv : c.variant = .ocb) :
    updSize c e n = 16 * blocksEmitted e.dir e.tagLen e.mainPos n := by
  unfold updSize
  rw [hv]
  cases hd : e.dir <;> simp only [blocksEmitted]
  · omega
  · split <;> omega

theorem windowFeedByte_mainBuf (t : Transform) (k : List Byte) (dir : Dir) (tagLen : Nat) (r : OcbRegs) (b : Byte) :
    (windowFeedByte t k dir tagLen r b).1.mainBuf = (r.mainBuf ++ [b]).drop (windowFeedByte t k dir tagLen r b).2.length ∧
    (windowFeedByte t k dir tagLen r b).2.length ≤ (r.mainBuf ++ [b]).length := by
  unfold windowFeedByte
  dsimp only
  split
  · rename_i h
    have h16 : 16 ≤ (r.mainBuf ++ [b]).length := by rw [h]; cases dir <;> simp [windowCap]
    exact ⟨by simp only [length_bytesOfBlock], by simpa only [length_bytesOfBlock] using h16⟩
  · simp

/-- What the payload window holds after a feed: of all the bytes it has had, those that have not been emitted
(44_buffered_unit.md R344). -/
theorem windowFeed_mainBuf (t : Transform) (k : List Byte) (dir : Dir) (tagLen : Nat) (r : OcbRegs) (p : List Byte) :
    (windowFeed t k dir tagLen r p).1.mainBuf = (r.mainBuf ++ p).drop (windowFeed t k dir tagLen r p).2.length := by
  induction p generalizing r with
  | nil => simp [windowFeed]
  | cons b p ih =>
    obtain ⟨hbuf, hle⟩ := windowFeedByte_mainBuf t k dir tagLen r b
    have hsplit : r.mainBuf ++ b :: p = (r.mainBuf ++ [b]) ++ p := by simp
    simp only [windowFeed]
    rw [ih, hsplit, hbuf, List.length_append, ← List.drop_drop, List.drop_append_of_le_length hle]

end Sys2Proof.Machine
end

