-- ==== Sys2Proof/Laws/State.lean ====
section
/-! SUPPORT. One lemma per field of each update of the state, so that no later proof unfolds one. -/

namespace Sys2Proof.Machine

section WithEngine
variable (s : State) (e : Engine)
@[simp] theorem State.withEngine_eng : (s.withEngine e).eng = e := rfl
@[simp] theorem State.withEngine_cfg : (s.withEngine e).cfg = s.cfg := rfl
@[simp] theorem State.withEngine_port : (s.withEngine e).port = s.port := rfl
@[simp] theorem State.withEngine_responses : (s.withEngine e).responses = s.responses := rfl
@[simp] theorem State.withEngine_mem : (s.withEngine e).mem = s.mem := rfl
@[simp] theorem State.withEngine_inWin : (s.withEngine e).inWin = s.inWin := rfl
@[simp] theorem State.withEngine_outWin : (s.withEngine e).outWin = s.outWin := rfl
@[simp] theorem State.withEngine_moves : (s.withEngine e).moves = s.moves := rfl
@[simp] theorem State.withEngine_freeCount : (s.withEngine e).freeCount = s.freeCount := rfl
@[simp] theorem State.withEngine_outAddr (off : Nat) : (s.withEngine e).outAddr off = s.outAddr off := rfl
@[simp] theorem State.withEngine_self : s.withEngine s.eng = s := rfl
end WithEngine

section OutWrite
variable (s : State) (off : Nat) (bs : List Byte)
@[simp] theorem State.outWrite_eng : (s.outWrite off bs).eng = s.eng := rfl
@[simp] theorem State.outWrite_cfg : (s.outWrite off bs).cfg = s.cfg := rfl
@[simp] theorem State.outWrite_port : (s.outWrite off bs).port = s.port := rfl
@[simp] theorem State.outWrite_responses : (s.outWrite off bs).responses = s.responses := rfl
@[simp] theorem State.outWrite_mem : (s.outWrite off bs).mem = s.mem.writeBytes (s.outAddr off) bs := rfl
@[simp] theorem State.outWrite_inWin : (s.outWrite off bs).inWin = s.inWin := rfl
@[simp] theorem State.outWrite_outWin : (s.outWrite off bs).outWin = s.outWin := rfl
@[simp] theorem State.outWrite_moves : (s.outWrite off bs).moves = s.moves := rfl
@[simp] theorem State.outWrite_freeCount : (s.outWrite off bs).freeCount = s.freeCount := rfl
end OutWrite

section PowerOn
variable (s : State)
@[simp] theorem State.powerOnReset_eng : s.powerOnReset.eng = .reset := rfl
@[simp] theorem State.powerOnReset_cfg : s.powerOnReset.cfg = s.cfg := rfl
@[simp] theorem State.powerOnReset_port : s.powerOnReset.port = [] := rfl
@[simp] theorem State.powerOnReset_responses : s.powerOnReset.responses = s.responses := rfl
@[simp] theorem State.powerOnReset_mem : s.powerOnReset.mem = s.mem := rfl
@[simp] theorem State.powerOnReset_inWin : s.powerOnReset.inWin = s.inWin := rfl
@[simp] theorem State.powerOnReset_outWin : s.powerOnReset.outWin = s.outWin := rfl
@[simp] theorem State.powerOnReset_moves : s.powerOnReset.moves = s.moves := rfl
@[simp] theorem State.powerOnReset_freeCount : s.powerOnReset.freeCount = s.freeCount := rfl
end PowerOn

section Answered
variable (s : State) (r : Response)
@[simp] theorem State.answered_eng : (s.answered r).eng = s.eng := rfl
@[simp] theorem State.answered_cfg : (s.answered r).cfg = s.cfg := rfl
@[simp] theorem State.answered_port : (s.answered r).port = s.port := rfl
@[simp] theorem State.answered_responses : (s.answered r).responses = s.responses ++ [r] := rfl
@[simp] theorem State.answered_mem : (s.answered r).mem = s.mem := rfl
@[simp] theorem State.answered_inWin : (s.answered r).inWin = s.inWin := rfl
@[simp] theorem State.answered_outWin : (s.answered r).outWin = s.outWin := rfl
@[simp] theorem State.answered_moves : (s.answered r).moves = s.moves := rfl
@[simp] theorem State.answered_freeCount : (s.answered r).freeCount = s.freeCount := rfl
end Answered

section WithParams
variable (e : Engine) (dir : Dir) (tagBits : Nat) (k n ad : List Byte)
@[simp] theorem Engine.withParams_phase : (e.withParams dir tagBits k n ad).phase = e.phase := rfl
@[simp] theorem Engine.withParams_dir : (e.withParams dir tagBits k n ad).dir = dir := rfl
@[simp] theorem Engine.withParams_key : (e.withParams dir tagBits k n ad).key = k := rfl
@[simp] theorem Engine.withParams_keyValid : (e.withParams dir tagBits k n ad).keyValid = true := rfl
@[simp] theorem Engine.withParams_nonce : (e.withParams dir tagBits k n ad).nonce = n := rfl
@[simp] theorem Engine.withParams_tagLen : (e.withParams dir tagBits k n ad).tagLen = tagBits / 8 := rfl
@[simp] theorem Engine.withParams_initAd : (e.withParams dir tagBits k n ad).initAd = ad := rfl
@[simp] theorem Engine.withParams_mac : (e.withParams dir tagBits k n ad).mac = [] := rfl
@[simp] theorem Engine.withParams_macValid : (e.withParams dir tagBits k n ad).macValid = false := rfl
@[simp] theorem Engine.withParams_ocb : (e.withParams dir tagBits k n ad).ocb = e.ocb := rfl
@[simp] theorem Engine.withParams_ccm : (e.withParams dir tagBits k n ad).ccm = e.ccm := rfl
end WithParams

end Sys2Proof.Machine
end

