-- ==== Sys2Proof/Laws/Commands.lean ====
section
/-! SUPPORT. What each shared operation and each command can do, said once: if it answers a next state, then which. -/

namespace Sys2Proof.Machine

/-! ### The session start -/

/-- The session start keeps the session parameters and the tag register (40_engine_commands.md R150). -/
structure SameParams (e e' : Engine) : Prop where
  dir : e'.dir = e.dir
  key : e'.key = e.key
  keyValid : e'.keyValid = e.keyValid
  nonce : e'.nonce = e.nonce
  tagLen : e'.tagLen = e.tagLen
  initAd : e'.initAd = e.initAd

theorem absorbAad_sameParams (c : Config) (e : Engine) (a : List Byte) : SameParams e (absorbAad c e a) := by
  unfold absorbAad; cases c.variant <;> constructor <;> rfl

theorem sessionStart_sameParams (c : Config) (e : Engine) : SameParams e (sessionStart c e) := by
  unfold sessionStart clearSession absorbAad
  cases c.variant <;> dsimp only <;> split <;> constructor <;> rfl

@[simp] theorem sessionStart_mac (c : Config) (e : Engine) : (sessionStart c e).mac = e.mac := by
  unfold sessionStart clearSession absorbAad
  cases c.variant <;> dsimp only <;> split <;> rfl

@[simp] theorem sessionStart_macValid (c : Config) (e : Engine) : (sessionStart c e).macValid = e.macValid := by
  unfold sessionStart clearSession absorbAad
  cases c.variant <;> dsimp only <;> split <;> rfl

@[simp] theorem sessionStart_phase (c : Config) (e : Engine) :
    (sessionStart c e).phase = if e.initAd.length = 0 then .ready else .aad := by
  unfold sessionStart; split <;> rfl

/-- The OCB registers after a session start. -/
theorem sessionStart_ocb (c : Config) (e : Engine) (hv : c.variant = .ocb) :
    (sessionStart c e).ocb =
      hashFeed c.transform e.key (ocbSessionStart c.transform e.key e.nonce e.tagLen) e.initAd := by
  unfold sessionStart clearSession absorbAad
  rw [hv]; dsimp only
  split
  · rename_i h
    rw [List.length_eq_zero_iff] at h
    rw [h]; rfl
  · rfl

/-- The CCM buffers after a session start. -/
theorem sessionStart_ccm (c : Config) (e : Engine) (hv : c.variant = .ccm) :
    (sessionStart c e).ccm = { aadBuf := e.initAd, dataBuf := [] } := by
  unfold sessionStart clearSession absorbAad
  rw [hv]; dsimp only
  split
  · rename_i h
    rw [List.length_eq_zero_iff] at h
    rw [h]; rfl
  · rfl

/-- The other variant's registers after a session start. -/
theorem sessionStart_other (c : Config) (e : Engine) :
    (c.variant = .ocb → (sessionStart c e).ccm = e.ccm) ∧ (c.variant = .ccm → (sessionStart c e).ocb = e.ocb) := by
  unfold sessionStart clearSession absorbAad
  constructor <;> intro hv <;> rw [hv] <;> dsimp only <;> split <;> rfl

/-! ### Commands: every command answers a next state, one of those listed -/

/-- INIT: an error of its own with no effect, or the new session (40_engine_commands.md R130, R131). -/
theorem execInit_cases (dir : Dir) (kp ap : Bool) (tagBits koff klen noff nlen aoff alen : Nat) (s : State) :
    (∃ st, (st = .dataLength ∨ st = .invalidParameter ∨ st = .capacity) ∧
      ¬ InitAccepted s kp ap tagBits koff klen noff nlen aoff alen ∧
      execInit dir kp ap tagBits koff klen noff nlen aoff alen s = .next (s.answered (errorResponse st))) ∨
    (InitAccepted s kp ap tagBits koff klen noff nlen aoff alen ∧
      execInit dir kp ap tagBits koff klen noff nlen aoff alen s =
        .next ((s.withEngine (commitInit s.cfg s.eng dir tagBits (initKeyBytes s kp koff klen)
          (s.inRead noff nlen) (initAdBytes s ap aoff alen))).answered (okResponse 0 []))) := by
  unfold execInit State.raise State.respondOk
  split
  · rename_i h
    refine .inl ⟨_, .inl rfl, ?_, rfl⟩
    rintro ⟨hk, -⟩; cases kp <;> simp_all
  split
  · rename_i h
    refine .inl ⟨_, .inl rfl, ?_, rfl⟩
    rintro ⟨-, -, hn, -⟩; simp [hn] at h
  split
  · rename_i h
    refine .inl ⟨_, .inl rfl, ?_, rfl⟩
    rintro ⟨-, -, -, ha, -⟩; cases ap <;> simp_all
  split
  · rename_i h
    refine .inl ⟨_, .inr (.inl rfl), ?_, rfl⟩
    rintro ⟨-, -, -, -, ht, -⟩; simp [ht] at h
  split
  · rename_i h
    refine .inl ⟨_, .inr (.inl rfl), ?_, rfl⟩
    rintro ⟨-, -, -, -, -, hl⟩; simp [hl] at h
  split
  · rename_i h
    refine .inl ⟨_, .inr (.inl rfl), ?_, rfl⟩
    rintro ⟨hk, hr, -⟩; cases kp <;> simp_all [initKeyAccepted]
  split
  · rename_i h
    refine .inl ⟨_, .inr (.inr rfl), ?_, rfl⟩
    rintro ⟨-, -, -, ha, -⟩
    cases ap
    · simp [initAdBytes] at h
    · simp only [initAdBytes, if_true, State.length_inRead] at h; have := (ha rfl).2; omega
  · rename_i h1 h2 h3 h4 h5 h6 h7
    refine .inr ⟨⟨?_, ?_, by simpa using h2, ?_, by simpa using h4, by simpa using h5⟩, rfl⟩
    · rintro rfl; simp_all [initKeyAccepted]
    · rintro rfl; simp_all [initKeyAccepted]
    · rintro rfl; simp_all [initAdBytes]

/-- PROCESS_AAD (R140). -/
theorem execProcessAad_cases (inOff inLen : Nat) (s : State) :
    (∃ st, (st = .illegalState ∨ st = .dataLength ∨ st = .capacity) ∧
      execProcessAad inOff inLen s = .next (s.answered (errorResponse st))) ∨
    (s.eng.phase ≠ .uninit ∧ s.eng.phase ≠ .data ∧ s.inBounds inOff inLen = true ∧
      aadCapacityExceeded s.cfg s.eng inLen = false ∧
      execProcessAad inOff inLen s =
        .next ((s.withEngine { absorbAad s.cfg s.eng (s.inRead inOff inLen) with phase := .aad }).answered (okResponse 0 []))) := by
  unfold execProcessAad State.raise State.respondOk
  split_ifs with h1 h2 h3 h4
  · exact .inl ⟨_, .inl rfl, rfl⟩
  · exact .inl ⟨_, .inl rfl, rfl⟩
  · exact .inl ⟨_, .inr (.inl rfl), rfl⟩
  · exact .inl ⟨_, .inr (.inr rfl), rfl⟩
  · exact .inr ⟨h1, h2, by simpa using h3, by simpa using h4, rfl⟩

/-- What PROCESS_BYTES and PROCESS_BYTE share (R143). -/
theorem processPayload_cases (p : List Byte) (n outOff : Nat) (s : State) :
    (∃ st, (st = .outputLength ∨ st = .capacity) ∧ s.processPayload p n outOff = .next (s.answered (errorResponse st))) ∨
    (s.outBounds outOff (updSize s.cfg s.eng n) = true ∧
      dataCapacityExceeded s.cfg s.eng n (updSize s.cfg s.eng n) = false ∧
      s.processPayload p n outOff =
        .next (((s.withEngine (feedPayload s.cfg s.eng p).1).outWrite outOff (feedPayload s.cfg s.eng p).2).answered
          (okResponse (updSize s.cfg s.eng n) []))) := by
  unfold State.processPayload State.raise State.respondOk
  split_ifs with h1 h2
  · exact .inl ⟨_, .inl rfl, rfl⟩
  · exact .inl ⟨_, .inr rfl, rfl⟩
  · exact .inr ⟨by simpa using h1, by simpa using h2, rfl⟩

/-- PROCESS_BYTES (R143). -/
theorem execProcessBytes_cases (inOff inLen outOff : Nat) (s : State) :
    (∃ st, (st = .illegalState ∨ st = .dataLength ∨ st = .outputLength ∨ st = .capacity) ∧
      execProcessBytes inOff inLen outOff s = .next (s.answered (errorResponse st))) ∨
    (s.eng.phase ≠ .uninit ∧ s.inBounds inOff inLen = true ∧ s.outBounds outOff (updSize s.cfg s.eng inLen) = true ∧
      dataCapacityExceeded s.cfg s.eng inLen (updSize s.cfg s.eng inLen) = false ∧
      execProcessBytes inOff inLen outOff s =
        .next (((s.withEngine (feedPayload s.cfg s.eng (s.inRead inOff inLen)).1).outWrite outOff
          (feedPayload s.cfg s.eng (s.inRead inOff inLen)).2).answered (okResponse (updSize s.cfg s.eng inLen) []))) := by
  unfold execProcessBytes
  split_ifs with h1 h2
  · exact .inl ⟨_, .inl rfl, rfl⟩
  · exact .inl ⟨_, .inr (.inl rfl), rfl⟩
  · obtain ⟨st, hst, he⟩ | ⟨ho, hc, he⟩ := processPayload_cases (s.inRead inOff inLen) inLen outOff s
    · exact .inl ⟨st, .inr (.inr hst), he⟩
    · exact .inr ⟨h1, by simpa using h2, ho, hc, he⟩

/-- PROCESS_BYTE (R146). -/
theorem execProcessByte_cases (byte : Byte) (outOff : Nat) (s : State) :
    (∃ st, (st = .illegalState ∨ st = .outputLength ∨ st = .capacity) ∧
      execProcessByte byte outOff s = .next (s.answered (errorResponse st))) ∨
    (s.eng.phase ≠ .uninit ∧ s.outBounds outOff (updSize s.cfg s.eng 1) = true ∧
      dataCapacityExceeded s.cfg s.eng 1 (updSize s.cfg s.eng 1) = false ∧
      execProcessByte byte outOff s =
        .next (((s.withEngine (feedPayload s.cfg s.eng [byte]).1).outWrite outOff
          (feedPayload s.cfg s.eng [byte]).2).answered (okResponse (updSize s.cfg s.eng 1) []))) := by
  unfold execProcessByte
  split_ifs with h1
  · exact .inl ⟨_, .inl rfl, rfl⟩
  · obtain ⟨st, hst, he⟩ | ⟨ho, hc, he⟩ := processPayload_cases [byte] 1 outOff s
    · exact .inl ⟨st, .inr hst, he⟩
    · exact .inr ⟨h1, ho, hc, he⟩

/-- The state after INVALID_CIPHERTEXT (60_exceptions.md R385). -/
theorem raiseInvalidCiphertext_eq (s : State) :
    s.raiseInvalidCiphertext =
      .next ((s.withEngine (sessionStart s.cfg s.eng)).answered (errorResponse .invalidCiphertext)) := rfl

/-- DO_FINAL (R160 to R163). -/
theorem execDoFinal_cases (outOff : Nat) (s : State) :
    (∃ st, (st = .illegalState ∨ st = .outputLength) ∧ execDoFinal outOff s = .next (s.answered (errorResponse st))) ∨
    (s.eng.phase ≠ .uninit ∧
      ((s.eng.dir = .dec ∧ held s.cfg s.eng < s.eng.tagLen) ∨ (finalFrame s.cfg s.eng).2.2 = false) ∧
      execDoFinal outOff s =
        .next ((s.withEngine (sessionStart s.cfg s.eng)).answered (errorResponse .invalidCiphertext))) ∨
    (s.eng.phase ≠ .uninit ∧ ¬ (s.eng.dir = .dec ∧ held s.cfg s.eng < s.eng.tagLen) ∧
      s.outBounds outOff (outSize s.cfg s.eng 0) = true ∧ (finalFrame s.cfg s.eng).2.2 = true ∧
      execDoFinal outOff s =
        .next (((s.withEngine { sessionStart s.cfg s.eng with mac := (finalFrame s.cfg s.eng).2.1, macValid := true }).outWrite
          outOff (finalFrame s.cfg s.eng).1).answered (okResponse (outSize s.cfg s.eng 0) []))) := by
  unfold execDoFinal
  split_ifs with h1 h2 h3
  · exact .inl ⟨_, .inl rfl, rfl⟩
  · exact .inr (.inl ⟨h1, .inl h2, rfl⟩)
  · exact .inl ⟨_, .inr rfl, rfl⟩
  · rcases hf : finalFrame s.cfg s.eng with ⟨frame, tag, ok⟩
    cases ok
    · exact .inr (.inl ⟨h1, .inr rfl, rfl⟩)
    · exact .inr (.inr ⟨h1, h2, by simpa using h3, rfl, rfl⟩)

/-- RESET (R172). -/
theorem execReset_cases (s : State) :
    (s.eng.phase = .uninit ∧ execReset s = .next (s.answered (okResponse 0 []))) ∨
    (s.eng.phase ≠ .uninit ∧
      execReset s =
        .next ((s.withEngine { sessionStart s.cfg s.eng with mac := [], macValid := false }).answered (okResponse 0 []))) := by
  unfold execReset
  split_ifs with h
  · exact .inl ⟨h, rfl⟩
  · exact .inr ⟨h, rfl⟩

/-- The two size queries (41_size_calculator.md R201, R202). -/
theorem execGetUpdateOutputSize_cases (len : Nat) (s : State) :
    (s.eng.phase = .uninit ∧ execGetUpdateOutputSize len s = .next (s.answered (errorResponse .illegalState))) ∨
    (s.eng.phase ≠ .uninit ∧
      execGetUpdateOutputSize len s = .next (s.answered (okResponse (updSize s.cfg s.eng len) []))) := by
  unfold execGetUpdateOutputSize
  split_ifs with h
  · exact .inl ⟨h, rfl⟩
  · exact .inr ⟨h, rfl⟩

theorem execGetOutputSize_cases (len : Nat) (s : State) :
    (s.eng.phase = .uninit ∧ execGetOutputSize len s = .next (s.answered (errorResponse .illegalState))) ∨
    (s.eng.phase ≠ .uninit ∧
      execGetOutputSize len s = .next (s.answered (okResponse (outSize s.cfg s.eng len) []))) := by
  unfold execGetOutputSize
  split_ifs with h
  · exact .inl ⟨h, rfl⟩
  · exact .inr ⟨h, rfl⟩

theorem execGetMac_eq (s : State) :
    execGetMac s = .next (s.answered (okResponse s.eng.visibleMac.length s.eng.visibleMac)) := rfl

theorem execGetAlgorithmName_eq (s : State) :
    execGetAlgorithmName s = .next (s.answered (okResponse s.cfg.algName.length s.cfg.algName)) := rfl

/-- What any command can do: a response `OK` with new registers and storage, an error with no effect, or
INVALID_CIPHERTEXT (60_exceptions.md R380, R385, R388). -/
theorem exec_cases (i : Instr) (s : State) :
    (∃ e m result rdata,
      exec i s = .next { s with eng := e, mem := m, responses := s.responses ++ [⟨.ok, result, rdata⟩] }) ∨
    (∃ st, st ≠ .ok ∧ st ≠ .invalidCiphertext ∧
      exec i s = .next { s with responses := s.responses ++ [⟨st, 0#64, []⟩] }) ∨
    ((∃ outOff, i = .doFinal outOff) ∧
      exec i s =
        .next { s with eng := sessionStart s.cfg s.eng, responses := s.responses ++ [⟨.invalidCiphertext, 0#64, []⟩] }) := by
  cases i with
  | init d kp ap tb a b c e f g =>
    rcases execInit_cases d kp ap tb a b c e f g s with ⟨st, hst, -, h⟩ | ⟨-, h⟩
    · exact .inr (.inl ⟨st, by rcases hst with rfl | rfl | rfl <;> decide, by rcases hst with rfl | rfl | rfl <;> decide, h⟩)
    · exact .inl ⟨_, _, _, _, h⟩
  | processAad a b =>
    rcases execProcessAad_cases a b s with ⟨st, hst, h⟩ | ⟨-, -, -, -, h⟩
    · exact .inr (.inl ⟨st, by rcases hst with rfl | rfl | rfl <;> decide, by rcases hst with rfl | rfl | rfl <;> decide, h⟩)
    · exact .inl ⟨_, _, _, _, h⟩
  | processBytes a b c =>
    rcases execProcessBytes_cases a b c s with ⟨st, hst, h⟩ | ⟨-, -, -, -, h⟩
    · exact .inr (.inl ⟨st, by rcases hst with rfl | rfl | rfl | rfl <;> decide,
        by rcases hst with rfl | rfl | rfl | rfl <;> decide, h⟩)
    · exact .inl ⟨_, _, _, _, h⟩
  | processByte a b =>
    rcases execProcessByte_cases a b s with ⟨st, hst, h⟩ | ⟨-, -, -, h⟩
    · exact .inr (.inl ⟨st, by rcases hst with rfl | rfl | rfl <;> decide, by rcases hst with rfl | rfl | rfl <;> decide, h⟩)
    · exact .inl ⟨_, _, _, _, h⟩
  | doFinal o =>
    rcases execDoFinal_cases o s with ⟨st, hst, h⟩ | ⟨-, -, h⟩ | ⟨-, -, -, -, h⟩
    · exact .inr (.inl ⟨st, by rcases hst with rfl | rfl <;> decide, by rcases hst with rfl | rfl <;> decide, h⟩)
    · exact .inr (.inr ⟨⟨o, rfl⟩, h⟩)
    · exact .inl ⟨_, _, _, _, h⟩
  | getMac => exact .inl ⟨_, _, _, _, execGetMac_eq s⟩
  | getAlgorithmName => exact .inl ⟨_, _, _, _, execGetAlgorithmName_eq s⟩
  | reset => rcases execReset_cases s with ⟨-, h⟩ | ⟨-, h⟩ <;> exact .inl ⟨_, _, _, _, h⟩
  | getUpdateOutputSize l =>
    rcases execGetUpdateOutputSize_cases l s with ⟨-, h⟩ | ⟨-, h⟩
    · exact .inr (.inl ⟨_, by decide, by decide, h⟩)
    · exact .inl ⟨_, _, _, _, h⟩
  | getOutputSize l =>
    rcases execGetOutputSize_cases l s with ⟨-, h⟩ | ⟨-, h⟩
    · exact .inr (.inl ⟨_, by decide, by decide, h⟩)
    · exact .inl ⟨_, _, _, _, h⟩

/-! ### Lengths of what a command writes -/

theorem length_ccmKeystream (t : Transform) (k nonce : List Byte) (q : Nat) : (ccmKeystream t k nonce q).length = q := by
  have h : ∀ m, ((List.range m).flatMap fun i => bytesOfBlock (ccmStreamBlock t k nonce (i + 1))).length = 16 * m := by
    intro m; simp [List.length_flatMap, Nat.mul_comm]
  unfold ccmKeystream
  rw [List.length_take, h]; omega

theorem length_ccmTag (t : Transform) (k nonce : List Byte) (m : Nat) (aad p : List Byte) :
    (ccmTag t k nonce m aad p).length = min m 16 := by
  simp [ccmTag]

theorem length_ocbTag (t : Transform) (k : List Byte) (r : OcbRegs) (tagLen : Nat) (off ck : Block) :
    (ocbTag t k r tagLen off ck).length = min tagLen 16 := by
  simp [ocbTag]

/-- An accepted tag length is a whole number of bytes, at most 16 (00_scope.md R8). -/
theorem tagBitsOk_bytes {v : Variant} {tagBits : Nat} (h : tagBitsOk v tagBits = true) :
    8 * (tagBits / 8) = tagBits ∧ tagBits / 8 ≤ 16 := by
  unfold tagBitsOk at h
  cases v <;> simp [tagSet] at h <;> omega

/-- On encryption the final procedure always releases its frame (42_ccm_mac.md R250, 43_ocb_offset_mac.md R301). -/
theorem finalFrame_enc (c : Config) (e : Engine) (h : e.dir = .enc) : (finalFrame c e).2.2 = true := by
  unfold finalFrame; rw [h]; cases c.variant <;> rfl

/-- A command's session parameters and tag register are not touched by the payload (40_engine_commands.md R143). -/
theorem feedPayload_sameParams (c : Config) (e : Engine) (p : List Byte) :
    SameParams e (feedPayload c e p).1 ∧ (feedPayload c e p).1.phase = .data ∧ (feedPayload c e p).1.mac = e.mac ∧
      (feedPayload c e p).1.macValid = e.macValid := by
  unfold feedPayload
  cases c.variant <;> exact ⟨⟨rfl, rfl, rfl, rfl, rfl, rfl⟩, rfl, rfl, rfl⟩

/-! ### Steps -/

/-- A step: the command at the front of the port, or an illegal word's answer, or the host's next move. -/
theorem step_cases (s : State) :
    (∃ i rest, decode s.port = .command i rest ∧ step s = exec i { s with port := rest }) ∨
    (∃ why rest, decode s.port = .illegal why rest ∧
      step s = .next (State.answered { s with port := rest } (errorResponse .illegalCommand))) ∨
    (decode s.port = .incomplete ∧ step s = takeMove s) := by
  unfold step runPort
  cases h : decode s.port with
  | command i rest => exact .inl ⟨i, rest, rfl, rfl⟩
  | illegal why rest => exact .inr (.inl ⟨why, rest, rfl, rfl⟩)
  | incomplete => exact .inr (.inr ⟨rfl, rfl⟩)

/-- The host's storage after a lost command has every byte at its old or its new value. -/
theorem partWritten_read (n : Nat) {before after : Memory} (ha : after.wf = true) (x : Nat) :
    (partWritten n before after).wf = true ∧
    ((partWritten n before after).read x = before.read x ∨ (partWritten n before after).read x = after.read x) := by
  unfold partWritten
  generalize before.map Prod.fst ++ after.map Prod.fst = l
  have key : ∀ (l : List Nat) (m : Memory), m.wf = true → (m.read x = before.read x ∨ m.read x = after.read x) →
      (l.foldl (fun m a => if Config.writtenBeforeLoss n a then m else m.write a (before.read a)) m).wf = true ∧
      ((l.foldl (fun m a => if Config.writtenBeforeLoss n a then m else m.write a (before.read a)) m).read x = before.read x ∨
        (l.foldl (fun m a => if Config.writtenBeforeLoss n a then m else m.write a (before.read a)) m).read x = after.read x) := by
    intro l
    induction l with
    | nil => intro m hm hx; exact ⟨hm, hx⟩
    | cons a l ih =>
      intro m hm hx
      rw [List.foldl_cons]
      split
      · exact ih m hm hx
      · apply ih _ (Memory.wf_write hm _ _)
        rw [Memory.read_write hm]
        split
        · rename_i h; subst h; exact .inl rfl
        · exact hx
  exact key l after ha (.inr rfl)

/-- A power-on during a command: the registers of power-on, no response, and every byte of the storage old or new. -/
theorem loseCommand_cases (s : State) :
    (s.loseCommand = s.powerOnReset) ∨
    (∃ t, runPort s = some (.next t) ∧
      s.loseCommand =
        { s.powerOnReset with mem := partWritten s.freeCount s.mem t.mem, freeCount := s.freeCount + 1 }) := by
  unfold State.loseCommand
  split
  · rename_i t h; exact .inr ⟨t, h, rfl⟩
  all_goals exact .inl rfl

/-- What a move of the host can do: it breaks a duty and the run stops, or the state after it is `afterMove`. -/
theorem hostMove_cases (m : HostMove) (s : State) :
    (m.breaksDuty s = true ∧ hostMove m s = .fault .hostDuty) ∨
    (m.breaksDuty s = false ∧ hostMove m s = .next (s.afterMove m)) := by
  unfold hostMove
  cases m.breaksDuty s <;> simp

@[simp] theorem Window.covers_iff (w : Window) (a : Nat) : w.covers a = true ↔ w.base ≤ a ∧ a < w.base + w.cap.toNat := by
  simp [Window.covers]

/-- A store changes a window exactly when one of its bytes lies in `IN` or `OUT` and differs from the byte there. -/
theorem State.changesWindow_iff (s : State) (addr : Nat) (bytes : List Byte) :
    s.changesWindow addr bytes = true ↔
      ∃ j, ∃ h : j < bytes.length,
        (s.inWin.covers (addr + j) = true ∨ s.outWin.covers (addr + j) = true) ∧ s.mem.read (addr + j) ≠ bytes[j] := by
  induction bytes generalizing addr with
  | nil => simp [State.changesWindow]
  | cons b rest ih =>
    simp only [State.changesWindow, Bool.or_eq_true, Bool.and_eq_true, bne_iff_ne, ih]
    constructor
    · rintro (⟨hw, hb⟩ | ⟨j, hj, hw, hb⟩)
      · exact ⟨0, by simp, by simpa using hw, by simpa using hb⟩
      · refine ⟨j + 1, by simpa using hj, ?_⟩
        simpa [Nat.add_assoc, Nat.add_comm 1] using And.intro hw hb
    · rintro ⟨j, hj, hw, hb⟩
      cases j with
      | zero => exact .inl ⟨by simpa using hw, by simpa using hb⟩
      | succ j => exact .inr ⟨j, by simpa using hj, by simpa [Nat.add_assoc, Nat.add_comm 1] using And.intro hw hb⟩

end Sys2Proof.Machine
end

