-- ==== Sys2Proof/Laws/Decode.lean ====
section
/-! SUPPORT. Command words and their fields (30_encoding.md R91 to R107): what the fields of a word are, as numbers, and
what a decoded command says of its words. -/

namespace Sys2Proof

theorem toNat_append_eq {m n : Nat} (a : BitVec m) (b : BitVec n) : (a ++ b).toNat = a.toNat * 2 ^ n + b.toNat := by
  rw [BitVec.toNat_append, ← Nat.shiftLeft_add_eq_or_of_lt b.isLt, Nat.shiftLeft_eq]

/-- A command word as a number: its fields at the weights of R91. -/
theorem toNat_commandWord (opc : Nat) (dir : Dir) (kp ap : Bool) (byte : Byte) (tagBits : Nat) :
    (commandWord opc dir kp ap byte tagBits).toNat =
      (((((tagBits % 65536 * 256 + byte.toNat) * 2 + 0) * 2 + ap.toNat) * 2 + kp.toNat) * 2 + dir.code.toNat) * 16 + opc % 16 := by
  unfold commandWord
  refine (toNat_append_eq (m := 28) (n := 4) _ _).trans ?_
  congr 1
  refine congrArg (· * 2 ^ 4) ((toNat_append_eq (m := 27) (n := 1) _ _).trans ?_)
  congr 1
  refine congrArg (· * 2 ^ 1) ((toNat_append_eq (m := 26) (n := 1) _ _).trans ?_)
  congr 1
  · refine congrArg (· * 2 ^ 1) ((toNat_append_eq (m := 25) (n := 1) _ _).trans ?_)
    rw [toNat_append_eq, toNat_append_eq]
    · simp
  all_goals cases kp <;> rfl

theorem opcField_eq (w : Word) : opcField w = w.toNat % 16 := by
  simp [opcField, BitVec.extractLsb'_toNat]

theorem tagBitsField_eq (w : Word) : tagBitsField w = w.toNat / 65536 := by
  simp [tagBitsField, BitVec.extractLsb'_toNat, Nat.shiftRight_eq_div_pow]; omega

theorem toNat_byteField (w : Word) : (byteField w).toNat = w.toNat / 256 % 256 := by
  simp [byteField, BitVec.extractLsb'_toNat, Nat.shiftRight_eq_div_pow]

theorem getLsbD_eq_decide (w : Word) (i : Nat) : w.getLsbD i = decide (w.toNat / 2 ^ i % 2 = 1) := by
  rw [BitVec.getLsbD, Nat.testBit_eq_decide_div_mod_eq]

theorem extractLsb'_eq_zero (w : Word) (i n : Nat) : w.extractLsb' i n = 0#n ↔ w.toNat / 2 ^ i % 2 ^ n = 0 := by
  rw [← BitVec.toNat_inj, BitVec.extractLsb'_toNat, Nat.shiftRight_eq_div_pow]; simp

/-- The fields of a command word are the ones it was built from. -/
theorem fields_commandWord (opc : Nat) (dir : Dir) (kp ap : Bool) (byte : Byte) (tagBits : Nat) (ho : opc < 16)
    (ht : fitsTagBits tagBits = true) :
    opcField (commandWord opc dir kp ap byte tagBits) = opc ∧ dirField (commandWord opc dir kp ap byte tagBits) = dir ∧
    kpField (commandWord opc dir kp ap byte tagBits) = kp ∧ apField (commandWord opc dir kp ap byte tagBits) = ap ∧
    byteField (commandWord opc dir kp ap byte tagBits) = byte ∧
    tagBitsField (commandWord opc dir kp ap byte tagBits) = tagBits := by
  simp only [fitsTagBits, decide_eq_true_eq] at ht
  have hb := byte.isLt
  have hd : dir.code.toNat < 2 := dir.code.isLt
  have hk : kp.toNat < 2 := by cases kp <;> decide
  have ha : ap.toNat < 2 := by cases ap <;> decide
  have bit : ∀ b : Bool, decide (b.toNat = 1) = b := by intro b; cases b <;> rfl
  have hw := toNat_commandWord opc dir kp ap byte tagBits
  refine ⟨?_, ?_, ?_, ?_, ?_, ?_⟩
  · rw [opcField_eq, hw]; omega
  · rw [dirField, getLsbD_eq_decide,
      show (commandWord opc dir kp ap byte tagBits).toNat / 2 ^ 4 % 2 = dir.code.toNat by rw [hw]; omega]
    cases dir <;> rfl
  · rw [kpField, getLsbD_eq_decide,
      show (commandWord opc dir kp ap byte tagBits).toNat / 2 ^ 5 % 2 = kp.toNat by rw [hw]; omega]
    exact bit _
  · rw [apField, getLsbD_eq_decide,
      show (commandWord opc dir kp ap byte tagBits).toNat / 2 ^ 6 % 2 = ap.toNat by rw [hw]; omega]
    exact bit _
  · apply BitVec.eq_of_toNat_eq
    rw [toNat_byteField, hw]; omega
  · rw [tagBitsField_eq, hw]; omega

/-- The reserved fields of the command words the encoder builds are zero. -/
theorem reserved_commandWord (opc : Nat) (dir : Dir) (kp ap : Bool) (byte : Byte) (tagBits : Nat) :
    (commandWord opc dir kp ap 0#8 tagBits).extractLsb' 7 9 = 0#9 ∧
    (commandWord opc .enc false false byte 0).extractLsb' 4 4 = 0#4 ∧
    (commandWord opc .enc false false byte 0).extractLsb' 16 16 = 0#16 ∧
    (commandWord opc .enc false false 0#8 0).extractLsb' 4 28 = 0#28 := by
  have hb := byte.isLt
  have hd : dir.code.toNat < 2 := dir.code.isLt
  have hk : kp.toNat < 2 := by cases kp <;> decide
  have ha : ap.toNat < 2 := by cases ap <;> decide
  have h0 : Dir.enc.code.toNat = 0 := rfl
  refine ⟨?_, ?_, ?_, ?_⟩ <;> rw [extractLsb'_eq_zero, toNat_commandWord] <;>
    simp only [h0, Bool.toNat_false, BitVec.toNat_ofNat] <;> omega

theorem operandCount_le (o : Nat) : operandCount o ≤ 6 := by unfold operandCount; split <;> omega

/-- A word whose checks pass, with its operand words at hand, decodes to the command it stands for. -/
theorem decode_eq_command {w : Word} {ws : List Word} {o : Nat} {i : Instr} (h : opcField w = o)
    (hr : reservedOpcode o = false) (hl : operandCount o ≤ ws.length) (hz : reservedFieldsZero w = true)
    (hc : commandOf w (ws.take (operandCount o)) = some i) : decode (w :: ws) = .command i (ws.drop (operandCount o)) := by
  simp [decode, h, hr, Nat.not_lt.mpr hl, hz, hc]

/-- What a decoded command says of the words it was decoded from. -/
theorem decode_command_inv {ws : List Word} {i : Instr} {rest : List Word} (h : decode ws = .command i rest) :
    ∃ w tl, ws = w :: tl ∧ reservedOpcode (opcField w) = false ∧ operandCount (opcField w) ≤ tl.length ∧
      reservedFieldsZero w = true ∧ commandOf w (tl.take (operandCount (opcField w))) = some i ∧
      rest = tl.drop (operandCount (opcField w)) := by
  cases ws with
  | nil => simp [decode] at h
  | cons w tl =>
    refine ⟨w, tl, rfl, ?_⟩
    unfold decode at h
    simp only at h
    split at h
    · simp at h
    rename_i h1
    split at h
    · simp at h
    rename_i h2
    split at h
    · rename_i h3
      split at h
      · rename_i j hj
        simp only [Decoded.command.injEq] at h
        obtain ⟨rfl, rfl⟩ := h
        exact ⟨by simpa using h1, by omega, h3, hj, rfl⟩
      · simp at h
    · simp at h

/-- A legal opcode with its number of operand words is a command. -/
theorem commandOf_isSome {w : Word} {ops : List Word} (hl : ops.length = operandCount (opcField w))
    (hr : reservedOpcode (opcField w) = false) : ∃ i, commandOf w ops = some i := by
  have hlt : opcField w < 16 := by rw [opcField_eq]; omega
  generalize ho : opcField w = o at *
  unfold commandOf
  rw [ho]
  interval_cases o <;> simp [reservedOpcode] at hr <;> simp [operandCount] at hl
  · match ops, hl with | [a, b, c, d, e, f], _ => exact ⟨_, rfl⟩
  · match ops, hl with | [a, b], _ => exact ⟨_, rfl⟩
  · match ops, hl with | [a, b, c], _ => exact ⟨_, rfl⟩
  · match ops, hl with | [a], _ => exact ⟨_, rfl⟩
  · match ops, hl with | [a], _ => exact ⟨_, rfl⟩
  · subst hl; exact ⟨_, rfl⟩
  · subst hl; exact ⟨_, rfl⟩
  · match ops, hl with | [a], _ => exact ⟨_, rfl⟩
  · match ops, hl with | [a], _ => exact ⟨_, rfl⟩
  · subst hl; exact ⟨_, rfl⟩

end Sys2Proof
end

