-- ==== Sys2Proof/Laws/PerInstr.lean ====
section
/-! SUPPORT. What holds of every command as syntax, one lemma per constructor of `Instr`. -/

namespace Sys2Proof.Laws

/-- The encoding of a command has the length R93 gives its opcode, and its command word carries that opcode, which is not
a reserved one. -/
def EncodeLength.Statement (i : Instr) : Prop :=
  (encode i).length = 1 + operandCount i.opcode ∧ reservedOpcode i.opcode = false ∧ opcField i.headWord = i.opcode

/-- The opcode of a command word that the encoder builds. -/
theorem opcField_commandWord (opc : Nat) (dir : Dir) (kp ap : Bool) (byte : Byte) (tagBits : Nat) (h : opc < 16) :
    opcField (commandWord opc dir kp ap byte tagBits) = opc := by
  rw [opcField_eq, toNat_commandWord]; omega

theorem EncodeLength.init (dir : Dir) (kp ap : Bool) (tagBits koff klen noff nlen aoff alen : Nat) :
    EncodeLength.Statement (.init dir kp ap tagBits koff klen noff nlen aoff alen) :=
  ⟨rfl, rfl, opcField_commandWord _ _ _ _ _ _ (by simp [Instr.opcode])⟩

theorem EncodeLength.processAad (inOff inLen : Nat) : EncodeLength.Statement (.processAad inOff inLen) :=
  ⟨rfl, rfl, opcField_commandWord _ _ _ _ _ _ (by simp [Instr.opcode])⟩

theorem EncodeLength.processBytes (inOff inLen outOff : Nat) :
    EncodeLength.Statement (.processBytes inOff inLen outOff) :=
  ⟨rfl, rfl, opcField_commandWord _ _ _ _ _ _ (by simp [Instr.opcode])⟩

theorem EncodeLength.processByte (byte : Byte) (outOff : Nat) : EncodeLength.Statement (.processByte byte outOff) :=
  ⟨rfl, rfl, opcField_commandWord _ _ _ _ _ _ (by simp [Instr.opcode])⟩

theorem EncodeLength.doFinal (outOff : Nat) : EncodeLength.Statement (.doFinal outOff) :=
  ⟨rfl, rfl, opcField_commandWord _ _ _ _ _ _ (by simp [Instr.opcode])⟩

theorem EncodeLength.getMac : EncodeLength.Statement .getMac :=
  ⟨rfl, rfl, opcField_commandWord _ _ _ _ _ _ (by simp [Instr.opcode])⟩

theorem EncodeLength.reset : EncodeLength.Statement .reset :=
  ⟨rfl, rfl, opcField_commandWord _ _ _ _ _ _ (by simp [Instr.opcode])⟩

theorem EncodeLength.getUpdateOutputSize (len : Nat) : EncodeLength.Statement (.getUpdateOutputSize len) :=
  ⟨rfl, rfl, opcField_commandWord _ _ _ _ _ _ (by simp [Instr.opcode])⟩

theorem EncodeLength.getOutputSize (len : Nat) : EncodeLength.Statement (.getOutputSize len) :=
  ⟨rfl, rfl, opcField_commandWord _ _ _ _ _ _ (by simp [Instr.opcode])⟩

theorem EncodeLength.getAlgorithmName : EncodeLength.Statement .getAlgorithmName :=
  ⟨rfl, rfl, opcField_commandWord _ _ _ _ _ _ (by simp [Instr.opcode])⟩

end Sys2Proof.Laws
end

