-- ==== Sys2Proof/Machine/Assembler.lean ====
section
/-! DEFINITION. The assembler syntax and the pseudo-instructions (30_encoding.md R108, R109). They are the host's notation:
no step of the machine reads them. -/

namespace Sys2Proof.Machine

/-- `@o,n`: the range `[o, o+n)` of a window (R108). -/
structure Range where
  off : Nat
  len : Nat
deriving DecidableEq, Repr

/-- One line of assembler (R108), or a pseudo-instruction (R109). -/
inductive AsmLine where
  /-- `INIT.<dir> tag= key= nonce= ad=`, an omitted key or associated data written `-`. -/
  | init (dir : Dir) (tag : Nat) (key : Option Range) (nonce : Range) (ad : Option Range)
  | processAad (inp : Range)
  | processBytes (inp : Range) (out : Nat)
  | processByte (byte : Byte) (out : Nat)
  | doFinal (out : Nat)
  | getMac
  | reset
  | getUpdateOutputSize (len : Nat)
  | getOutputSize (len : Nat)
  | getAlgorithmName
  /-- `INIT.REUSE.<dir>` (R109). -/
  | initReuse (dir : Dir) (tag : Nat) (nonce : Range) (ad : Option Range)
  /-- `SEAL @i,n -> @o`, after an `INIT.ENC` (R109). -/
  | sealMessage (inp : Range) (out : Nat)
  /-- `OPEN @i,n -> @o`, after an `INIT.DEC` (R109). -/
  | openMessage (inp : Range) (out : Nat)
deriving DecidableEq, Repr

/-- The offset word of an optional range: 0 when it is omitted (R108). -/
def optionalOff (r : Option Range) : Nat := (r.map Range.off).getD 0

/-- The length word of an optional range: 0 when it is omitted (R108). -/
def optionalLen (r : Option Range) : Nat := (r.map Range.len).getD 0

/-- The INIT command of an `INIT` line: `key=-` is `KP = 0` and `ad=-` is `AP = 0` (R108). -/
def assembleInit (dir : Dir) (tag : Nat) (key : Option Range) (nonce : Range) (ad : Option Range) : Instr :=
  .init dir key.isSome ad.isSome tag (optionalOff key) (optionalLen key) nonce.off nonce.len (optionalOff ad) (optionalLen ad)

/-- The command of a line; for `SEAL` and `OPEN` the first of their two (R108, R109). -/
def AsmLine.command : AsmLine → Instr
  | .init dir tag key nonce ad => assembleInit dir tag key nonce ad
  | .processAad inp => .processAad inp.off inp.len
  | .processBytes inp out => .processBytes inp.off inp.len out
  | .processByte byte out => .processByte byte out
  | .doFinal out => .doFinal out
  | .getMac => .getMac
  | .reset => .reset
  | .getUpdateOutputSize len => .getUpdateOutputSize len
  | .getOutputSize len => .getOutputSize len
  | .getAlgorithmName => .getAlgorithmName
  | .initReuse dir tag nonce ad => assembleInit dir tag none nonce ad
  | .sealMessage inp out => .processBytes inp.off inp.len out
  | .openMessage inp out => .processBytes inp.off inp.len out

/-- The second command of `SEAL` and `OPEN`, which the host forms with the `RESULT` of the first (R109). -/
def AsmLine.followUp (line : AsmLine) (result : Nat) : Option Instr :=
  match line with
  | .sealMessage _ out => some (.doFinal (out + result))
  | .openMessage _ out => some (.doFinal (out + result))
  | _ => none

/-- `@o,n`. -/
def Range.text (r : Range) : String := "@" ++ toString r.off ++ "," ++ toString r.len

/-- A range, or `-` when it is omitted. -/
def optionalText (r : Option Range) : String := (r.map Range.text).getD "-"

/-- `ENC` or `DEC`. -/
def dirText : Dir → String
  | .enc => "ENC"
  | .dec => "DEC"

/-- The text of a line, numbers in decimal (R108, R109). -/
def AsmLine.text : AsmLine → String
  | .init dir tag key nonce ad =>
    "INIT." ++ dirText dir ++ " tag=" ++ toString tag ++ " key=" ++ optionalText key ++ " nonce=" ++ nonce.text ++
      " ad=" ++ optionalText ad
  | .processAad inp => "PROCESS_AAD " ++ inp.text
  | .processBytes inp out => "PROCESS_BYTES " ++ inp.text ++ " -> @" ++ toString out
  | .processByte byte out => "PROCESS_BYTE " ++ toString byte.toNat ++ " -> @" ++ toString out
  | .doFinal out => "DO_FINAL -> @" ++ toString out
  | .getMac => "GET_MAC"
  | .reset => "RESET"
  | .getUpdateOutputSize len => "GET_UPDATE_OUTPUT_SIZE " ++ toString len
  | .getOutputSize len => "GET_OUTPUT_SIZE " ++ toString len
  | .getAlgorithmName => "GET_ALGORITHM_NAME"
  | .initReuse dir tag nonce ad =>
    "INIT.REUSE." ++ dirText dir ++ " tag=" ++ toString tag ++ " nonce=" ++ nonce.text ++ " ad=" ++ optionalText ad
  | .sealMessage inp out => "SEAL " ++ inp.text ++ " -> @" ++ toString out
  | .openMessage inp out => "OPEN " ++ inp.text ++ " -> @" ++ toString out

end Sys2Proof.Machine
end

