-- ==== Sys2Proof/Tests/Slice0.lean ====
section
/-! SUPPORT. The package's own tests: the smoke test of WellFormed, the words of 30_encoding.md and of 95_test_vectors.md,
small steps whose results stand in 95_test_vectors.md (under `TOYXOR`, so that the kernel computes them), and for every
statement with hypotheses a witness of states and operands that meet them together. -/

namespace Sys2Proof.Tests

open Sys2Proof.Machine

-- One theorem at a time: the kernel evaluations of this file would otherwise all ask for a thread of their own.
set_option Elab.async false

/-! ### States of the tests: program P4 of 95_test_vectors.md -/

/-- An instance with `TOYXOR` and `ALG_NAME` = `TOYXOR/OCB` (95_test_vectors.md section 0). -/
def toy (v : Variant) : Config :=
  { Config.specInstance with
    variant := v, transform := .toyXor
    algName := [0x54#8, 0x4F#8, 0x59#8, 0x58#8, 0x4F#8, 0x52#8, 0x2F#8, 0x4F#8, 0x43#8, 0x42#8] }

/-- `n` bytes from `b` on, each one more than the one before. -/
def rising (b n : Nat) : List Byte := (List.range n).map fun k => BitVec.ofNat 8 (b + k)

/-- Sixteen bytes `01`. -/
def key : List Byte := List.replicate 16 0x01#8

/-- The input of P4: the key, twelve bytes `00` and `10 11 .. 34`. -/
def input : List Byte := key ++ zeroBytes 12 ++ rising 0x10 37

/-- The registers `e` on an instance whose windows are those of P4. -/
def ready (v : Variant) (e : Engine) : State :=
  { State.resetOf (toy v) with
    eng := e, mem := Memory.writeBytes [] 0 input, inWin := ⟨0, 65#32⟩, outWin := ⟨100, 64#32⟩ }

/-- The registers after INIT with the key, a zero nonce of `n` bytes and associated data `ad`. -/
def session (v : Variant) (dir : Dir) (tagBits n : Nat) (ad : List Byte) : Engine :=
  commitInit (toy v) .reset dir tagBits key (zeroBytes n) ad

/-- The registers after the payload bytes `p`. -/
def fed (v : Variant) (e : Engine) (p : List Byte) : Engine := (feedPayload (toy v) e p).1

/-- OCB encryption with 15 bytes `10 .. 1E` received. -/
def sealing : State := ready .ocb (fed .ocb (session .ocb .enc 128 12 []) (rising 0x10 15))

/-- OCB decryption with 31 bytes received. -/
def opening : State := ready .ocb (fed .ocb (session .ocb .dec 128 12 []) (rising 0x10 31))

/-- CCM encryption with 3 bytes received. -/
def ccmSealing : State := ready .ccm (fed .ccm (session .ccm .enc 64 7 []) (rising 0x10 3))

/-- The instance of P4 before any command. -/
def fresh : State := ready .ocb .reset

/-- The state of a next outcome. -/
def after (r : Result) : State := match r with | .next t => t | .fault _ => .reset | .refused _ => .reset

/-- Whether an outcome is a next state. -/
def goesOn (r : Result) : Bool := match r with | .next _ => true | .fault _ => false | .refused _ => false

theorem after_eq {r : Result} (h : goesOn r = true) : r = .next (after r) := by
  cases r with
  | next t => rfl
  | fault f => simp [goesOn] at h
  | refused r => simp [goesOn] at h

/-- The last response of an outcome. -/
def answer (r : Result) : Option Response := (after r).responses.getLast?

/-- `n` bytes of `OUT` after an outcome. -/
def out (r : Result) (off n : Nat) : List Byte := (after r).mem.readBytes (100 + off) n

/-! ### WellFormed -/

theorem test_wellFormed_init_refuses_each_field :
    Instr.wellFormed (.init .enc true true 65536 0 0 0 0 0 0) = false ∧
    Instr.wellFormed (.init .enc true true 65535 4294967296 0 0 0 0 0) = false ∧
    Instr.wellFormed (.init .enc true true 65535 0 4294967296 0 0 0 0) = false ∧
    Instr.wellFormed (.init .enc true true 65535 0 0 4294967296 0 0 0) = false ∧
    Instr.wellFormed (.init .enc true true 65535 0 0 0 4294967296 0 0) = false ∧
    Instr.wellFormed (.init .enc true true 65535 0 0 0 0 4294967296 0) = false ∧
    Instr.wellFormed (.init .enc true true 65535 0 0 0 0 0 4294967296) = false := by decide

theorem test_wellFormed_others_refuse_each_field :
    Instr.wellFormed (.processAad 4294967296 0) = false ∧ Instr.wellFormed (.processAad 0 4294967296) = false ∧
    Instr.wellFormed (.processBytes 4294967296 0 0) = false ∧ Instr.wellFormed (.processBytes 0 4294967296 0) = false ∧
    Instr.wellFormed (.processBytes 0 0 4294967296) = false ∧ Instr.wellFormed (.processByte 0#8 4294967296) = false ∧
    Instr.wellFormed (.doFinal 4294967296) = false ∧ Instr.wellFormed (.getUpdateOutputSize 4294967296) = false ∧
    Instr.wellFormed (.getOutputSize 4294967296) = false := by decide

/-! ### Decoding: words written out from 30_encoding.md and 95_test_vectors.md -/

/-- P2: INIT, decrypt, tag 128, key and AD supplied. -/
theorem test_decode_init :
    decode [0x00800071#32, 0#32, 0x10#32, 0x10#32, 0xC#32, 0x1C#32, 0x10#32] =
      .command (.init .dec true true 128 0 16 16 12 28 16) [] := by decide +kernel

/-- Every field of INIT at its highest value but `DIR`, `KP` and `AP`. -/
theorem test_decode_init_fields :
    decode [0xFFFF0001#32, 1#32, 2#32, 3#32, 4#32, 5#32, 0xFFFFFFFF#32, 9#32] =
      .command (.init .enc false false 65535 1 2 3 4 5 4294967295) [9#32] := by decide +kernel

theorem test_decode_processAad : decode [0x00000002#32, 0x1C#32, 4#32] = .command (.processAad 28 4) [] := by decide +kernel
theorem test_decode_processBytes :
    decode [0x00000003#32, 0x30#32, 0x21#32, 7#32] = .command (.processBytes 48 33 7) [] := by decide +kernel
theorem test_decode_processByte : decode [0x0000AB04#32, 1#32] = .command (.processByte 0xAB#8 1) [] := by decide +kernel
theorem test_decode_doFinal : decode [0x00000005#32, 0x20#32] = .command (.doFinal 32) [] := by decide +kernel
theorem test_decode_getMac : decode [0x00000006#32] = .command .getMac [] := by decide +kernel
theorem test_decode_reset : decode [0x00000007#32] = .command .reset [] := by decide +kernel
theorem test_decode_getUpdateOutputSize :
    decode [0x00000008#32, 9#32] = .command (.getUpdateOutputSize 9) [] := by decide +kernel
theorem test_decode_getOutputSize : decode [0x00000009#32, 8#32] = .command (.getOutputSize 8) [] := by decide +kernel
theorem test_decode_getAlgorithmName : decode [0x0000000A#32] = .command .getAlgorithmName [] := by decide +kernel

/-- The illegal words of V10, with what they consume. -/
theorem test_decode_illegal_words :
    decode [0x00000000#32] = .illegal .reservedOpcode [] ∧ decode [0x0000000F#32] = .illegal .reservedOpcode [] ∧
    decode [0x00000016#32] = .illegal .reservedField [] ∧ decode [0x00000086#32] = .illegal .reservedField [] ∧
    decode [0x00010006#32] = .illegal .reservedField [] ∧ decode [0x00000018#32, 5#32] = .illegal .reservedField [] ∧
    decode [0x00800081#32, 0#32, 0#32, 0#32, 0#32, 0#32, 0#32] = .illegal .reservedField [] ∧
    decode [0x00001214#32, 0#32] = .illegal .reservedField [] := by decide +kernel

/-- The word stream as the opcode table numbers it, and the first step from reset. -/
theorem test_table_words :
    decodeTableWord 32 0x00001F04 = some (.processByte 0x1F#8 0) ∧
    decodeTableWord 32 0x00000086 = none ∧
    decodeTableWord 96 0x000000050000001C00000002 = some (.processAad 28 5) ∧
    answer (step (State.reset.withFetchWord 32 0x0000000A)) =
      some ⟨.ok, 7#64, [0x41#8, 0x45#8, 0x53#8, 0x2F#8, 0x4F#8, 0x43#8, 0x42#8]⟩ := by decide +kernel

/-! ### One step of each command -/

/-- P4 step 4, V11 row 1. -/
theorem test_init_accepted :
    let r := exec (.init .enc true false 128 0 16 16 12 0 0) fresh
    answer r = some ⟨.ok, 0#64, []⟩ ∧ (after r).eng.phase = .ready ∧ (after r).eng.tagLen = 16 ∧
      (after r).eng.key = key ∧ (after r).eng.nonce = zeroBytes 12 ∧
      (after r).eng.ocb.offset = 0x01010100010101010101010101010101#128 ∧
      (after r).eng.ocb.ltAt 1 = 0x08080808080808080808080808080808#128 := by decide +kernel

/-- V11 row 17: the nonce range before the tag length. -/
theorem test_init_checks_ranges_first :
    answer (exec (.init .enc true false 60 0 16 60 12 0 0) fresh) = some ⟨.dataLength, 0#64, []⟩ := by decide +kernel

/-- V12 row 3: 4 bytes held, then 16 more. -/
theorem test_processAad_absorbs_a_block :
    let s := ready .ocb { absorbAad (toy .ocb) (session .ocb .enc 128 12 []) (rising 0 4) with phase := .aad }
    let r := exec (.processAad 28 16) s
    answer r = some ⟨.ok, 0#64, []⟩ ∧ (after r).eng.phase = .aad ∧ (after r).eng.hashPos = 4 ∧
      (after r).eng.ocb.hashCount = 1#64 := by decide +kernel

/-- V12 row 7: the state before the range. -/
theorem test_processAad_after_data :
    answer (exec (.processAad 64 5) sealing) = some ⟨.illegalState, 0#64, []⟩ := by decide +kernel

/-- P4 step 7: 21 bytes after the first block, from V20. -/
theorem test_processBytes_encrypts :
    let r := exec (.processBytes 44 21 16) (ready .ocb (fed .ocb (session .ocb .enc 128 12 []) (rising 0x10 16)))
    answer r = some ⟨.ok, 16#64, []⟩ ∧ (after r).eng.mainPos = 5 ∧
      out r 16 16 = [0x21#8, 0x20#8, 0x23#8, 0x22#8, 0x25#8, 0x24#8, 0x27#8, 0x26#8, 0x29#8, 0x28#8, 0x2B#8, 0x2A#8, 0x2D#8,
        0x2C#8, 0x2F#8, 0x2E#8] ∧
      (after r).eng.ocb.offset = 0x0D0D0D0C0D0D0D0D0D0D0D0D0D0D0D0D#128 := by decide +kernel

/-- V13 row 5: `OUTOFF` past `OUT_CAP` with nothing to emit. -/
theorem test_processBytes_output_offset :
    answer (exec (.processBytes 28 15 65) (ready .ocb (session .ocb .enc 128 12 []))) = some ⟨.outputLength, 0#64, []⟩ := by
  decide +kernel

/-- P4 step 6. -/
theorem test_processByte_completes_a_block :
    let r := exec (.processByte 0x1F#8 0) sealing
    answer r = some ⟨.ok, 16#64, []⟩ ∧ (after r).eng.mainPos = 0 ∧
      out r 0 16 = [0x11#8, 0x10#8, 0x13#8, 0x12#8, 0x15#8, 0x14#8, 0x17#8, 0x16#8, 0x19#8, 0x18#8, 0x1B#8, 0x1A#8, 0x1D#8,
        0x1C#8, 0x1F#8, 0x1E#8] := by decide +kernel

/-- V13 row 12. -/
theorem test_processByte_output_length :
    let r := exec (.processByte 0xAB#8 49) sealing
    answer r = some ⟨.outputLength, 0#64, []⟩ ∧ (after r).eng.mainPos = 15 := by decide +kernel

/-- P4 step 9, the tag of V20. -/
theorem test_doFinal_ocb :
    let r := exec (.doFinal 32) (ready .ocb (fed .ocb (session .ocb .enc 128 12 []) (rising 0x10 37)))
    answer r = some ⟨.ok, 21#64, []⟩ ∧ (after r).eng.phase = .ready ∧
      out r 32 5 = [0x3D#8, 0x3C#8, 0x3F#8, 0x3F#8, 0x39#8] ∧
      (after r).eng.mac = [0x0F#8, 0x0E#8, 0x0D#8, 0x0D#8, 0x0B#8, 0xBF#8] ++ List.replicate 10 0x3F#8 := by decide +kernel

/-- The CCM instance of V18: nonce `00 .. 06`, associated data `AA AA AA`, payload `10 .. 23`, tag 64. -/
theorem test_doFinal_ccm :
    let e := commitInit (toy .ccm) .reset .enc 64 key (rising 0 7) (List.replicate 3 0xAA#8)
    let r := exec (.doFinal 0) (ready .ccm (fed .ccm e (rising 0x10 20)))
    answer r = some ⟨.ok, 28#64, []⟩ ∧
      out r 0 20 = [0x16#8, 0x10#8, 0x12#8, 0x10#8, 0x16#8, 0x10#8, 0x12#8, 0x10#8, 0x19#8, 0x18#8, 0x1B#8, 0x1A#8, 0x1D#8,
        0x1C#8, 0x1F#8, 0x1F#8, 0x26#8, 0x20#8, 0x22#8, 0x20#8] ∧
      out r 20 8 = [0x69#8, 0x32#8, 0x9B#8, 0x9B#8, 0xBF#8, 0x14#8, 0x17#8, 0x16#8] := by decide +kernel

/-- V15 row 1: no tag yet. -/
theorem test_getMac_empty : answer (exec .getMac fresh) = some ⟨.ok, 0#64, []⟩ := by decide +kernel

/-- The tag of the last DO_FINAL (R170). -/
theorem test_getMac_tag :
    answer (exec .getMac (ready .ocb { session .ocb .enc 64 12 [] with mac := rising 1 8, macValid := true })) =
      some ⟨.ok, 8#64, rising 1 8⟩ := by decide +kernel

/-- V15 row 2. -/
theorem test_reset_before_init :
    let r := exec .reset fresh
    answer r = some ⟨.ok, 0#64, []⟩ ∧ (after r).eng.phase = .uninit := by decide +kernel

/-- V15 row 6: the 5 bytes given at INIT are absorbed again, the 16 of the PROCESS_AAD are gone. -/
theorem test_reset_reabsorbs_init_ad :
    let r := exec .reset (ready .ocb { absorbAad (toy .ocb) (session .ocb .enc 128 12 (rising 0 5)) (rising 0 16) with phase := .aad })
    answer r = some ⟨.ok, 0#64, []⟩ ∧ (after r).eng.phase = .aad ∧ (after r).eng.ocb.hashBuf = rising 0 5 ∧
      (after r).eng.ocb.hashCount = 0#64 := by decide +kernel

/-- Two rows of R208: one byte more than 15 held on encryption, one more than 31 on decryption. -/
theorem test_getUpdateOutputSize :
    answer (exec (.getUpdateOutputSize 1) sealing) = some ⟨.ok, 16#64, []⟩ ∧
    answer (exec (.getUpdateOutputSize 1) opening) = some ⟨.ok, 16#64, []⟩ := by decide +kernel

/-- V15 row 3. -/
theorem test_getUpdateOutputSize_before_init :
    answer (exec (.getUpdateOutputSize 0) fresh) = some ⟨.illegalState, 0#64, []⟩ := by decide +kernel

/-- P4 step 8: 21 with five bytes held. Then R208, row `ENC` 0, for 16 bytes and, those 16 bytes processed (`MAIN_POS` 0 again), for
none: 32 and 16, where R205's second equation would make the two equal (log 14). -/
theorem test_getOutputSize :
    answer (exec (.getOutputSize 0) (ready .ocb (fed .ocb (session .ocb .enc 128 12 []) (rising 0x30 5)))) =
      some ⟨.ok, 21#64, []⟩ ∧
    answer (exec (.getOutputSize 16) (ready .ocb (session .ocb .enc 128 12 []))) = some ⟨.ok, 32#64, []⟩ ∧
    answer (exec (.getOutputSize 0) (ready .ocb (fed .ocb (session .ocb .enc 128 12 []) (rising 0x30 16)))) =
      some ⟨.ok, 16#64, []⟩ := by decide +kernel

/-- V15 row 4. -/
theorem test_getOutputSize_before_init :
    answer (exec (.getOutputSize 0) fresh) = some ⟨.illegalState, 0#64, []⟩ := by decide +kernel

/-- P4 step 10. -/
theorem test_getAlgorithmName :
    answer (exec .getAlgorithmName fresh) =
      some ⟨.ok, 10#64, [0x54#8, 0x4F#8, 0x59#8, 0x58#8, 0x4F#8, 0x52#8, 0x2F#8, 0x4F#8, 0x43#8, 0x42#8]⟩ := by decide +kernel

/-- V17: `ntz(1..8)`, and `dbl` of the two highest bits. -/
theorem test_ntz_and_dbl :
    (List.range 8).map (fun i => ntz (i + 1)) = [0, 1, 0, 2, 0, 1, 0, 3] ∧
    dbl 0x80000000000000000000000000000000#128 = 0x87#128 ∧
    dbl 0x40000000000000000000000000000000#128 = 0x80000000000000000000000000000000#128 := by decide +kernel

/-! ### Witnesses: for every statement with hypotheses, states and operands that meet them together -/

/-- The register invariant of a session from conditions that can be computed. -/
theorem engineInv_of {c : Config} {e : Engine}
    (h : (e.phase ≠ .uninit ∧ e.keyValid = true ∧ keyOk c.transform e.key = true ∧ tagBitsOk c.variant (8 * e.tagLen) = true ∧
      nonceLenOk c.variant e.nonce.length = true ∧ e.initAd.length ≤ c.initAdMax) ∧
      (e.dir = .enc → e.mainPos ≤ 15) ∧
      (e.dir = .dec → e.mainPos ≤ 15 + e.tagLen ∧ (e.ocb.mainCount ≠ 0#64 → e.tagLen ≤ e.mainPos)) ∧
      e.hashPos ≤ 15 ∧ e.ccm.aadBuf.length ≤ c.ccmAadMax ∧ e.ccm.dataBuf.length ≤ c.ccmDataMax ∧
      (e.macValid = true → e.mac.length = e.tagLen)) : EngineInv c e := by
  obtain ⟨⟨hp, h⟩, he, hd, hh, ha, hb, hm⟩ := h
  refine ⟨?_, fun _ => ?_, fun _ => hh, fun _ => ha, fun _ => hb, hm⟩
  · unfold ParamsOk
    cases hph : e.phase
    · exact absurd hph hp
    all_goals exact h
  · unfold MainWindowOk
    cases hdir : e.dir
    · exact he hdir
    · exact hd hdir

theorem inv_sealing : StateInv sealing := ⟨by decide, engineInv_of (by decide +kernel)⟩
theorem inv_opening : StateInv opening := ⟨by decide, engineInv_of (by decide +kernel)⟩
theorem inv_ccmSealing : StateInv ccmSealing := ⟨by decide, engineInv_of (by decide +kernel)⟩

/-- O1: the highest and the lowest operands of the longest command. -/
theorem witness_decodeOfEncode :
    Instr.wellFormed (.init .dec true true 65535 4294967295 0 0 4294967295 0 4294967295) = true ∧
    Instr.wellFormed (.processByte 0xFF#8 4294967295) = true ∧ Instr.wellFormed .getMac = true := by decide

theorem witness_encodeOfDecode :
    decode [0xFFFF0071#32, 0xFFFFFFFF#32, 0#32, 0#32, 1#32, 0#32, 0#32, 6#32] =
      .command (.init .dec true true 65535 4294967295 0 0 1 0 0) [6#32] := by decide +kernel

theorem witness_legalCommandWords : 6 ≤ (List.replicate 6 0#32).length ∧ MatchesTable 0xFFFF0071#32 ∧ MatchesTable 0xFF04#32 ∧
    MatchesTable 10#32 ∧ ¬ MatchesTable 11#32 := by
  refine ⟨by decide, .inl (by decide), .inr (.inl (by decide)), .inr (.inr (by decide)), ?_⟩
  unfold MatchesTable; decide

/-- Both clauses at the boundary, for INIT: five operand words and six. -/
theorem witness_commandLength :
    decode (0x00800021#32 :: List.replicate 5 0#32) = .incomplete ∧
    decode (0x00800021#32 :: List.replicate 6 0#32) = .command (.init .enc true false 128 0 0 0 0 0 0) [] := by decide +kernel

theorem witness_stepRuns :
    decode ({ fresh with port := [0x00000006#32, 7#32] } : State).port = .command .getMac [7#32] := by decide +kernel

/-- The reserved opcodes at their bounds, and a legal opcode with a reserved field set. -/
theorem witness_illegalWords :
    OpcodeReserved 0x00000000#32 ∧ OpcodeReserved 0x0000000B#32 ∧ OpcodeReserved 0xFFFFFFFF#32 ∧
    ¬ OpcodeReserved 0x00000018#32 ∧ ¬ MatchesTable 0x00000018#32 ∧ operandCount ((0x00000018#32).toNat % 16) ≤ [5#32].length := by
  unfold OpcodeReserved MatchesTable; decide

theorem witness_hostMoves :
    decode fresh.port = .incomplete ∧ fresh.moves = [] ∧
    ({ fresh with moves := [.powerOn] } : State).moves = .powerOn :: [] ∧
    hostMove (.send [6#32]) fresh = .next (after (hostMove (.send [6#32]) fresh)) ∧
    hostMove (.present ⟨0, 1#32⟩ ⟨5, 2#32⟩) fresh = .next (after (hostMove (.present ⟨0, 1#32⟩ ⟨5, 2#32⟩) fresh)) ∧
    hostMove (.store 3 [9#8]) fresh = .next (after (hostMove (.store 3 [9#8]) fresh)) ∧ fresh.mem.wf = true ∧
    OneCommandAtMost { fresh with port := [5#32, 0#32] } ∧
    step { fresh with port := [5#32, 0#32] } = .next (after (step { fresh with port := [5#32, 0#32] })) :=
  ⟨by decide, rfl, rfl, after_eq (by decide), after_eq (by decide), after_eq (by decide), by decide +kernel, rfl,
    after_eq (by decide +kernel)⟩

/-- Every breach of R440: other windows, a store into `IN`, and two commands sent at once. -/
theorem witness_onlyABreach :
    step { fresh with port := [2#32], moves := [.present ⟨0, 0#32⟩ ⟨0, 0#32⟩] } = .fault .hostDuty ∧
    step { fresh with port := [2#32], moves := [.store 64 [1#8]] } = .fault .hostDuty ∧
    step { fresh with moves := [.send [6#32, 6#32]] } = .fault .hostDuty ∧
    step { fresh with moves := [.sendLost [0xB#32, 6#32]] } = .fault .hostDuty ∧ fresh.moves = [] :=
  ⟨rfl, rfl, rfl, rfl, rfl⟩

/-- What is no breach while a command is partly sent: the rest of its words, the same windows, no byte stored, a byte beside the
windows, the byte that stands there. -/
theorem test_hostDuty_kept :
    let s := { fresh with port := [5#32] }
    goesOn (hostMove (.send [0#32]) s) = true ∧ goesOn (hostMove (.present s.inWin s.outWin) s) = true ∧
    goesOn (hostMove (.store 64 []) s) = true ∧ goesOn (hostMove (.store 65 [1#8]) s) = true ∧
    goesOn (hostMove (.store 64 [0x34#8]) s) = true := by decide +kernel

/-- A response that is not OK. -/
theorem witness_oneResponse : (answer (exec (.doFinal 0) fresh)).map Response.status = some .illegalState := by decide +kernel

theorem witness_lostCommand : fresh.mem.wf = true ∧ decode (fresh.port ++ [5#32, 0#32]) = .command (.doFinal 0) [] := by
  decide +kernel

/-- An error of each of the two kinds. -/
theorem witness_failedCommands :
    exec (.doFinal 60) sealing = .next (after (exec (.doFinal 60) sealing)) ∧
    (after (exec (.doFinal 60) sealing)).responses = sealing.responses ++ [⟨.outputLength, 0#64, []⟩] ∧
    exec (.doFinal 0) opening = .next (after (exec (.doFinal 0) opening)) ∧
    (after (exec (.doFinal 0) opening)).responses = opening.responses ++ [⟨.invalidCiphertext, 0#64, []⟩] :=
  ⟨after_eq (by decide +kernel), by decide +kernel, after_eq (by decide +kernel), by decide +kernel⟩

/-- OCB decryption with 15 bytes received, one fewer than the tag. -/
def truncated : State := ready .ocb (fed .ocb (session .ocb .dec 128 12 []) (rising 0x10 15))

/-- Both causes: a tag that differs, and a truncated input. -/
theorem witness_invalidCiphertext :
    (after (exec (.doFinal 0) opening)).responses = opening.responses ++ [⟨.invalidCiphertext, 0#64, []⟩] ∧
    exec (.doFinal 0) truncated = .next (after (exec (.doFinal 0) truncated)) ∧
    (after (exec (.doFinal 0) truncated)).responses = truncated.responses ++ [⟨.invalidCiphertext, 0#64, []⟩] :=
  ⟨by decide +kernel, after_eq (by decide +kernel), by decide +kernel⟩

/-- The INIT of P4. -/
def p4Init : Instr := .init .enc true false 128 0 16 16 12 0 0

theorem witness_onlyInit :
    exec p4Init fresh = .next (after (exec p4Init fresh)) ∧ ¬ SameSessionParams fresh.eng (after (exec p4Init fresh)).eng := by
  refine ⟨after_eq (by decide +kernel), ?_⟩
  unfold SameSessionParams; decide +kernel

theorem witness_phaseTable :
    exec (.processByte 1#8 0) sealing = .next (after (exec (.processByte 1#8 0) sealing)) ∧
    (after (exec (.processByte 1#8 0) sealing)).responses = sealing.responses ++ [⟨.ok, 16#64, []⟩] :=
  ⟨after_eq (by decide +kernel), by decide +kernel⟩

/-- A byte below the range, the first above it, and a range that is not empty. -/
theorem witness_outRange :
    sealing.mem.wf = true ∧ StateInv sealing ∧
    exec (.processByte 1#8 48) sealing = .next (after (exec (.processByte 1#8 48) sealing)) ∧
    (after (exec (.processByte 1#8 48) sealing)).responses = sealing.responses ++ [⟨.ok, 16#64, []⟩] ∧
    (147 < (outRange sealing (.processByte 1#8 48)).1) ∧
    (outRange sealing (.processByte 1#8 48)).1 + (outRange sealing (.processByte 1#8 48)).2 ≤ 164 ∧
    (outRange sealing (.processByte 1#8 48)).2 ≠ 0 :=
  ⟨by decide +kernel, inv_sealing, after_eq (by decide +kernel), by decide +kernel, by decide +kernel, by decide +kernel,
    by decide +kernel⟩

/-- A step from the state `s` with the words `ws` in the port. -/
def stepWith (s : State) (ws : List Word) : Result := step { s with port := ws }

theorem witness_keepParameters :
    step { sealing with port := [5#32, 0#32] } = .next (after (stepWith sealing [5#32, 0#32])) := after_eq (by decide +kernel)

theorem witness_storageCanonical :
    ({ sealing with port := [0x1F04#32, 0#32] } : State).mem.wf = true ∧
    step { sealing with port := [0x1F04#32, 0#32] } = .next (after (stepWith sealing [0x1F04#32, 0#32])) :=
  ⟨by decide +kernel, after_eq (by decide +kernel)⟩

theorem witness_registerInvariant :
    StateInv { sealing with port := [0x1F04#32, 0#32] } ∧
    step { sealing with port := [0x1F04#32, 0#32] } = .next (after (stepWith sealing [0x1F04#32, 0#32])) :=
  ⟨inv_sealing, after_eq (by decide +kernel)⟩

theorem witness_otherVariantUnused :
    OtherVariantUnused sealing ∧ OtherVariantUnused ccmSealing ∧
    step { ccmSealing with port := [0x1F04#32, 0#32] } = .next (after (stepWith ccmSealing [0x1F04#32, 0#32])) :=
  ⟨show sealing.eng.ccm = .empty by decide +kernel, show ccmSealing.eng.ocb = .zero by decide +kernel,
    after_eq (by decide +kernel)⟩

theorem derivedConstants_sealing : DerivedConstantsOk sealing := by
  intro _ _
  have hall : ∀ k : Fin 63, sealing.eng.ocb.ltAt (k + 1) = dbl (sealing.eng.ocb.ltAt k) := by decide +kernel
  refine ⟨by decide +kernel, by decide +kernel, by decide +kernel, fun k h1 h2 => ?_⟩
  have := hall ⟨k - 1, by omega⟩
  simpa [Nat.sub_add_cancel h1] using this

theorem witness_derivedConstants :
    DerivedConstantsOk sealing ∧ sealing.cfg.variant = .ocb ∧ sealing.eng.phase ≠ .uninit ∧
    step { sealing with port := [0x1F04#32, 0#32] } = .next (after (stepWith sealing [0x1F04#32, 0#32])) :=
  ⟨derivedConstants_sealing, rfl, by decide +kernel, after_eq (by decide +kernel)⟩

/-- After one block: the offset is at its Gray-coded value and the step completes the second. -/
theorem witness_grayCode :
    let s := ready .ocb (fed .ocb (session .ocb .enc 128 12 []) (rising 0x10 31))
    StateInv s ∧ OffsetsAreGrayCoded s ∧ step { s with port := [0x1F04#32, 0#32] } = .next (after (stepWith s [0x1F04#32, 0#32])) :=
  ⟨⟨by decide, engineInv_of (by decide +kernel)⟩, fun _ _ => by decide +kernel, after_eq (by decide +kernel)⟩

theorem witness_responses :
    StateInv sealing ∧ (∀ r ∈ sealing.responses, ResponseOk r) ∧
    step { sealing with port := [6#32] } = .next (after (stepWith sealing [6#32])) :=
  ⟨inv_sealing, fun r h => absurd h (by simp [sealing, ready, State.resetOf]), after_eq (by decide +kernel)⟩

theorem witness_reset : Config.wf (toy .ocb) = true ∧ Config.wf (toy .ccm) = true := by decide

/-- The ranges at the end of `IN`, with a tag length of 60 bits, which is refused, and of 64, which is not. -/
theorem witness_initSucceeds :
    0 + 16 ≤ fresh.inWin.cap.toNat ∧ 53 + 12 ≤ fresh.inWin.cap.toNat ∧ 49 + 16 ≤ fresh.inWin.cap.toNat ∧
    16 ≤ fresh.cfg.initAdMax ∧
    (answer (exec (.init .enc true true 60 0 16 53 12 49 16) fresh)).map Response.status = some .invalidParameter ∧
    (answer (exec (.init .enc true true 64 0 16 53 12 49 16) fresh)).map Response.status = some .ok := by decide +kernel

/-- The nonce lengths at and past their bounds: OCB 1, 15 and 16; CCM 6, 7, 13 and 14, with tags of 32 and of 40 bits. -/
theorem witness_initSucceeds_bounds :
    let init v tagBits n :=
      (answer (exec (.init .enc true false tagBits 0 16 16 n 0 0) (ready v .reset))).map Response.status
    let ok := some Status.ok
    let bad := some Status.invalidParameter
    init .ocb 128 0 = bad ∧ init .ocb 128 1 = ok ∧ init .ocb 128 15 = ok ∧ init .ocb 128 16 = bad ∧
    init .ccm 32 6 = bad ∧ init .ccm 32 7 = ok ∧ init .ccm 128 13 = ok ∧ init .ccm 128 14 = bad ∧ init .ccm 40 13 = bad := by
  decide +kernel

theorem initAccepted_fresh : InitAccepted fresh true false 128 0 16 16 12 0 0 := by
  unfold InitAccepted; decide +kernel

/-- With a key supplied and associated data, and with the retained key. -/
theorem witness_initCommits :
    InitAccepted fresh true true 128 0 16 16 15 49 16 ∧ InitAccepted sealing false false 64 0 0 16 1 0 0 := by
  unfold InitAccepted; decide +kernel

theorem witness_sessionStart :
    (session .ocb .enc 128 12 (rising 0 20)).initAd.length < 2 ^ 32 ∧ (toy .ocb).variant = .ocb ∧
    (session .ccm .enc 128 12 (rising 0 20)).initAd.length < 2 ^ 32 ∧ (toy .ccm).variant = .ccm ∧
    1 ≤ (session .ocb .enc 128 1 []).nonce.length ∧ (session .ocb .enc 128 15 []).nonce.length ≤ 15 := by decide +kernel

/-- R286 by hand with `bottom` = 63: `KTOP` is `01 01 01 00 01 ..`, its last eight stretch bytes `00 00 01 01 00 00 00 00`, and the
offset `STRETCH` shifted left by seven bytes and seven bits. -/
theorem test_initial_offset_with_bottom :
    offset0 .toyXor key (zeroBytes 11 ++ [0x3F#8]) 16 = 0x80808080808080808000008080000000#128 := by decide +kernel

theorem witness_keyReuse :
    InitAccepted fresh true false 128 0 16 16 12 0 0 ∧ sealing.cfg = fresh.cfg ∧ sealing.inWin = fresh.inWin ∧
    sealing.mem = fresh.mem ∧ OtherVariantUnused fresh ∧ OtherVariantUnused sealing ∧ sealing.eng.keyValid = true ∧
    sealing.eng.key = fresh.inRead 0 16 ∧ exec p4Init fresh = .next (after (exec p4Init fresh)) :=
  ⟨initAccepted_fresh, rfl, rfl, rfl, rfl, show sealing.eng.ccm = .empty by decide +kernel, by decide +kernel, by decide +kernel,
    after_eq (by decide +kernel)⟩

/-- An accepted INIT without a key, and, before the first INIT, none retained: the nonce and the associated data at the end of
`IN`. -/
theorem witness_keyReuse_no_key :
    InitAccepted sealing false false 64 0 0 50 15 0 0 ∧
    fresh.eng.keyValid = false ∧ 53 + 12 ≤ fresh.inWin.cap.toNat ∧ (true = true → 49 + 16 ≤ fresh.inWin.cap.toNat) := by
  unfold InitAccepted; decide +kernel

/-- A range at the end of `IN`, with associated data already held. -/
theorem witness_processAad :
    let s := ready .ocb (session .ocb .enc 128 12 (rising 0 15))
    let t := ready .ccm (session .ccm .enc 128 12 [])
    s.eng.phase = .aad ∧ 49 + 16 ≤ s.inWin.cap.toNat ∧ ¬ AadExceeds s.cfg s.eng 16 ∧ s.eng.hashPos ≤ 15 ∧
    t.eng.phase = .ready ∧ ¬ AadExceeds t.cfg t.eng 65536 ∧ AadExceeds t.cfg t.eng 65537 ∧ t.eng.hashPos ≤ 15 := by
  unfold AadExceeds; decide +kernel

theorem witness_aadBlockwise :
    OcbRegs.zero.hashBuf = [] ∧ OcbRegs.zero.hashCount.toNat + (rising 0 33).length / 16 < 2 ^ 64 := by decide +kernel

theorem witness_aadSplit :
    let s := ready .ocb (session .ocb .enc 128 12 (rising 0 15))
    s.eng.hashPos ≤ 15 ∧ exec (.processAad 28 (1 + 20)) s = .next (after (exec (.processAad 28 21) s)) ∧
    (after (exec (.processAad 28 21) s)).responses = s.responses ++ [⟨.ok, 0#64, []⟩] :=
  ⟨by decide +kernel, after_eq (by decide +kernel), by decide +kernel⟩

/-- A payload of no bytes that is accepted, a payload that fails, and, once payload has been given, another command and a DO_FINAL
that starts no session. -/
theorem witness_aadAfterData :
    feedsPayload (.processBytes 28 0 64) ∧
    exec (.processBytes 28 0 64) sealing = .next (after (exec (.processBytes 28 0 64) sealing)) ∧
    (after (exec (.processBytes 28 0 64) sealing)).responses = sealing.responses ++ [⟨.ok, 0#64, []⟩] ∧
    exec (.processBytes 28 0 65) fresh = .next (after (exec (.processBytes 28 0 65) fresh)) ∧
    (after (exec (.processBytes 28 0 65) fresh)).responses = fresh.responses ++ [⟨.illegalState, 0#64, []⟩] ∧
    sealing.eng.phase = .data ∧ ¬ startsASession .getMac .ok ∧ ¬ feedsPayload .getMac ∧
    (after (exec .getMac sealing)).responses = sealing.responses ++ [⟨.ok, 0#64, []⟩] ∧
    ¬ startsASession (.doFinal 60) .outputLength ∧ ¬ feedsPayload (.doFinal 60) ∧
    (after (exec (.doFinal 60) sealing)).responses = sealing.responses ++ [⟨.outputLength, 0#64, []⟩] :=
  ⟨.inl ⟨_, _, _, rfl⟩, after_eq (by decide +kernel), by decide +kernel, after_eq (by decide +kernel), by decide +kernel,
    by decide +kernel, by simp [startsASession], by simp [feedsPayload], by decide +kernel, by simp [startsASession],
    by simp [feedsPayload], by decide +kernel⟩

theorem witness_ccmBuffers :
    ccmSealing.cfg.variant = .ccm ∧ ccmSealing.eng.phase ≠ .uninit ∧ 64 ≤ ccmSealing.outWin.cap.toNat ∧
    28 + 37 ≤ ccmSealing.inWin.cap.toNat ∧ ¬ DataExceeds ccmSealing.cfg ccmSealing.eng 37 ∧
    ¬ DataExceeds ccmSealing.cfg ccmSealing.eng 1 ∧
    DataExceeds { toy .ccm with ccmDataMax := 3 } ccmSealing.eng 1 := by
  unfold DataExceeds; decide +kernel

/-- V13, the CCM length bound: a 13-byte nonce, `CCM_DATA_MAX` = 2^32 - 1, both directions (R144). -/
theorem test_ccm_length_bound :
    let c := { toy .ccm with ccmDataMax := 4294967295 }
    let enc := session .ccm .enc 128 13 []
    let dec := session .ccm .dec 128 13 []
    dataCapacityExceeded c enc 65535 0 = false ∧ dataCapacityExceeded c enc 65536 0 = true ∧
    dataCapacityExceeded c dec 65551 0 = false ∧ dataCapacityExceeded c dec 65552 0 = true := by decide +kernel

/-- Both directions, the input to the end of `IN` and the output to the end of `OUT`. -/
theorem witness_ocbEmits :
    sealing.cfg.variant = .ocb ∧ sealing.eng.phase ≠ .uninit ∧ MainWindowOk sealing.eng ∧ sealing.mem.wf = true ∧
    28 + 37 ≤ sealing.inWin.cap.toNat ∧ 16 + updSize sealing.cfg sealing.eng 37 ≤ sealing.outWin.cap.toNat ∧
    sealing.eng.ocb.mainCount.toNat + updSize sealing.cfg sealing.eng 37 / 16 < 2 ^ 64 ∧
    opening.eng.phase ≠ .uninit ∧ MainWindowOk opening.eng ∧ 48 + updSize opening.cfg opening.eng 1 ≤ opening.outWin.cap.toNat ∧
    opening.eng.ocb.mainCount.toNat + updSize opening.cfg opening.eng 1 / 16 < 2 ^ 64 :=
  ⟨rfl, by decide +kernel, inv_sealing.2.mainWindow rfl, by decide +kernel, by decide +kernel, by decide +kernel,
    by decide +kernel, by decide +kernel, inv_opening.2.mainWindow rfl, by decide +kernel, by decide +kernel⟩

/-- The last byte of `IN`. -/
theorem witness_processByteIsProcessBytes :
    64 + 1 ≤ sealing.inWin.cap.toNat ∧ sealing.mem.read (sealing.inWin.base + 64) = 0x34#8 := by decide +kernel

theorem witness_ocbEncrypts :
    sealing.cfg.variant = .ocb ∧ sealing.eng.phase ≠ .uninit ∧ sealing.eng.dir = .enc ∧
    sealing.eng.ocb.mainBuf = rising 0x10 15 ∧ (rising 0x10 15).length = 15 ∧ 48 + 16 ≤ sealing.outWin.cap.toNat ∧
    sealing.eng.ocb.mainCount.toNat + 1 < 2 ^ 64 := by decide +kernel

theorem witness_ocbDecrypts :
    opening.cfg.variant = .ocb ∧ opening.eng.phase ≠ .uninit ∧ opening.eng.dir = .dec ∧
    opening.eng.ocb.mainBuf = rising 0x10 31 ∧ (rising 0x10 31).length = 15 + opening.eng.tagLen ∧
    48 + 16 ≤ opening.outWin.cap.toNat ∧ opening.eng.ocb.mainCount.toNat + 1 < 2 ^ 64 := by decide +kernel

/-- One byte below the last that is held, in both directions. -/
theorem witness_ocbHolds :
    let s := ready .ocb (fed .ocb (session .ocb .enc 128 12 []) (rising 0 14))
    let t := ready .ocb (fed .ocb (session .ocb .dec 128 12 []) (rising 0 30))
    s.cfg.variant = .ocb ∧ s.eng.phase ≠ .uninit ∧ s.eng.dir = .enc ∧ s.eng.mainPos < 15 ∧ 64 ≤ s.outWin.cap.toNat ∧
    t.eng.phase ≠ .uninit ∧ t.eng.dir = .dec ∧ t.eng.mainPos < 15 + t.eng.tagLen := by decide +kernel

/-- Two blocks emitted, one by each part. -/
theorem witness_payloadSplit :
    StateInv sealing ∧ sealing.mem.wf = true ∧ WindowsApart sealing ∧
    exec (.processBytes 28 (1 + 16) 32) sealing = .next (after (exec (.processBytes 28 17 32) sealing)) ∧
    (after (exec (.processBytes 28 17 32) sealing)).responses = sealing.responses ++ [⟨.ok, 32#64, []⟩] :=
  ⟨inv_sealing, by decide +kernel, .inl (by decide +kernel), after_eq (by decide +kernel), by decide +kernel⟩

/-- OCB decryption with the 16 bytes of the tag of an empty message received (V1 under `TOYXOR`, key `01`s, P4's nonce). -/
def openable : State :=
  ready .ocb (fed .ocb (session .ocb .dec 128 12 []) [2#8, 2#8, 2#8, 3#8, 2#8, 2#8, 2#8, 2#8, 2#8, 2#8, 2#8, 2#8, 2#8, 2#8, 2#8, 2#8])

theorem inv_openable : StateInv openable := ⟨by decide, engineInv_of (by decide +kernel)⟩

/-- CCM decryption with the frame of `ccmSealing` received, and with as many other bytes. -/
def ccmOpenable : State := ready .ccm (fed .ccm (session .ccm .dec 64 7 []) (finalFrame (toy .ccm) ccmSealing.eng).1)
def ccmForged : State := ready .ccm (fed .ccm (session .ccm .dec 64 7 []) (rising 0x10 11))

theorem inv_ccmOpenable : StateInv ccmOpenable := ⟨by decide, engineInv_of (by decide +kernel)⟩
theorem inv_ccmForged : StateInv ccmForged := ⟨by decide, engineInv_of (by decide +kernel)⟩

/-- Encryption, with the frame to the end of `OUT`, and decryption with a verified tag at the last offset, on both variants. -/
theorem witness_doFinalWrites :
    EngineInv sealing.cfg sealing.eng ∧ sealing.mem.wf = true ∧ sealing.eng.phase ≠ .uninit ∧ sealing.eng.dir = .enc ∧
    33 + outSize sealing.cfg sealing.eng 0 ≤ sealing.outWin.cap.toNat ∧
    EngineInv openable.cfg openable.eng ∧ openable.eng.phase ≠ .uninit ∧
    (openable.eng.dir = .dec → openable.eng.tagLen ≤ held openable.cfg openable.eng ∧ (finalFrame openable.cfg openable.eng).2.2 = true) ∧
    64 + outSize openable.cfg openable.eng 0 ≤ openable.outWin.cap.toNat ∧
    EngineInv ccmSealing.cfg ccmSealing.eng ∧ ccmSealing.eng.phase ≠ .uninit ∧ ccmSealing.eng.dir = .enc ∧
    EngineInv ccmOpenable.cfg ccmOpenable.eng ∧ ccmOpenable.mem.wf = true ∧ ccmOpenable.eng.phase ≠ .uninit ∧
    ccmOpenable.eng.dir = .dec ∧ ccmOpenable.eng.tagLen ≤ held ccmOpenable.cfg ccmOpenable.eng ∧
    (finalFrame ccmOpenable.cfg ccmOpenable.eng).2.2 = true ∧
    61 + outSize ccmOpenable.cfg ccmOpenable.eng 0 ≤ ccmOpenable.outWin.cap.toNat :=
  ⟨inv_sealing.2, by decide +kernel, by decide +kernel, by decide +kernel, by decide +kernel, inv_openable.2, by decide +kernel,
    by decide +kernel, by decide +kernel, inv_ccmSealing.2, by decide +kernel, by decide +kernel, inv_ccmOpenable.2,
    by decide +kernel, by decide +kernel, by decide +kernel, by decide +kernel, by decide +kernel, by decide +kernel⟩

theorem witness_doFinalTruncated :
    truncated.eng.phase ≠ .uninit ∧ truncated.eng.dir = .dec ∧ held truncated.cfg truncated.eng < truncated.eng.tagLen := by
  decide +kernel

theorem witness_doFinalRetried :
    sealing.eng.phase ≠ .uninit ∧ (sealing.eng.dir = .dec → sealing.eng.tagLen ≤ held sealing.cfg sealing.eng) ∧
    sealing.outWin.cap.toNat < 34 + outSize sealing.cfg sealing.eng 0 := by decide +kernel

theorem witness_doFinalForged :
    EngineInv opening.cfg opening.eng ∧ opening.eng.phase ≠ .uninit ∧ opening.eng.dir = .dec ∧
    opening.eng.tagLen ≤ held opening.cfg opening.eng ∧ 49 + outSize opening.cfg opening.eng 0 ≤ opening.outWin.cap.toNat ∧
    opening.cfg.variant ≠ .ccm ∧
    (rising 0x1F 16) = opening.eng.ocb.mainBuf.drop (opening.eng.ocb.mainBuf.length - opening.eng.tagLen) ∧
    (finalFrame opening.cfg opening.eng).2.1 ≠ rising 0x1F 16 :=
  ⟨inv_opening.2, by decide +kernel, by decide +kernel, by decide +kernel, by decide +kernel, by decide, by decide +kernel,
    by decide +kernel⟩

/-- The same on CCM: three bytes of payload, eight that are not their tag. -/
theorem witness_doFinalForged_ccm :
    EngineInv ccmForged.cfg ccmForged.eng ∧ ccmForged.eng.phase ≠ .uninit ∧ ccmForged.eng.dir = .dec ∧
    ccmForged.eng.tagLen ≤ held ccmForged.cfg ccmForged.eng ∧
    61 + outSize ccmForged.cfg ccmForged.eng 0 ≤ ccmForged.outWin.cap.toNat ∧ ccmForged.cfg.variant ≠ .ocb ∧
    (rising 0x13 8) = ccmForged.eng.ccm.dataBuf.drop (ccmForged.eng.ccm.dataBuf.length - ccmForged.eng.tagLen) ∧
    (finalFrame ccmForged.cfg ccmForged.eng).2.1 ≠ rising 0x13 8 :=
  ⟨inv_ccmForged.2, by decide +kernel, by decide +kernel, by decide +kernel, by decide +kernel, by decide, by decide +kernel,
    by decide +kernel⟩

theorem witness_tagComparator : [1#8, 2#8].length = [1#8, 3#8].length ∧ tagEqual [1#8, 2#8] [1#8, 3#8] = false := by decide

theorem witness_ccmOpens :
    16 ≤ 16 ∧ (zeroBytes 13).length ≤ 13 ∧
    ccmFinal .toyXor key (zeroBytes 13) .enc 16 ⟨[], [1#8]⟩ =
      ((ccmFinal .toyXor key (zeroBytes 13) .enc 16 ⟨[], [1#8]⟩).1, (ccmFinal .toyXor key (zeroBytes 13) .enc 16 ⟨[], [1#8]⟩).2.1, true) :=
  ⟨by decide, by decide, rfl⟩

theorem witness_ocbOpens : 16 ≤ 16 ∧ OcbFresh (session .ocb .enc 128 12 []).ocb := by
  unfold OcbFresh; decide +kernel

theorem witness_getMac : openable.eng.macValid = false ∧
    ({ openable with eng := { openable.eng with mac := rising 1 16, macValid := true } } : State).eng.macValid = true := by
  decide +kernel

theorem witness_resetStarts : fresh.eng.phase = .uninit ∧ sealing.eng.phase ≠ .uninit := by decide +kernel

theorem witness_resetForgets :
    let s' := ready .ocb (session .ocb .enc 128 12 [])
    sealing.cfg = s'.cfg ∧ SameSessionParams sealing.eng s'.eng ∧ OtherVariantUnused sealing ∧ OtherVariantUnused s' ∧
    sealing.eng.phase ≠ .uninit ∧ s'.eng.phase ≠ .uninit ∧
    exec .reset sealing = .next (after (exec .reset sealing)) ∧ exec .reset s' = .next (after (exec .reset s')) ∧
    exec .reset (after (exec .reset sealing)) = .next (after (exec .reset (after (exec .reset sealing)))) :=
  ⟨rfl, by unfold SameSessionParams; decide +kernel, show sealing.eng.ccm = .empty by decide +kernel,
    show (session .ocb .enc 128 12 []).ccm = .empty by decide +kernel, by decide +kernel, by decide +kernel,
    after_eq (by decide +kernel), after_eq (by decide +kernel), after_eq (by decide +kernel)⟩

theorem witness_sizeQueries :
    sealing.eng.phase ≠ .uninit ∧ fresh.eng.phase = .uninit ∧ StateInv sealing ∧ 4294967295 < 2 ^ 32 :=
  ⟨by decide +kernel, rfl, inv_sealing, by decide⟩

/-- One that emits a block, one that emits nothing, and CCM. -/
theorem witness_sizesAdd :
    updSize sealing.cfg sealing.eng 0 = 0 ∧ ccmSealing.cfg.variant = .ccm ∧
    exec (.processBytes 28 0 0) sealing = .next (after (exec (.processBytes 28 0 0) sealing)) ∧
    exec (.processBytes 28 5 0) ccmSealing = .next (after (exec (.processBytes 28 5 0) ccmSealing)) ∧
    StateInv opening ∧ exec (.processBytes 28 1 0) opening = .next (after (exec (.processBytes 28 1 0) opening)) ∧
    (after (exec (.processBytes 28 1 0) opening)).responses = opening.responses ++ [⟨.ok, 16#64, []⟩] :=
  ⟨by decide +kernel, rfl, after_eq (by decide +kernel), after_eq (by decide +kernel), inv_opening, after_eq (by decide +kernel),
    by decide +kernel⟩

/-- At the boundary: as many bytes as the tag has. -/
theorem witness_noPlaintext :
    truncated.eng.dir = .dec ∧ held truncated.cfg truncated.eng + 1 ≤ truncated.eng.tagLen ∧
    (session .ccm .dec 64 7 []).dir = .dec ∧ held (toy .ccm) (session .ccm .dec 64 7 []) + 8 ≤ (session .ccm .dec 64 7 []).tagLen := by
  decide +kernel

theorem witness_doubling : dbl 1#128 = dbl (0#128 ^^^ 1#128) := by decide

theorem witness_ntz : 0 < 2 ^ 63 ∧ 2 ^ 63 < 2 ^ 64 ∧ ntz (2 ^ 63) = 63 ∧ 0 < 1 ∧ ntz 1 = 0 := by decide +kernel

/-- Both ends of the nonce lengths and of the tag lengths. -/
theorem witness_ccmBlocks :
    7 ≤ (zeroBytes 7).length ∧ (zeroBytes 7).length ≤ 13 ∧ 7 ≤ (zeroBytes 13).length ∧ (zeroBytes 13).length ≤ 13 ∧ 4 ≤ 4 ∧ 4 ≤ 16 ∧
    4 ≤ 16 ∧ 16 ≤ 16 := by decide

end Sys2Proof.Tests
end

section
/-! PROOFS. The block transform (00_scope.md R9, R10; 95_test_vectors.md section 0). -/

namespace Sys2Proof.Machine

theorem blockE_toyXor (k : List Byte) (x : Block) : blockE .toyXor k x = x ^^^ blockOfBytes k := rfl

/-- `E` inverts `D`: R9 names only `blockD_blockE_cancel`, and log 2 makes an external transform a permutation of the blocks. -/
theorem blockE_blockD_cancel (t : Transform) (k : List Byte) (x : Block) : blockE t k (blockD t k x) = x := by
  cases t with
  | toyXor => simp [blockE, blockD]
  | external n => exact (Config.externalPerm n k).apply_symm_apply x

theorem keyOk_toyXor_iff (k : List Byte) : keyOk .toyXor k = true ↔ k.length = 16 := by
  simp [keyOk]

/-- Settles O56, also for keys that are not accepted (the model choice of logs 2 and 3): no case asks for `keyOk`. -/
theorem transformInverts : Obligations.TransformInverts :=
  ⟨fun t k x => ⟨blockD_blockE_cancel t k x, blockE_blockD_cancel t k x⟩,
    fun k x => ⟨blockE_toyXor k x, keyOk_toyXor_iff k⟩⟩

end Sys2Proof.Machine
end

section
/-! PROOFS. What a step does to the registers of the engine, said once: one constructor per thing a command, a move of the
host or a power-on can do, with the checks that let it happen. The invariants of 10_state.md follow case by case. -/

namespace Sys2Proof.Machine

/-! ### The operations on the registers, by variant -/

section ByVariant
variable {c : Config} {e : Engine}

theorem absorbAad_ccm (hv : c.variant = .ccm) (a : List Byte) :
    absorbAad c e a = { e with ccm := { e.ccm with aadBuf := e.ccm.aadBuf ++ a } } := by
  simp only [absorbAad, hv]

theorem absorbAad_ocb (hv : c.variant = .ocb) (a : List Byte) :
    absorbAad c e a = { e with ocb := hashFeed c.transform e.key e.ocb a } := by
  simp only [absorbAad, hv]

theorem feedPayload_ccm (hv : c.variant = .ccm) (p : List Byte) :
    (feedPayload c e p).1 = { e with phase := .data, ccm := { e.ccm with dataBuf := e.ccm.dataBuf ++ p } } := by
  simp only [feedPayload, hv]

theorem feedPayload_ocb (hv : c.variant = .ocb) (p : List Byte) :
    (feedPayload c e p).1 =
      { e with phase := .data, ocb := (windowFeed c.transform e.key e.dir e.tagLen e.ocb p).1 } := by
  simp only [feedPayload, hv]

/-- The capacity check of R141 that PROCESS_AAD passed, on CCM. -/
theorem aadBuf_bound_of_accepted (hv : c.variant = .ccm) {n : Nat} (h : aadCapacityExceeded c e n = false) :
    e.ccm.aadBuf.length + n ≤ c.ccmAadMax := by
  simpa [aadCapacityExceeded, hv] using h

/-- The capacity check of R144 that a payload command passed, on CCM: `ccm_qmax` is at most `CCM_DATA_MAX`. -/
theorem dataBuf_bound_of_accepted (hv : c.variant = .ccm) {n u : Nat} (h : dataCapacityExceeded c e n u = false) :
    e.ccm.dataBuf.length + n ≤ c.ccmDataMax := by
  have hq : e.ccm.dataBuf.length + n ≤ ccmQmax c e := by simpa [dataCapacityExceeded, hv] using h
  exact hq.trans (Nat.min_le_left _ _)

end ByVariant

/-- An accepted tag length is at most 16 bytes (R132), so a tag cut from one block has it. -/
theorem tagLen_le_of_tagBitsOk {v : Variant} {m : Nat} (h : tagBitsOk v (8 * m) = true) : m ≤ 16 := by
  have := (tagBitsOk_bytes h).2
  omega

/-- The tag of the final procedure has `TAG_LEN` bytes, one block at most. -/
theorem length_finalFrame_tag (c : Config) (e : Engine) : (finalFrame c e).2.1.length = min e.tagLen 16 := by
  unfold finalFrame
  cases c.variant with
  | ccm => cases e.dir <;> exact length_ccmTag ..
  | ocb => cases e.dir <;> exact length_ocbTag ..

/-! ### What a command can do to the registers -/

/-- What a command other than a successful INIT can do to the registers. -/
inductive SessionEffect (c : Config) (e : Engine) : Engine → Prop where
  /-- An error other than INVALID_CIPHERTEXT, or a query (R388). -/
  | keep : SessionEffect c e e
  /-- PROCESS_AAD (R140). -/
  | absorb (a : List Byte) (started : e.phase ≠ .uninit) (beforeData : e.phase ≠ .data)
      (fits : aadCapacityExceeded c e a.length = false) : SessionEffect c e { absorbAad c e a with phase := .aad }
  /-- PROCESS_BYTES and PROCESS_BYTE (R143, R146). -/
  | feed (p : List Byte) (started : e.phase ≠ .uninit)
      (fits : dataCapacityExceeded c e p.length (updSize c e p.length) = false) : SessionEffect c e (feedPayload c e p).1
  /-- INVALID_CIPHERTEXT (R385). -/
  | restart (started : e.phase ≠ .uninit) : SessionEffect c e (sessionStart c e)
  /-- DO_FINAL (R160). -/
  | finish (started : e.phase ≠ .uninit) (verified : (finalFrame c e).2.2 = true) :
      SessionEffect c e { sessionStart c e with mac := (finalFrame c e).2.1, macValid := true }
  /-- RESET (R172). -/
  | forget (started : e.phase ≠ .uninit) : SessionEffect c e { sessionStart c e with mac := [], macValid := false }

/-- What a step can do to the registers. -/
inductive StepEffect (c : Config) (e : Engine) : Engine → Prop where
  | session {e' : Engine} (h : SessionEffect c e e') : StepEffect c e e'
  /-- A successful INIT (R131): the key is one the transform accepts, or the retained one (R134, R135). -/
  | init (dir : Dir) (tagBits : Nat) (k n ad : List Byte)
      (key : keyOk c.transform k = true ∨ e.keyValid = true ∧ k = e.key) (tag : tagBitsOk c.variant tagBits = true)
      (nonce : nonceLenOk c.variant n.length = true) (fits : ad.length ≤ c.initAdMax) :
      StepEffect c e (commitInit c e dir tagBits k n ad)
  /-- Power-on (R430). -/
  | powerOn : StepEffect c e .reset

section Exec
variable {s t : State}

/-- An answer that leaves the registers alone. -/
theorem SessionEffect.of_answered {r : Response} (h : t = s.answered r) : SessionEffect s.cfg s.eng t.eng := by
  subst h; exact .keep

/-- Every command is a successful INIT, or has one of the effects of a session. -/
theorem exec_effect {i : Instr} (h : exec i s = .next t) :
    (∃ dir kp ap tagBits koff klen noff nlen aoff alen,
      i = .init dir kp ap tagBits koff klen noff nlen aoff alen ∧
      InitAccepted s kp ap tagBits koff klen noff nlen aoff alen ∧
      t = (s.withEngine (commitInit s.cfg s.eng dir tagBits (initKeyBytes s kp koff klen) (s.inRead noff nlen)
        (initAdBytes s ap aoff alen))).answered (okResponse 0 [])) ∨
    SessionEffect s.cfg s.eng t.eng := by
  have answer {u : State} (hu : exec i s = .next u) : t = u := Host.Outcome.next.inj (h.symm.trans hu)
  cases i with
  | init dir kp ap tagBits koff klen noff nlen aoff alen =>
    obtain ⟨_, -, -, he⟩ | ⟨hacc, he⟩ := execInit_cases dir kp ap tagBits koff klen noff nlen aoff alen s
    · exact .inr (.of_answered (answer he))
    · exact .inl ⟨_, _, _, _, _, _, _, _, _, _, rfl, hacc, answer he⟩
  | processAad inOff inLen =>
    obtain ⟨_, -, he⟩ | ⟨hu, hd, -, hc, he⟩ := execProcessAad_cases inOff inLen s
    · exact .inr (.of_answered (answer he))
    · exact .inr (answer he ▸ .absorb (s.inRead inOff inLen) hu hd (by simpa using hc))
  | processBytes inOff inLen outOff =>
    obtain ⟨_, -, he⟩ | ⟨hu, -, -, hc, he⟩ := execProcessBytes_cases inOff inLen outOff s
    · exact .inr (.of_answered (answer he))
    · exact .inr (answer he ▸ .feed (s.inRead inOff inLen) hu (by simpa using hc))
  | processByte byte outOff =>
    obtain ⟨_, -, he⟩ | ⟨hu, -, hc, he⟩ := execProcessByte_cases byte outOff s
    · exact .inr (.of_answered (answer he))
    · exact .inr (answer he ▸ .feed [byte] hu hc)
  | doFinal outOff =>
    obtain ⟨_, -, he⟩ | ⟨hu, -, he⟩ | ⟨hu, -, -, hv, he⟩ := execDoFinal_cases outOff s
    · exact .inr (.of_answered (answer he))
    · exact .inr (answer he ▸ .restart hu)
    · exact .inr (answer he ▸ .finish hu hv)
  | getMac => exact .inr (.of_answered (answer (execGetMac_eq s)))
  | reset =>
    obtain ⟨-, he⟩ | ⟨hu, he⟩ := execReset_cases s
    · exact .inr (.of_answered (answer he))
    · exact .inr (answer he ▸ .forget hu)
  | getUpdateOutputSize len =>
    obtain ⟨-, he⟩ | ⟨-, he⟩ := execGetUpdateOutputSize_cases len s <;> exact .inr (.of_answered (answer he))
  | getOutputSize len =>
    obtain ⟨-, he⟩ | ⟨-, he⟩ := execGetOutputSize_cases len s <;> exact .inr (.of_answered (answer he))
  | getAlgorithmName => exact .inr (.of_answered (answer (execGetAlgorithmName_eq s)))

/-- The frame of a command: it changes nothing but the registers, the storage and the responses (R20, R60). -/
theorem exec_frame {i : Instr} (h : exec i s = .next t) :
    t.cfg = s.cfg ∧ t.inWin = s.inWin ∧ t.outWin = s.outWin ∧ t.port = s.port ∧ t.moves = s.moves ∧
      t.freeCount = s.freeCount := by
  obtain ⟨_, _, _, _, he⟩ | ⟨_, -, -, he⟩ | ⟨-, he⟩ := exec_cases i s <;>
    exact Host.Outcome.next.inj (h.symm.trans he) ▸ ⟨rfl, rfl, rfl, rfl, rfl, rfl⟩

theorem initAdBytes_length_le {kp ap : Bool} {tagBits koff klen noff nlen aoff alen : Nat}
    (h : InitAccepted s kp ap tagBits koff klen noff nlen aoff alen) :
    (initAdBytes s ap aoff alen).length ≤ s.cfg.initAdMax := by
  obtain ⟨-, -, -, had, -⟩ := h
  cases ap with
  | false => simp [initAdBytes]
  | true => simpa [initAdBytes] using (had rfl).2

theorem initKeyBytes_accepted {kp ap : Bool} {tagBits koff klen noff nlen aoff alen : Nat}
    (h : InitAccepted s kp ap tagBits koff klen noff nlen aoff alen) :
    keyOk s.cfg.transform (initKeyBytes s kp koff klen) = true ∨
      s.eng.keyValid = true ∧ initKeyBytes s kp koff klen = s.eng.key := by
  obtain ⟨hsupplied, hretained, -⟩ := h
  cases kp with
  | false => exact .inr ⟨hretained rfl, rfl⟩
  | true => exact .inl (hsupplied rfl).2

theorem exec_stepEffect {i : Instr} (h : exec i s = .next t) : StepEffect s.cfg s.eng t.eng := by
  obtain ⟨dir, kp, ap, tagBits, koff, klen, noff, nlen, aoff, alen, -, hacc, rfl⟩ | he := exec_effect h
  · have ⟨_, _, _, _, htag, hnonce⟩ := hacc
    exact .init dir tagBits _ _ _ (initKeyBytes_accepted hacc) htag (by simpa using hnonce) (initAdBytes_length_le hacc)
  · exact .session he

end Exec

/-! ### What a step can do to the registers -/

theorem loseCommand_eng_cfg (s : State) : s.loseCommand.eng = .reset ∧ s.loseCommand.cfg = s.cfg := by
  obtain h | ⟨_, -, h⟩ := loseCommand_cases s <;> simp [h]

/-- A move of the host keeps the parameters, and the registers too unless it is a power-on (R430, R441). -/
theorem afterMove_eng_cfg (s : State) (m : HostMove) :
    ((s.afterMove m).eng = s.eng ∨ (s.afterMove m).eng = .reset) ∧ (s.afterMove m).cfg = s.cfg := by
  cases m with
  | send words => exact ⟨.inl rfl, rfl⟩
  | present inp out => exact ⟨.inl rfl, rfl⟩
  | store addr bytes => exact ⟨.inl rfl, rfl⟩
  | powerOn => exact ⟨.inr rfl, rfl⟩
  | sendLost words =>
    obtain ⟨heng, hcfg⟩ := loseCommand_eng_cfg { s with port := s.port ++ words }
    exact ⟨.inr heng, hcfg⟩

theorem takeMove_effect {s t : State} (h : takeMove s = .next t) : t.cfg = s.cfg ∧ StepEffect s.cfg s.eng t.eng := by
  unfold takeMove at h
  split at h
  · cases h; exact ⟨rfl, .session .keep⟩
  · rename_i m ms _
    obtain ⟨-, hf⟩ | ⟨-, hn⟩ := hostMove_cases m { s with moves := ms }
    · rw [hf] at h; cases h
    · rw [hn] at h
      cases h
      obtain ⟨heng | heng, hcfg⟩ := afterMove_eng_cfg { s with moves := ms } m <;> refine ⟨hcfg, ?_⟩ <;> rw [heng]
      · exact .session .keep
      · exact .powerOn

/-- No step changes the parameters, and what it does to the registers is one of the effects listed. -/
theorem step_effect {s t : State} (h : step s = .next t) : t.cfg = s.cfg ∧ StepEffect s.cfg s.eng t.eng := by
  obtain ⟨i, rest, -, hs⟩ | ⟨why, rest, -, hs⟩ | ⟨-, hs⟩ := step_cases s <;> rw [hs] at h
  · exact ⟨(exec_frame h).1, exec_stepEffect (s := { s with port := rest }) h⟩
  · cases h; exact ⟨rfl, .session .keep⟩
  · exact takeMove_effect h

/-- Settles O19: the frame of a command is `exec_frame`. -/
theorem commandsKeepParametersAndWindows : Obligations.CommandsKeepParametersAndWindows :=
  ⟨fun _ _ _ h => exec_frame h, fun _ _ h => (step_effect h).1⟩

end Sys2Proof.Machine
end

section
/-! PROOFS. The session parameters (10_state.md R49) and the registers of the other variant (R20). -/

namespace Sys2Proof.Machine

theorem SameParams.refl (e : Engine) : SameParams e e := ⟨rfl, rfl, rfl, rfl, rfl, rfl⟩

theorem SessionEffect.sameParams {c : Config} {e e' : Engine} (h : SessionEffect c e e') : SameParams e e' := by
  cases h with
  | keep => exact .refl e
  | absorb a =>
    obtain ⟨hdir, hkey, hvalid, hnonce, htag, had⟩ := absorbAad_sameParams c e a
    exact ⟨hdir, hkey, hvalid, hnonce, htag, had⟩
  | feed p => exact (feedPayload_sameParams c e p).1
  | restart => exact sessionStart_sameParams c e
  | finish | forget =>
    obtain ⟨hdir, hkey, hvalid, hnonce, htag, had⟩ := sessionStart_sameParams c e
    exact ⟨hdir, hkey, hvalid, hnonce, htag, had⟩

theorem SameParams.sameSessionParams {e e' : Engine} (h : SameParams e e') : SameSessionParams e e' :=
  ⟨h.dir, h.key, h.keyValid, h.nonce, h.tagLen, h.initAd⟩

/-- Settles O16: every effect of a session keeps the session parameters, and what is left is a successful INIT. -/
theorem onlyInitWritesTheSessionParameters : Obligations.OnlyInitWritesTheSessionParameters := by
  intro i s t h hdiff
  obtain ⟨dir, kp, ap, tagBits, koff, klen, noff, nlen, aoff, alen, rfl, -, rfl⟩ | he := exec_effect h
  · exact ⟨⟨_, _, _, _, _, _, _, _, _, _, rfl⟩, rfl⟩
  · exact absurd he.sameParams.sameSessionParams hdiff

/-- The registers that the variant of `c` does not use are those of `e`. -/
def SameUnused (c : Config) (e e' : Engine) : Prop :=
  (c.variant = .ocb → e'.ccm = e.ccm) ∧ (c.variant = .ccm → e'.ocb = e.ocb)

theorem SessionEffect.sameUnused {c : Config} {e e' : Engine} (h : SessionEffect c e e') : SameUnused c e e' := by
  cases h with
  | keep => exact ⟨fun _ => rfl, fun _ => rfl⟩
  | absorb a => exact ⟨fun hv => by rw [absorbAad_ocb hv], fun hv => by rw [absorbAad_ccm hv]⟩
  | feed p => exact ⟨fun hv => by rw [feedPayload_ocb hv], fun hv => by rw [feedPayload_ccm hv]⟩
  | restart | finish | forget => exact sessionStart_other c e

theorem otherVariantUnused_iff (s : State) :
    OtherVariantUnused s ↔
      (s.cfg.variant = .ocb → s.eng.ccm = .empty) ∧ (s.cfg.variant = .ccm → s.eng.ocb = .zero) := by
  unfold OtherVariantUnused
  cases s.cfg.variant <;> simp

theorem OtherVariantUnused.of_sameUnused {s t : State} (hs : OtherVariantUnused s) (hc : t.cfg = s.cfg)
    (h : SameUnused s.cfg s.eng t.eng) : OtherVariantUnused t := by
  rw [otherVariantUnused_iff] at hs ⊢
  rw [hc]
  exact ⟨fun hv => (h.1 hv).trans (hs.1 hv), fun hv => (h.2 hv).trans (hs.2 hv)⟩

/-- Settles O22: a step leaves the registers of the other variant alone, but for a power-on, which sets all. -/
theorem stepKeepsTheOtherVariantUnused : Obligations.StepKeepsTheOtherVariantUnused := by
  intro s t hs h
  obtain ⟨hc, he⟩ := step_effect h
  generalize hte : t.eng = e at he
  cases he with
  | session he => exact hs.of_sameUnused hc (hte ▸ he.sameUnused)
  | init dir tagBits k n ad => exact hs.of_sameUnused hc (hte ▸ sessionStart_other ..)
  | powerOn => exact (otherVariantUnused_iff t).2 (hte ▸ ⟨fun _ => rfl, fun _ => rfl⟩)

end Sys2Proof.Machine
end

section
/-! PROOFS. The OCB key-derived constants (10_state.md R28 to R30; 43_ocb_offset_mac.md R282, R283). -/

namespace Sys2Proof.Machine

/-- The constants in the OCB registers are those of the key `k`. -/
def ConstantsOf (t : Transform) (k : List Byte) (r : OcbRegs) : Prop :=
  r.lStar = blockE t k 0#128 ∧ r.lDollar = dbl r.lStar ∧ r.ltAt 0 = dbl r.lDollar ∧
    ∀ j, 1 ≤ j → j ≤ 63 → r.ltAt j = dbl (r.ltAt (j - 1))

theorem derivedConstantsOk_iff (s : State) :
    DerivedConstantsOk s ↔
      (s.cfg.variant = .ocb → s.eng.phase ≠ .uninit → ConstantsOf s.cfg.transform s.eng.key s.eng.ocb) := Iff.rfl

theorem ConstantsOf.congr {t : Transform} {k : List Byte} {r r' : OcbRegs} (h : ConstantsOf t k r)
    (hs : r'.lStar = r.lStar) (hd : r'.lDollar = r.lDollar) (hl : r'.lt = r.lt) : ConstantsOf t k r' := by
  simpa only [ConstantsOf, OcbRegs.ltAt, hs, hd, hl] using h

theorem ConstantsOf.absorb {t : Transform} {k : List Byte} {r : OcbRegs} (h : ConstantsOf t k r) (a : List Byte) :
    ConstantsOf t k (hashFeed t k r a) :=
  have hsame := hashFeed_samePayloadSide t k r a
  h.congr hsame.lStar hsame.lDollar hsame.lt

theorem ConstantsOf.feed {t : Transform} {k : List Byte} {r : OcbRegs} (h : ConstantsOf t k r) (dir : Dir)
    (tagLen : Nat) (p : List Byte) : ConstantsOf t k (windowFeed t k dir tagLen r p).1 :=
  have hsame := windowFeed_sameHashSide t k dir tagLen r p
  h.congr hsame.lStar hsame.lDollar hsame.lt

theorem ocbSessionStart_ltAt (t : Transform) (k nonce : List Byte) (tagLen : Nat) {j : Nat} (hj : j < 64) :
    (ocbSessionStart t k nonce tagLen).ltAt j = dblTimes (j + 1) (dbl (blockE t k 0#128)) := by
  simp [OcbRegs.ltAt, ocbSessionStart, doublingTable, hj]

theorem constantsOf_ocbSessionStart (t : Transform) (k nonce : List Byte) (tagLen : Nat) :
    ConstantsOf t k (ocbSessionStart t k nonce tagLen) := by
  refine ⟨rfl, rfl, ocbSessionStart_ltAt t k nonce tagLen (by decide), fun j h1 h63 => ?_⟩
  obtain ⟨i, rfl⟩ : ∃ i, j = i + 1 := ⟨j - 1, by omega⟩
  rw [Nat.add_sub_cancel, ocbSessionStart_ltAt t k nonce tagLen (by omega : i + 1 < 64),
    ocbSessionStart_ltAt t k nonce tagLen (by omega : i < 64)]
  rfl

/-- A session start derives the constants from the key it runs under, whatever they were (R150). -/
theorem constantsOf_sessionStart {c : Config} (hv : c.variant = .ocb) (e : Engine) :
    ConstantsOf c.transform e.key (sessionStart c e).ocb := by
  rw [sessionStart_ocb c e hv]
  exact (constantsOf_ocbSessionStart ..).absorb _

/-- The constants belong to the key the session holds. -/
theorem SessionEffect.constantsOf {c : Config} {e e' : Engine} (he : SessionEffect c e e') (hv : c.variant = .ocb)
    (h : e.phase ≠ .uninit → ConstantsOf c.transform e.key e.ocb) (hu : e'.phase ≠ .uninit) :
    ConstantsOf c.transform e.key e'.ocb := by
  cases he with
  | keep => exact h hu
  | absorb a started => rw [absorbAad_ocb hv]; exact (h started).absorb a
  | feed p started => rw [feedPayload_ocb hv]; exact (h started).feed e.dir e.tagLen p
  | restart | finish | forget => exact constantsOf_sessionStart hv e

/-- Settles O23: the streams never write the constants, and each session start derives them anew. -/
theorem stepKeepsTheDerivedConstants : Obligations.StepKeepsTheDerivedConstants := by
  intro s t hs h
  obtain ⟨hc, he⟩ := step_effect h
  rw [derivedConstantsOk_iff] at hs ⊢
  rw [hc]
  intro hv hu
  generalize t.eng = e at he hu ⊢
  cases he with
  | session he => rw [he.sameParams.key]; exact he.constantsOf hv (hs hv) hu
  | init dir tagBits k n ad =>
    have hkey : (commitInit s.cfg s.eng dir tagBits k n ad).key = k := (sessionStart_sameParams ..).key
    rw [hkey]
    exact constantsOf_sessionStart hv (s.eng.withParams dir tagBits k n ad)
  | powerOn => exact absurd rfl hu

end Sys2Proof.Machine
end

section
/-! PROOFS. The register invariant (10_state.md R42). -/

namespace Sys2Proof.Machine

/-! ### The parts of the invariant -/

/-- `ParamsOk` once a session exists: the session parameters are ones INIT accepts. -/
structure SessionParamsOk (c : Config) (e : Engine) : Prop where
  keyValid : e.keyValid = true
  key : keyOk c.transform e.key = true
  tagBits : tagBitsOk c.variant (8 * e.tagLen) = true
  nonce : nonceLenOk c.variant e.nonce.length = true
  initAd : e.initAd.length ≤ c.initAdMax

section Parts
variable {c : Config} {e e' : Engine}

theorem paramsOk_uninit (hu : e.phase = .uninit) : ParamsOk c e ↔ e.keyValid = false ∧ e.macValid = false := by
  simp only [ParamsOk, hu]

theorem paramsOk_session (hu : e.phase ≠ .uninit) : ParamsOk c e ↔ SessionParamsOk c e := by
  have hiff : SessionParamsOk c e ↔ e.keyValid = true ∧ keyOk c.transform e.key = true ∧
      tagBitsOk c.variant (8 * e.tagLen) = true ∧ nonceLenOk c.variant e.nonce.length = true ∧
      e.initAd.length ≤ c.initAdMax :=
    ⟨fun ⟨hvalid, hkey, htag, hnonce, had⟩ => ⟨hvalid, hkey, htag, hnonce, had⟩,
      fun ⟨hvalid, hkey, htag, hnonce, had⟩ => ⟨hvalid, hkey, htag, hnonce, had⟩⟩
  rw [hiff]
  unfold ParamsOk
  cases hp : e.phase with
  | uninit => exact absurd hp hu
  | ready | aad | data => exact Iff.rfl

theorem SessionParamsOk.congr (h : SessionParamsOk c e) (hs : SameParams e e') : SessionParamsOk c e' where
  keyValid := hs.keyValid ▸ h.keyValid
  key := hs.key ▸ h.key
  tagBits := hs.tagLen ▸ h.tagBits
  nonce := hs.nonce ▸ h.nonce
  initAd := hs.initAd ▸ h.initAd

theorem ParamsOk.congr (h : ParamsOk c e) (hu : e.phase ≠ .uninit) (hu' : e'.phase ≠ .uninit) (hs : SameParams e e') :
    ParamsOk c e' :=
  (paramsOk_session hu').2 (((paramsOk_session hu).1 h).congr hs)

/-- A retained key is one the transform accepted (R134, R135). -/
theorem ParamsOk.key_of_keyValid (h : ParamsOk c e) (hk : e.keyValid = true) : keyOk c.transform e.key = true := by
  by_cases hu : e.phase = .uninit
  · have hno := ((paramsOk_uninit hu).1 h).1
    rw [hk] at hno
    cases hno
  · exact ((paramsOk_session hu).1 h).key

theorem mainWindowOk_enc (hd : e.dir = .enc) : MainWindowOk e ↔ e.ocb.mainBuf.length ≤ 15 := by
  simp only [MainWindowOk, hd, Engine.mainPos]

theorem mainWindowOk_dec (hd : e.dir = .dec) :
    MainWindowOk e ↔
      e.ocb.mainBuf.length ≤ 15 + e.tagLen ∧ (e.ocb.mainCount ≠ 0#64 → e.tagLen ≤ e.ocb.mainBuf.length) := by
  simp only [MainWindowOk, hd, Engine.mainPos]

theorem MainWindowOk.congr (h : MainWindowOk e) (hd : e'.dir = e.dir) (ht : e'.tagLen = e.tagLen)
    (hb : e'.ocb.mainBuf = e.ocb.mainBuf) (hm : e'.ocb.mainCount = e.ocb.mainCount) : MainWindowOk e' := by
  simpa only [MainWindowOk, Engine.mainPos, hd, ht, hb, hm] using h

/-- An empty window before the first block. -/
theorem mainWindowOk_of_empty (hb : e.ocb.mainBuf = []) (hm : e.ocb.mainCount = 0#64) : MainWindowOk e := by
  cases hd : e.dir with
  | enc => simp [mainWindowOk_enc hd, hb]
  | dec => simp [mainWindowOk_dec hd, hb, hm]

theorem MainWindowOk.lt_windowCap (h : MainWindowOk e) : e.ocb.mainBuf.length < windowCap e.dir e.tagLen := by
  cases hd : e.dir with
  | enc => have := (mainWindowOk_enc hd).1 h; simp only [windowCap]; omega
  | dec => have := (mainWindowOk_dec hd).1 h; simp only [windowCap]; omega

/-- Feeding the payload keeps the window within R42: on decryption a block leaves it only when `TAG_LEN` bytes stay (R344). -/
theorem MainWindowOk.feed (h : MainWindowOk e) (t : Transform) (k p : List Byte) :
    MainWindowOk { e with phase := .data, ocb := (windowFeed t k e.dir e.tagLen e.ocb p).1 } := by
  obtain ⟨-, hfill, hcount, hcap⟩ := windowFeed_window t k e.dir e.tagLen e.ocb p h.lt_windowCap
  cases hd : e.dir with
  | enc =>
    rw [hd] at hcap
    simp only [windowCap] at hcap
    rw [mainWindowOk_enc rfl]
    exact Nat.lt_succ_iff.1 hcap
  | dec =>
    rw [hd] at hfill hcount hcap
    simp only [blocksEmitted, windowCap] at hfill hcount hcap
    rw [mainWindowOk_dec rfl]
    refine ⟨by dsimp only; omega, fun hne => ?_⟩
    by_cases hz : (e.ocb.mainBuf.length + p.length - e.tagLen) / 16 = 0
    · have hsame : (windowFeed t k .dec e.tagLen e.ocb p).1.mainCount = e.ocb.mainCount := by simpa [hz] using hcount
      have hheld := ((mainWindowOk_dec hd).1 h).2 (hsame ▸ hne)
      dsimp only
      omega
    · dsimp only
      omega

/-- What the invariant asks for on CCM. -/
theorem EngineInv.of_ccm (hv : c.variant = .ccm) (hp : ParamsOk c e) (ha : e.ccm.aadBuf.length ≤ c.ccmAadMax)
    (hd : e.ccm.dataBuf.length ≤ c.ccmDataMax) (hm : e.macValid = true → e.mac.length = e.tagLen) : EngineInv c e where
  params := hp
  mainWindow ho := by rw [hv] at ho; cases ho
  hashWindow ho := by rw [hv] at ho; cases ho
  aadBuffer _ := ha
  dataBuffer _ := hd
  macLength := hm

/-- What the invariant asks for on OCB. -/
theorem EngineInv.of_ocb (hv : c.variant = .ocb) (hp : ParamsOk c e) (hw : MainWindowOk e)
    (hh : e.ocb.hashBuf.length ≤ 15) (hm : e.macValid = true → e.mac.length = e.tagLen) : EngineInv c e where
  params := hp
  mainWindow _ := hw
  hashWindow _ := hh
  aadBuffer ho := by rw [hv] at ho; cases ho
  dataBuffer ho := by rw [hv] at ho; cases ho
  macLength := hm

end Parts

/-- After power-on there is no session, no tag and no byte (R45). -/
theorem engineInv_reset (c : Config) : EngineInv c .reset := by
  have hp : ParamsOk c .reset := (paramsOk_uninit rfl).2 ⟨rfl, rfl⟩
  have hm : Engine.reset.macValid = true → Engine.reset.mac.length = Engine.reset.tagLen := fun _ => rfl
  cases hv : c.variant with
  | ccm => exact .of_ccm hv hp (Nat.zero_le _) (Nat.zero_le _) hm
  | ocb => exact .of_ocb hv hp (mainWindowOk_of_empty rfl rfl) (Nat.zero_le _) hm

/-! ### Each effect keeps it -/

section Keeps
variable {c : Config} {e : Engine}

theorem initAdMax_le_ccmAadMax (hc : c.wf = true) (hv : c.variant = .ccm) : c.initAdMax ≤ c.ccmAadMax := by
  simp only [Config.wf, hv, Bool.and_eq_true, Bool.or_eq_true, decide_eq_true_eq] at hc
  obtain ⟨⟨-, hle⟩, -⟩ := hc
  simpa using hle

theorem sessionStart_phase_ne_uninit (c : Config) (e : Engine) : (sessionStart c e).phase ≠ .uninit := by
  rw [sessionStart_phase]
  split <;> simp

/-- A session start under accepted parameters establishes the invariant, whatever the datapath held (R150). -/
theorem engineInv_sessionStart (hc : c.wf = true) (hp : SessionParamsOk c e)
    (hm : e.macValid = true → e.mac.length = e.tagLen) : EngineInv c (sessionStart c e) := by
  have hsame := sessionStart_sameParams c e
  have hp' : ParamsOk c (sessionStart c e) := (paramsOk_session (sessionStart_phase_ne_uninit c e)).2 (hp.congr hsame)
  have hm' : (sessionStart c e).macValid = true → (sessionStart c e).mac.length = (sessionStart c e).tagLen := by
    simpa [hsame.tagLen] using hm
  cases hv : c.variant with
  | ccm =>
    have hccm := sessionStart_ccm c e hv
    have had := hp.initAd.trans (initAdMax_le_ccmAadMax hc hv)
    exact .of_ccm hv hp' (by simpa [hccm] using had) (by simp [hccm]) hm'
  | ocb =>
    have hocb := sessionStart_ocb c e hv
    have hpay := hashFeed_samePayloadSide c.transform e.key (ocbSessionStart c.transform e.key e.nonce e.tagLen) e.initAd
    have hwin := (hashFeed_window c.transform e.key (ocbSessionStart c.transform e.key e.nonce e.tagLen) e.initAd
      (Nat.zero_le _)).1
    exact .of_ocb hv hp' (mainWindowOk_of_empty (by rw [hocb, hpay.mainBuf]; rfl) (by rw [hocb, hpay.mainCount]; rfl))
      (by rw [hocb, hwin]; omega) hm'

/-- In a session the tag register may be written with a tag of `TAG_LEN` bytes, or cleared. -/
theorem EngineInv.withMac (h : EngineInv c e) (hu : e.phase ≠ .uninit) {tag : List Byte} {valid : Bool}
    (ht : valid = true → tag.length = e.tagLen) : EngineInv c { e with mac := tag, macValid := valid } where
  params := h.params.congr hu hu ⟨rfl, rfl, rfl, rfl, rfl, rfl⟩
  mainWindow hv := (h.mainWindow hv).congr rfl rfl rfl rfl
  hashWindow := h.hashWindow
  aadBuffer := h.aadBuffer
  dataBuffer := h.dataBuffer
  macLength := ht

theorem EngineInv.absorb (h : EngineInv c e) (hu : e.phase ≠ .uninit) {a : List Byte}
    (hcap : aadCapacityExceeded c e a.length = false) : EngineInv c { absorbAad c e a with phase := .aad } := by
  cases hv : c.variant with
  | ccm =>
    rw [absorbAad_ccm hv]
    refine .of_ccm hv (h.params.congr hu (by simp) ⟨rfl, rfl, rfl, rfl, rfl, rfl⟩) ?_ (h.dataBuffer hv) h.macLength
    rw [List.length_append]
    exact aadBuf_bound_of_accepted hv hcap
  | ocb =>
    rw [absorbAad_ocb hv]
    have hpay := hashFeed_samePayloadSide c.transform e.key e.ocb a
    have hwin := (hashFeed_window c.transform e.key e.ocb a (h.hashWindow hv)).1
    exact .of_ocb hv (h.params.congr hu (by simp) ⟨rfl, rfl, rfl, rfl, rfl, rfl⟩)
      ((h.mainWindow hv).congr rfl rfl hpay.mainBuf hpay.mainCount) (by rw [hwin]; omega) h.macLength

theorem EngineInv.feed (h : EngineInv c e) (hu : e.phase ≠ .uninit) {p : List Byte} {u : Nat}
    (hcap : dataCapacityExceeded c e p.length u = false) : EngineInv c (feedPayload c e p).1 := by
  cases hv : c.variant with
  | ccm =>
    rw [feedPayload_ccm hv]
    refine .of_ccm hv (h.params.congr hu (by simp) ⟨rfl, rfl, rfl, rfl, rfl, rfl⟩) (h.aadBuffer hv) ?_ h.macLength
    rw [List.length_append]
    exact dataBuf_bound_of_accepted hv hcap
  | ocb =>
    rw [feedPayload_ocb hv]
    have hhash := (windowFeed_sameHashSide c.transform e.key e.dir e.tagLen e.ocb p).hashBuf
    exact .of_ocb hv (h.params.congr hu (by simp) ⟨rfl, rfl, rfl, rfl, rfl, rfl⟩)
      ((h.mainWindow hv).feed c.transform e.key p) (by rw [hhash]; exact h.hashWindow hv) h.macLength

/-- A session start in a session keeps the invariant. -/
theorem EngineInv.restart (hc : c.wf = true) (h : EngineInv c e) (hu : e.phase ≠ .uninit) :
    EngineInv c (sessionStart c e) :=
  engineInv_sessionStart hc ((paramsOk_session hu).1 h.params) h.macLength

theorem SessionEffect.engineInv {e' : Engine} (he : SessionEffect c e e') (hc : c.wf = true) (h : EngineInv c e) :
    EngineInv c e' := by
  cases he with
  | keep => exact h
  | absorb a started _ fits => exact h.absorb started fits
  | feed p started fits => exact h.feed started fits
  | restart started => exact h.restart hc started
  | finish started =>
    refine (h.restart hc started).withMac (sessionStart_phase_ne_uninit c e) fun _ => ?_
    have hle := tagLen_le_of_tagBitsOk ((paramsOk_session started).1 h.params).tagBits
    rw [length_finalFrame_tag, (sessionStart_sameParams c e).tagLen, Nat.min_eq_left hle]
  | forget started => exact (h.restart hc started).withMac (sessionStart_phase_ne_uninit c e) (by simp)

/-- INIT's checks make the session parameters it writes ones R42 allows. -/
theorem EngineInv.init (hc : c.wf = true) (h : EngineInv c e) {tagBits : Nat} {k n ad : List Byte}
    (hk : keyOk c.transform k = true ∨ e.keyValid = true ∧ k = e.key) (ht : tagBitsOk c.variant tagBits = true)
    (hn : nonceLenOk c.variant n.length = true) (ha : ad.length ≤ c.initAdMax) (dir : Dir) :
    EngineInv c (commitInit c e dir tagBits k n ad) := by
  have hkey : keyOk c.transform k = true := by
    obtain hk | ⟨hvalid, rfl⟩ := hk
    · exact hk
    · exact h.params.key_of_keyValid hvalid
  have htag : tagBitsOk c.variant (8 * (tagBits / 8)) = true := by rwa [(tagBitsOk_bytes ht).1]
  exact engineInv_sessionStart hc ⟨rfl, hkey, htag, hn, ha⟩ (by simp)

theorem StepEffect.engineInv {e' : Engine} (he : StepEffect c e e') (hc : c.wf = true) (h : EngineInv c e) :
    EngineInv c e' := by
  cases he with
  | session he => exact he.engineInv hc h
  | init dir tagBits k n ad key tag nonce fits => exact h.init hc key tag nonce fits dir
  | powerOn => exact engineInv_reset c

end Keeps

/-- Settles O21: every effect of a step keeps the invariant, and no step changes the parameters. -/
theorem stepKeepsTheRegisterInvariant : Obligations.StepKeepsTheRegisterInvariant := by
  intro s t ⟨hc, hinv⟩ h
  obtain ⟨hcfg, he⟩ := step_effect h
  unfold StateInv
  rw [hcfg]
  exact ⟨hc, he.engineInv hc hinv⟩

/-- Settles O26: before the first INIT the statements about a session ask for nothing. -/
theorem invariantsHoldAfterReset : Obligations.InvariantsHoldAfterReset := by
  refine ⟨fun c hc => ⟨rfl, ⟨hc, engineInv_reset c⟩, ?_, ?_, ?_, ?_, trivial⟩, by decide, rfl⟩
  · exact (otherVariantUnused_iff _).2 ⟨fun _ => rfl, fun _ => rfl⟩
  · exact fun _ hu => absurd rfl hu
  · exact fun _ hu => absurd rfl hu
  · exact fun r hr => absurd hr List.not_mem_nil

end Sys2Proof.Machine
end

section
/-! PROOFS. The host's storage (20_memory.md R60 to R72): the command a step runs, what a command writes to the storage, and
the canonical form of the storage (log 4). -/

namespace Sys2Proof.Machine

/-! ### The command at the front of the port -/

section Port
variable {s : State}

theorem runPort_of_command {i : Instr} {rest : List Word} (h : decode s.port = .command i rest) :
    runPort s = some (exec i { s with port := rest }) := by
  simp only [runPort, h]

theorem runPort_of_illegal {why : IllegalReason} {rest : List Word} (h : decode s.port = .illegal why rest) :
    runPort s = some (.next (State.answered { s with port := rest } (errorResponse .illegalCommand))) := by
  simp only [runPort, h]; rfl

theorem runPort_of_incomplete (h : decode s.port = .incomplete) : runPort s = none := by
  simp only [runPort, h]

theorem step_of_runPort {r : Result} (h : runPort s = some r) : step s = r := by
  simp only [step, h]

theorem step_of_runPort_none (h : runPort s = none) : step s = takeMove s := by
  simp only [step, h]

end Port

/-- Settles O6: the port runs the command it holds, and a step is what the port runs. -/
theorem stepRunsTheDecodedCommand : Obligations.StepRunsTheDecodedCommand :=
  fun _ _ _ h => step_of_runPort (runPort_of_command h)

/-! ### What a command writes -/

/-- The bytes a command has for `OUT`: what the payload emits (R143, R146), or the frame (R160). `outRange` is their place. -/
def outBytes (s : State) : Instr → List Byte
  | .processBytes inOff inLen _ => (feedPayload s.cfg s.eng (s.inRead inOff inLen)).2
  | .processByte byte _ => (feedPayload s.cfg s.eng [byte]).2
  | .doFinal _ => (finalFrame s.cfg s.eng).1
  | _ => []

/-- What a command can do to the storage. -/
inductive StorageEffect (s : State) (i : Instr) (t : State) : Prop where
  /-- A command that has no output, with whatever status. -/
  | noOutput (range : outRange s i = (0, 0)) (mem : t.mem = s.mem)
  /-- A command with an output that answers an error (R385, R388). -/
  | error (st : Status) (notOk : st ≠ .ok) (answer : t.responses = s.responses ++ [errorResponse st]) (mem : t.mem = s.mem)
  /-- A command that writes its output to `OUT` (R64, R67). -/
  | output (outOff result : Nat) (started : s.eng.phase ≠ .uninit) (place : (outRange s i).1 = s.outAddr outOff)
      (fits : s.outBounds outOff (outRange s i).2 = true) (answer : t.responses = s.responses ++ [okResponse result []])
      (mem : t.mem = s.mem.writeBytes (s.outAddr outOff) (outBytes s i))

/-- Every command has one of the effects on the storage. -/
theorem exec_storageEffect {s t : State} {i : Instr} (h : exec i s = .next t) : StorageEffect s i t := by
  have answer {u : State} (hu : exec i s = .next u) : t = u := Host.Outcome.next.inj (h.symm.trans hu)
  cases i with
  | init dir kp ap tagBits koff klen noff nlen aoff alen =>
    obtain ⟨_, -, -, he⟩ | ⟨-, he⟩ := execInit_cases dir kp ap tagBits koff klen noff nlen aoff alen s <;>
      exact answer he ▸ .noOutput rfl rfl
  | processAad inOff inLen =>
    obtain ⟨_, -, he⟩ | ⟨-, -, -, -, he⟩ := execProcessAad_cases inOff inLen s <;>
      exact answer he ▸ .noOutput rfl rfl
  | processBytes inOff inLen outOff =>
    obtain ⟨st, hst, he⟩ | ⟨hu, -, hout, -, he⟩ := execProcessBytes_cases inOff inLen outOff s
    · exact answer he ▸ .error st (by rintro rfl; simp at hst) rfl rfl
    · exact answer he ▸ .output outOff _ hu rfl hout rfl rfl
  | processByte byte outOff =>
    obtain ⟨st, hst, he⟩ | ⟨hu, hout, -, he⟩ := execProcessByte_cases byte outOff s
    · exact answer he ▸ .error st (by rintro rfl; simp at hst) rfl rfl
    · exact answer he ▸ .output outOff _ hu rfl hout rfl rfl
  | doFinal outOff =>
    obtain ⟨st, hst, he⟩ | ⟨-, -, he⟩ | ⟨hu, -, hout, -, he⟩ := execDoFinal_cases outOff s
    · exact answer he ▸ .error st (by rintro rfl; simp at hst) rfl rfl
    · exact answer he ▸ .error .invalidCiphertext (by decide) rfl rfl
    · exact answer he ▸ .output outOff _ hu rfl hout rfl rfl
  | getMac => exact answer (execGetMac_eq s) ▸ .noOutput rfl rfl
  | reset =>
    obtain ⟨-, he⟩ | ⟨-, he⟩ := execReset_cases s <;>
      exact answer he ▸ .noOutput rfl rfl
  | getUpdateOutputSize len =>
    obtain ⟨-, he⟩ | ⟨-, he⟩ := execGetUpdateOutputSize_cases len s <;> exact answer he ▸ .noOutput rfl rfl
  | getOutputSize len =>
    obtain ⟨-, he⟩ | ⟨-, he⟩ := execGetOutputSize_cases len s <;> exact answer he ▸ .noOutput rfl rfl
  | getAlgorithmName => exact answer (execGetAlgorithmName_eq s) ▸ .noOutput rfl rfl

/-! ### The canonical form of the storage -/

section Canonical
variable {s t : State}

theorem exec_keeps_wf (hs : s.mem.wf = true) {i : Instr} (h : exec i s = .next t) : t.mem.wf = true := by
  cases exec_storageEffect h with
  | noOutput _ mem => rwa [mem]
  | error _ _ _ mem => rwa [mem]
  | output _ _ _ _ _ _ mem => rw [mem]; exact Memory.wf_writeBytes hs _ _

theorem runPort_keeps_wf (hs : s.mem.wf = true) (h : runPort s = some (.next t)) : t.mem.wf = true := by
  cases hd : decode s.port with
  | command i rest =>
    rw [runPort_of_command hd] at h
    exact exec_keeps_wf (s := { s with port := rest }) hs (Option.some.inj h)
  | illegal why rest => rw [runPort_of_illegal hd] at h; cases h; exact hs
  | incomplete => rw [runPort_of_incomplete hd] at h; cases h

/-- A power-on during a command (U16) puts old bytes back, one by one, over what the command would have left. -/
theorem loseCommand_keeps_wf (hs : s.mem.wf = true) : s.loseCommand.mem.wf = true := by
  obtain h | ⟨u, hrun, h⟩ := loseCommand_cases s <;> rw [h]
  · exact hs
  · exact (partWritten_read s.freeCount (runPort_keeps_wf hs hrun) 0).1

theorem afterMove_keeps_wf (hs : s.mem.wf = true) (m : HostMove) : (s.afterMove m).mem.wf = true := by
  cases m with
  | send words => exact hs
  | present inp out => exact hs
  | store addr bytes => exact Memory.wf_writeBytes hs addr bytes
  | powerOn => exact hs
  | sendLost words => exact loseCommand_keeps_wf (s := { s with port := s.port ++ words }) hs

theorem takeMove_keeps_wf (hs : s.mem.wf = true) (h : takeMove s = .next t) : t.mem.wf = true := by
  unfold takeMove at h
  split at h
  · cases h; exact hs
  · rename_i m ms _
    obtain ⟨-, hf⟩ | ⟨-, hn⟩ := hostMove_cases m { s with moves := ms }
    · rw [hf] at h; cases h
    · rw [hn] at h
      cases h
      exact afterMove_keeps_wf (s := { s with moves := ms }) hs m

end Canonical

/-- Settles O20: a step runs the port or takes a move, and both change the storage by writes alone. -/
theorem stepKeepsTheStorageCanonical : Obligations.StepKeepsTheStorageCanonical := by
  intro s t hs h
  cases hrun : runPort s with
  | some r => rw [step_of_runPort hrun] at h; exact runPort_keeps_wf hs (hrun.trans (congrArg some h))
  | none => rw [step_of_runPort_none hrun] at h; exact takeMove_keeps_wf hs h

/-! ### The predicted sizes are the lengths of what is written -/

section Lengths
variable {c : Config} {e : Engine}

theorem length_finalPart (t : Transform) (k : List Byte) (dir : Dir) (r : OcbRegs) {part : List Byte}
    (h : part.length ≤ 16) : (finalPart t k dir r part).1.length = part.length := by
  unfold finalPart
  split_ifs with h0
  · exact h0.symm
  · simp [h]

theorem length_ccmFinal_enc (t : Transform) (k nonce : List Byte) (m : Nat) (r : CcmRegs) :
    (ccmFinal t k nonce .enc m r).1.length = r.dataBuf.length + min m 16 := by
  simp [ccmFinal, length_ccmKeystream, length_ccmTag]

theorem length_ccmFinal_dec (t : Transform) (k nonce : List Byte) (m : Nat) (r : CcmRegs) :
    (ccmFinal t k nonce .dec m r).1.length = r.dataBuf.length - m := by
  simp [ccmFinal, length_ccmKeystream]

theorem length_ocbFinal_enc (t : Transform) (k : List Byte) (m : Nat) {r : OcbRegs} (h : r.mainBuf.length ≤ 16) :
    (ocbFinal t k .enc m r).1.length = r.mainBuf.length + min m 16 := by
  simp [ocbFinal, length_finalPart t k .enc r h, length_ocbTag]

theorem length_ocbFinal_dec (t : Transform) (k : List Byte) (m : Nat) {r : OcbRegs} (h : r.mainBuf.length ≤ 16 + m) :
    (ocbFinal t k .dec m r).1.length = r.mainBuf.length - m := by
  have hpart : (r.mainBuf.take (r.mainBuf.length - m)).length ≤ 16 := by rw [List.length_take]; omega
  simp [ocbFinal, length_finalPart t k .dec r hpart]

/-- On OCB the window keeps less than a block beyond the withheld tag (R42), so one partial block is the whole frame. -/
theorem length_finalFrame (h : EngineInv c e) (hu : e.phase ≠ .uninit) :
    (finalFrame c e).1.length = outSize c e 0 := by
  have htag := tagLen_le_of_tagBitsOk ((paramsOk_session hu).1 h.params).tagBits
  unfold finalFrame outSize held
  cases hv : c.variant with
  | ccm =>
    cases e.dir with
    | enc => simp [length_ccmFinal_enc, htag]
    | dec => simp [length_ccmFinal_dec]
  | ocb =>
    have hwin := (h.mainWindow hv).lt_windowCap
    cases hd : e.dir with
    | enc =>
      rw [hd] at hwin
      simp [length_ocbFinal_enc _ _ _ (Nat.le_of_lt hwin), htag, Engine.mainPos]
    | dec =>
      rw [hd] at hwin
      simp [length_ocbFinal_dec _ _ _ (Nat.le_of_lt hwin), Engine.mainPos]

theorem length_feedPayload_output (h : EngineInv c e) (p : List Byte) :
    (feedPayload c e p).2.length = updSize c e p.length := by
  cases hv : c.variant with
  | ccm => simp [feedPayload, updSize, hv]
  | ocb =>
    have hlen := (windowFeed_window c.transform e.key e.dir e.tagLen e.ocb p (h.mainWindow hv).lt_windowCap).1
    rw [updSize_eq_blocksEmitted c e p.length hv]
    simpa only [feedPayload, hv, Engine.mainPos] using hlen

end Lengths

/-- In a session the bytes for `OUT` are as many as the size predictor says (R143, R160). -/
theorem length_outBytes {s : State} (h : EngineInv s.cfg s.eng) (hu : s.eng.phase ≠ .uninit) (i : Instr) :
    (outBytes s i).length = (outRange s i).2 := by
  cases i with
  | processBytes inOff inLen outOff => simp [outBytes, outRange, length_feedPayload_output h]
  | processByte byte outOff => exact length_feedPayload_output h [byte]
  | doFinal outOff => exact length_finalFrame h hu
  | init | processAad | getMac | reset | getUpdateOutputSize | getOutputSize | getAlgorithmName => rfl

/-! ### The storage frame of every command -/

/-- A range that `OutBounds` accepts lies in `OUT` (R64). -/
theorem outAddr_range_of_outBounds {s : State} {off n : Nat} (h : s.outBounds off n = true) :
    s.outWin.base ≤ s.outAddr off ∧ s.outAddr off + n ≤ s.outWin.base + s.outWin.cap.toNat := by
  simp only [State.outBounds, Window.holds, decide_eq_true_eq] at h
  unfold State.outAddr
  omega

/-- Settles O18: a command without output or with an error leaves the storage alone, and an output is as long as
predicted, so the write stays in the range the bounds check accepted. -/
theorem commandsWriteOnlyTheirOutRange : Obligations.CommandsWriteOnlyTheirOutRange := by
  intro i s t r hs ⟨_, hinv⟩ h hr
  cases exec_storageEffect h with
  | noOutput range mem =>
    rw [mem, range]
    exact ⟨fun _ _ => rfl, fun _ _ => rfl, fun _ h0 => absurd rfl h0⟩
  | error st notOk answer mem =>
    obtain rfl : r = errorResponse st := by simpa using hr.symm.trans answer
    rw [mem]
    exact ⟨fun _ _ => rfl, fun _ _ => rfl, fun hok => absurd hok notOk⟩
  | output outOff result started place fits answer mem =>
    obtain rfl : r = okResponse result [] := by simpa using hr.symm.trans answer
    refine ⟨fun a ha => ?_, fun hne => absurd rfl hne, fun _ _ => ?_⟩
    · rw [place, ← length_outBytes hinv started i] at ha
      rw [mem]
      exact Memory.read_writeBytes_outside hs ha
    · rw [place]
      exact outAddr_range_of_outBounds fits

end Sys2Proof.Machine
end

section
/-! PROOFS. Decoding and encoding of the command words (30_encoding.md R91 to R107). -/

namespace Sys2Proof

/-! ### Operand words and fields in range (R100) -/

@[simp] theorem fitsWord_toNat (a : Word) : fitsWord a.toNat = true := decide_eq_true a.isLt

@[simp] theorem fitsTagBits_tagBitsField (w : Word) : fitsTagBits (tagBitsField w) = true :=
  decide_eq_true (BitVec.isLt _)

/-! ### Reserved fields, by opcode (R101) -/

section ReservedFields
variable {w : Word}

theorem reservedFieldsZero_of_init (h : opcField w = 0x1) :
    reservedFieldsZero w = true ↔ w.extractLsb' 7 9 = 0#9 := by
  simp [reservedFieldsZero, h]

theorem reservedFieldsZero_of_processByte (h : opcField w = 0x4) :
    reservedFieldsZero w = true ↔ w.extractLsb' 4 4 = 0#4 ∧ w.extractLsb' 16 16 = 0#16 := by
  simp [reservedFieldsZero, h]

theorem reservedFieldsZero_of_bare (h1 : opcField w ≠ 0x1) (h4 : opcField w ≠ 0x4) :
    reservedFieldsZero w = true ↔ w.extractLsb' 4 28 = 0#28 := by
  unfold reservedFieldsZero
  split
  · contradiction
  · contradiction
  · exact beq_iff_eq

end ReservedFields

/-! ### The command word is determined by its fields (R91) -/

section WordOfFields
variable {w : Word}

theorem toNat_dirField_code (w : Word) : (dirField w).code.toNat = w.toNat / 16 % 2 := by
  rw [dirField, getLsbD_eq_decide]
  obtain h | h := Nat.mod_two_eq_zero_or_one (w.toNat / 16) <;> simp [h, Dir.code]

theorem toNat_kpField (w : Word) : (kpField w).toNat = w.toNat / 32 % 2 := by
  rw [kpField, getLsbD_eq_decide]
  obtain h | h := Nat.mod_two_eq_zero_or_one (w.toNat / 32) <;> simp [h]

theorem toNat_apField (w : Word) : (apField w).toNat = w.toNat / 64 % 2 := by
  rw [apField, getLsbD_eq_decide]
  obtain h | h := Nat.mod_two_eq_zero_or_one (w.toNat / 64) <;> simp [h]

theorem commandWord_of_init (ho : opcField w = 0x1) (hz : w.extractLsb' 7 9 = 0#9) :
    commandWord 0x1 (dirField w) (kpField w) (apField w) 0#8 (tagBitsField w) = w := by
  rw [opcField_eq] at ho
  rw [extractLsb'_eq_zero] at hz
  apply BitVec.eq_of_toNat_eq
  rw [toNat_commandWord, toNat_dirField_code, toNat_kpField, toNat_apField, tagBitsField_eq, BitVec.toNat_ofNat]
  omega

theorem commandWord_of_processByte (ho : opcField w = 0x4) (hlow : w.extractLsb' 4 4 = 0#4)
    (hhigh : w.extractLsb' 16 16 = 0#16) : commandWord 0x4 .enc false false (byteField w) 0 = w := by
  have henc : Dir.enc.code.toNat = 0 := rfl
  rw [opcField_eq] at ho
  rw [extractLsb'_eq_zero] at hlow hhigh
  apply BitVec.eq_of_toNat_eq
  rw [toNat_commandWord, toNat_byteField, henc, Bool.toNat_false]
  omega

theorem commandWord_of_bare (hz : w.extractLsb' 4 28 = 0#28) :
    commandWord (opcField w) .enc false false 0#8 0 = w := by
  have henc : Dir.enc.code.toNat = 0 := rfl
  rw [extractLsb'_eq_zero] at hz
  apply BitVec.eq_of_toNat_eq
  rw [toNat_commandWord, opcField_eq, henc, Bool.toNat_false, BitVec.toNat_ofNat]
  omega

end WordOfFields

/-! ### Encoding, then decoding -/

/-- The per-command facts of `Laws.EncodeLength`, for all ten. -/
theorem encodeLength (i : Instr) : Laws.EncodeLength.Statement i := by
  cases i with
  | init => exact Laws.EncodeLength.init ..
  | processAad => exact Laws.EncodeLength.processAad ..
  | processBytes => exact Laws.EncodeLength.processBytes ..
  | processByte => exact Laws.EncodeLength.processByte ..
  | doFinal => exact Laws.EncodeLength.doFinal ..
  | getMac => exact Laws.EncodeLength.getMac
  | reset => exact Laws.EncodeLength.reset
  | getUpdateOutputSize => exact Laws.EncodeLength.getUpdateOutputSize ..
  | getOutputSize => exact Laws.EncodeLength.getOutputSize ..
  | getAlgorithmName => exact Laws.EncodeLength.getAlgorithmName

theorem reservedFieldsZero_headWord (i : Instr) : reservedFieldsZero i.headWord = true := by
  obtain ⟨-, -, hop⟩ := encodeLength i
  cases i with
  | init dir kp ap tagBits =>
    obtain ⟨hz, -⟩ := reserved_commandWord 0x1 dir kp ap 0#8 tagBits
    exact (reservedFieldsZero_of_init hop).2 hz
  | processByte byte outOff =>
    obtain ⟨-, hlow, hhigh, -⟩ := reserved_commandWord 0x4 .enc false false byte 0
    exact (reservedFieldsZero_of_processByte hop).2 ⟨hlow, hhigh⟩
  | processAad | processBytes | doFinal | getMac | reset | getUpdateOutputSize | getOutputSize | getAlgorithmName =>
    obtain ⟨-, -, -, hz⟩ := reserved_commandWord _ .enc false false 0#8 0
    exact (reservedFieldsZero_of_bare (by simp [hop, Instr.opcode]) (by simp [hop, Instr.opcode])).2 hz

/-- The encoder's command word and operand words stand for the command they were built from. -/
theorem commandOf_encode {i : Instr} (h : i.wellFormed = true) :
    commandOf i.headWord (i.operands.map (BitVec.ofNat 32)) = some i := by
  obtain ⟨-, -, hop⟩ := encodeLength i
  simp only [commandOf, hop]
  cases i with
  | init dir kp ap tagBits koff klen noff nlen aoff alen =>
    simp only [Instr.wellFormed, Bool.and_eq_true, and_assoc] at h
    obtain ⟨htag, hwords⟩ := h
    obtain ⟨-, hdir, hkp, hap, -, htagBits⟩ := fields_commandWord 0x1 dir kp ap 0#8 tagBits (by decide) htag
    simpa [Instr.opcode, Instr.operands, Instr.headWord, fitsWord, hdir, hkp, hap, htagBits] using hwords
  | processByte byte outOff =>
    obtain ⟨-, -, -, -, hbyte, -⟩ := fields_commandWord 0x4 .enc false false byte 0 (by decide) (by decide)
    simpa [Instr.opcode, Instr.operands, Instr.headWord, Instr.wellFormed, fitsWord, hbyte] using h
  | getMac | reset | getAlgorithmName => rfl
  | processAad | processBytes | doFinal | getUpdateOutputSize | getOutputSize =>
    simpa [Instr.opcode, Instr.operands, Instr.wellFormed, fitsWord, and_assoc] using h

/-- Settles O1: the encoder's words pass every check of the decoder, and `commandOf` reads the operands back. -/
theorem decodeOfEncodeGivesTheCommandBack : Obligations.DecodeOfEncodeGivesTheCommandBack := by
  intro i rest h
  obtain ⟨hlen, hres, hop⟩ := encodeLength i
  have hcount : (i.operands.map (BitVec.ofNat 32)).length = operandCount i.opcode := by
    simpa [encode, Nat.add_comm 1] using hlen
  have hdec := decode_eq_command (ws := i.operands.map (BitVec.ofNat 32) ++ rest) (i := i) hop hres
    (by rw [List.length_append]; omega) (reservedFieldsZero_headWord i)
    (by rw [List.take_left' hcount]; exact commandOf_encode h)
  rwa [List.drop_left' hcount] at hdec

/-! ### Decoding, then encoding -/

/-- The operands a command takes from the fields of its command word are those of `w` (R94, R97). -/
def Instr.FieldsOf (w : Word) : Instr → Prop
  | .init dir kp ap tagBits .. => dir = dirField w ∧ kp = kpField w ∧ ap = apField w ∧ tagBits = tagBitsField w
  | .processByte byte _ => byte = byteField w
  | _ => True

theorem commandOf_inv {w : Word} {ops : List Word} {i : Instr} (h : commandOf w ops = some i) :
    opcField w = i.opcode ∧ i.operands.map (BitVec.ofNat 32) = ops ∧ i.wellFormed = true ∧ i.FieldsOf w := by
  unfold commandOf at h
  split at h
  case h_11 => cases h
  all_goals
    split at h
    · cases h
      exact ⟨‹opcField w = _›, by simp [Instr.operands], by simp [Instr.wellFormed], by simp [Instr.FieldsOf]⟩
    · cases h

theorem headWord_of_commandOf {w : Word} {ops : List Word} {i : Instr} (h : commandOf w ops = some i)
    (hz : reservedFieldsZero w = true) : i.headWord = w := by
  obtain ⟨hop, -, -, hfields⟩ := commandOf_inv h
  cases i with
  | init dir kp ap tagBits =>
    obtain ⟨rfl, rfl, rfl, rfl⟩ := hfields
    exact commandWord_of_init hop ((reservedFieldsZero_of_init hop).1 hz)
  | processByte byte outOff =>
    obtain rfl := hfields
    obtain ⟨hlow, hhigh⟩ := (reservedFieldsZero_of_processByte hop).1 hz
    exact commandWord_of_processByte hop hlow hhigh
  | processAad | processBytes | doFinal | getMac | reset | getUpdateOutputSize | getOutputSize | getAlgorithmName =>
    have hbare := (reservedFieldsZero_of_bare (by simp [hop, Instr.opcode]) (by simp [hop, Instr.opcode])).1 hz
    have hword := commandWord_of_bare hbare
    rwa [hop] at hword

/-- Settles O2: a legal word has no bit outside its opcode and the fields its command keeps. -/
theorem encodeOfDecodeGivesTheWordsBack : Obligations.EncodeOfDecodeGivesTheWordsBack := by
  intro ws i rest h
  obtain ⟨w, tl, rfl, -, -, hz, hc, rfl⟩ := decode_command_inv h
  obtain ⟨-, hops, hwf, -⟩ := commandOf_inv hc
  refine ⟨hwf, ?_⟩
  rw [encode, headWord_of_commandOf hc hz, hops, List.cons_append, List.take_append_drop]

end Sys2Proof
end

section
/-! PROOFS. What the decoder answers, by the checks of a command word (30_encoding.md R93, R101 to R103): one equation per
answer, and the rows of the opcode table as those checks. -/

namespace Sys2Proof
open Machine

/-! ### The decoder's answers -/

theorem reservedOpcode_iff (o : Nat) : reservedOpcode o = true ↔ o = 0 ∨ 11 ≤ o := by
  simp [reservedOpcode]

theorem operandCount_of_reservedOpcode {o : Nat} (h : reservedOpcode o = true) : operandCount o = 0 := by
  obtain rfl | hge := (reservedOpcode_iff o).1 h
  · rfl
  · unfold operandCount
    split <;> omega

section Decode
variable {w : Word} {ws : List Word}

theorem decode_of_reservedOpcode (hr : reservedOpcode (opcField w) = true) :
    decode (w :: ws) = .illegal .reservedOpcode ws := by
  simp [decode, hr]

/-- A reserved opcode takes no operand words, so a word that waits for some has another opcode. -/
theorem decode_of_short (hl : ws.length < operandCount (opcField w)) : decode (w :: ws) = .incomplete := by
  have hr : reservedOpcode (opcField w) = false := by
    by_contra h
    rw [operandCount_of_reservedOpcode (Bool.eq_true_of_not_eq_false h)] at hl
    omega
  simp [decode, hr, hl]

theorem decode_of_reservedField (hr : reservedOpcode (opcField w) = false)
    (hl : operandCount (opcField w) ≤ ws.length) (hz : reservedFieldsZero w = false) :
    decode (w :: ws) = .illegal .reservedField (ws.drop (operandCount (opcField w))) := by
  simp [decode, hr, Nat.not_lt.2 hl, hz]

theorem decode_of_legal (hr : reservedOpcode (opcField w) = false) (hl : operandCount (opcField w) ≤ ws.length)
    (hz : reservedFieldsZero w = true) :
    ∃ i, decode (w :: ws) = .command i (ws.drop (operandCount (opcField w))) := by
  obtain ⟨i, hi⟩ := commandOf_isSome (List.length_take_of_le hl) hr
  exact ⟨i, decode_eq_command rfl hr hl hz hi⟩

end Decode

/-- Settles O4: the count is the decoder's own, which it uses before it looks at any reserved field. -/
theorem commandLengthDependsOnTheOpcodeOnly : Obligations.CommandLengthDependsOnTheOpcodeOnly := by
  refine ⟨operandCount, rfl, rfl, rfl, rfl, rfl, rfl, rfl, rfl, rfl, rfl, rfl,
    fun o ho => operandCount_of_reservedOpcode ((reservedOpcode_iff o).2 (.inr ho)), fun w ops => ?_⟩
  rw [← opcField_eq]
  refine ⟨decode_of_short, fun hl => ?_⟩
  cases hr : reservedOpcode (opcField w) with
  | true =>
    rw [operandCount_of_reservedOpcode hr]
    exact .inr ⟨_, decode_of_reservedOpcode hr⟩
  | false =>
    cases hz : reservedFieldsZero w with
    | true => exact .inl (decode_of_legal hr hl hz)
    | false => exact .inr ⟨_, decode_of_reservedField hr hl hz⟩

/-! ### The rows of the opcode table (R102) -/

/-- Two words agree on a slice exactly when they agree on its lower and its upper part. -/
theorem extractLsb'_add_eq_iff (x y : Word) (s m n : Nat) :
    x.extractLsb' s (m + n) = y.extractLsb' s (m + n) ↔
      x.extractLsb' s m = y.extractLsb' s m ∧ x.extractLsb' (s + m) n = y.extractLsb' (s + m) n := by
  simp only [← BitVec.toNat_inj, BitVec.extractLsb'_toNat, Nat.shiftRight_eq_div_pow, Nat.pow_add,
    ← Nat.div_div_eq_div_mul]
  generalize x.toNat / 2 ^ s = a, y.toNat / 2 ^ s = b
  constructor
  · intro h
    refine ⟨?_, ?_⟩
    · rw [← Nat.mod_mul_right_mod a, h, Nat.mod_mul_right_mod]
    · rw [← Nat.mod_mul_right_div_self, h, Nat.mod_mul_right_div_self]
  · rintro ⟨hlow, hhigh⟩
    rw [Nat.mod_mul, hlow, hhigh, ← Nat.mod_mul]

theorem opcField_eq_iff {w : Word} {o : Nat} (ho : o < 16) : opcField w = o ↔ w.extractLsb' 0 4 = BitVec.ofNat 4 o := by
  rw [← BitVec.toNat_inj, BitVec.toNat_ofNat, Nat.mod_eq_of_lt ho, opcField]

/-- The mask of INIT lets through the slices [3:0] and [15:7]. -/
theorem and_initMask_iff (w : Word) :
    w &&& 0x0000FF8F#32 = 0x00000001#32 ↔ opcField w = 0x1 ∧ w.extractLsb' 7 9 = 0#9 := by
  have hopc (x : BitVec 4) : x &&& 15#4 = x := BitVec.and_allOnes
  have hres (x : BitVec 9) : x &&& 511#9 = x := BitVec.and_allOnes
  rw [opcField_eq_iff (by decide), ← BitVec.extractLsb'_eq_self (x := w &&& _), ← BitVec.extractLsb'_eq_self (x := 1#32),
    extractLsb'_add_eq_iff _ _ 0 4 28, extractLsb'_add_eq_iff _ _ 4 3 25, extractLsb'_add_eq_iff _ _ 7 9 16]
  simp [BitVec.extractLsb'_and, hopc, hres]

/-- The mask of PROCESS_BYTE lets through the slices [3:0], [7:4] and [31:16]. -/
theorem and_processByteMask_iff (w : Word) :
    w &&& 0xFFFF00FF#32 = 0x00000004#32 ↔
      opcField w = 0x4 ∧ w.extractLsb' 4 4 = 0#4 ∧ w.extractLsb' 16 16 = 0#16 := by
  have hlow (x : BitVec 4) : x &&& 15#4 = x := BitVec.and_allOnes
  have hhigh (x : BitVec 16) : x &&& 65535#16 = x := BitVec.and_allOnes
  rw [opcField_eq_iff (by decide), ← BitVec.extractLsb'_eq_self (x := w &&& _), ← BitVec.extractLsb'_eq_self (x := 4#32),
    extractLsb'_add_eq_iff _ _ 0 4 28, extractLsb'_add_eq_iff _ _ 4 4 24, extractLsb'_add_eq_iff _ _ 8 8 16]
  simp [BitVec.extractLsb'_and, hlow, hhigh]

/-- The rows whose mask is the whole word are those of the opcodes with no field beside `OPC`. -/
theorem mem_bareWords_iff (w : Word) :
    w ∈ [2#32, 3#32, 5#32, 6#32, 7#32, 8#32, 9#32, 10#32] ↔
      opcField w ∈ [2, 3, 5, 6, 7, 8, 9, 10] ∧ w.extractLsb' 4 28 = 0#28 := by
  simp only [List.mem_cons, List.not_mem_nil, or_false, ← BitVec.toNat_inj, BitVec.toNat_ofNat, opcField_eq,
    BitVec.extractLsb'_toNat, Nat.shiftRight_eq_div_pow]
  omega

/-- A word matches a row of the table exactly when its opcode is not reserved and its reserved fields are zero. -/
theorem matchesTable_iff (w : Word) :
    MatchesTable w ↔ reservedOpcode (opcField w) = false ∧ reservedFieldsZero w = true := by
  unfold MatchesTable
  rw [and_initMask_iff, and_processByteMask_iff, mem_bareWords_iff, ← Bool.not_eq_true, reservedOpcode_iff]
  by_cases h1 : opcField w = 0x1
  · simp [reservedFieldsZero_of_init h1, h1]
  by_cases h4 : opcField w = 0x4
  · simp [reservedFieldsZero_of_processByte h4, h4]
  · have hbare : opcField w ∈ [2, 3, 5, 6, 7, 8, 9, 10] ↔ ¬ (opcField w = 0 ∨ 11 ≤ opcField w) := by
      simp only [List.mem_cons, List.not_mem_nil, or_false]
      omega
    simp only [reservedFieldsZero_of_bare h1 h4, hbare, h1, h4, false_and, false_or]

/-- Settles O3: a command is decoded exactly from a word that passes both checks, its operands being at hand. -/
theorem legalCommandWordsMatchTheTable : Obligations.LegalCommandWordsMatchTheTable := by
  intro w ops hl
  rw [matchesTable_iff]
  constructor
  · rintro ⟨i, rest, h⟩
    obtain ⟨_, _, heq, hr, -, hz, -⟩ := decode_command_inv h
    cases heq
    exact ⟨hr, hz⟩
  · rintro ⟨hr, hz⟩
    obtain ⟨i, hi⟩ := decode_of_legal hr ((operandCount_le _).trans hl) hz
    exact ⟨i, _, hi⟩

/-! ### Illegal words at the port (R101, R103) -/

theorem opcodeReserved_iff (w : Word) : OpcodeReserved w ↔ reservedOpcode (opcField w) = true := by
  rw [reservedOpcode_iff, opcField_eq, OpcodeReserved]

theorem step_of_illegal {s : State} {why : IllegalReason} {rest : List Word} (h : decode s.port = .illegal why rest) :
    step s = .next { s with port := rest, responses := s.responses ++ [⟨.illegalCommand, 0#64, []⟩] } :=
  step_of_runPort (runPort_of_illegal h)

/-- Settles O7: whichever check fails, the decoder answers illegal, and the port answers that in one way. -/
theorem illegalCommandWordsHaveNoEffect : Obligations.IllegalCommandWordsHaveNoEffect := by
  intro s w ops hport
  rw [opcodeReserved_iff, ← opcField_eq]
  constructor
  · intro hr
    exact step_of_illegal (hport ▸ decode_of_reservedOpcode hr)
  · intro hr hm hl
    have hr := Bool.eq_false_of_not_eq_true hr
    have hz : reservedFieldsZero w = false :=
      Bool.eq_false_of_not_eq_true fun hz => hm ((matchesTable_iff w).2 ⟨hr, hz⟩)
    exact step_of_illegal (hport ▸ decode_of_reservedField hr hl hz)

/-! ### Words of the spec -/

/-- Settles O5: the legal lines are O1 at five commands, the illegal ones fail one check each. -/
theorem wordsOfTheSpecDecode : Obligations.WordsOfTheSpecDecode :=
  ⟨decodeOfEncodeGivesTheCommandBack (.init .dec true true 128 0 16 16 12 28 16) [] rfl,
    decodeOfEncodeGivesTheCommandBack (.processAad 28 5) [] rfl,
    decodeOfEncodeGivesTheCommandBack (.processBytes 51 9 0) [7#32] rfl,
    decodeOfEncodeGivesTheCommandBack (.processByte 0x1F#8 0) [] rfl,
    decodeOfEncodeGivesTheCommandBack (.doFinal 16) [] rfl,
    decode_of_reservedField rfl (by decide) rfl,
    decode_of_reservedOpcode rfl⟩

end Sys2Proof
end

section
/-! PROOFS. The responses (30_encoding.md R105, R106): what a command answers, and that a step only appends to them. -/

namespace Sys2Proof.Machine

/-! ### The response of a command -/

/-- The responses a command can give: the only data is the tag that GET_MAC shows or the name of the algorithm. -/
inductive CommandResponse (s : State) : Response → Prop where
  | error (st : Status) : CommandResponse s (errorResponse st)
  | done (result : Nat) : CommandResponse s (okResponse result [])
  | mac (result : Nat) : CommandResponse s (okResponse result s.eng.visibleMac)
  | name (result : Nat) : CommandResponse s (okResponse result s.cfg.algName)

/-- Every command answers a next state with one response of those listed. -/
theorem exec_response (i : Instr) (s : State) :
    ∃ t r, exec i s = .next t ∧ t.responses = s.responses ++ [r] ∧ CommandResponse s r := by
  cases i with
  | init dir kp ap tagBits koff klen noff nlen aoff alen =>
    obtain ⟨st, -, -, he⟩ | ⟨-, he⟩ := execInit_cases dir kp ap tagBits koff klen noff nlen aoff alen s
    · exact ⟨_, _, he, rfl, .error st⟩
    · exact ⟨_, _, he, rfl, .done _⟩
  | processAad inOff inLen =>
    obtain ⟨st, -, he⟩ | ⟨-, -, -, -, he⟩ := execProcessAad_cases inOff inLen s
    · exact ⟨_, _, he, rfl, .error st⟩
    · exact ⟨_, _, he, rfl, .done _⟩
  | processBytes inOff inLen outOff =>
    obtain ⟨st, -, he⟩ | ⟨-, -, -, -, he⟩ := execProcessBytes_cases inOff inLen outOff s
    · exact ⟨_, _, he, rfl, .error st⟩
    · exact ⟨_, _, he, rfl, .done _⟩
  | processByte byte outOff =>
    obtain ⟨st, -, he⟩ | ⟨-, -, -, he⟩ := execProcessByte_cases byte outOff s
    · exact ⟨_, _, he, rfl, .error st⟩
    · exact ⟨_, _, he, rfl, .done _⟩
  | doFinal outOff =>
    obtain ⟨st, -, he⟩ | ⟨-, -, he⟩ | ⟨-, -, -, -, he⟩ := execDoFinal_cases outOff s
    · exact ⟨_, _, he, rfl, .error st⟩
    · exact ⟨_, _, he, rfl, .error _⟩
    · exact ⟨_, _, he, rfl, .done _⟩
  | getMac => exact ⟨_, _, execGetMac_eq s, rfl, .mac _⟩
  | reset =>
    obtain ⟨-, he⟩ | ⟨-, he⟩ := execReset_cases s <;> exact ⟨_, _, he, rfl, .done _⟩
  | getUpdateOutputSize len =>
    obtain ⟨-, he⟩ | ⟨-, he⟩ := execGetUpdateOutputSize_cases len s
    · exact ⟨_, _, he, rfl, .error _⟩
    · exact ⟨_, _, he, rfl, .done _⟩
  | getOutputSize len =>
    obtain ⟨-, he⟩ | ⟨-, he⟩ := execGetOutputSize_cases len s
    · exact ⟨_, _, he, rfl, .error _⟩
    · exact ⟨_, _, he, rfl, .done _⟩
  | getAlgorithmName => exact ⟨_, _, execGetAlgorithmName_eq s, rfl, .name _⟩

theorem CommandResponse.empty_of_error {s : State} {r : Response} (h : CommandResponse s r) (hr : r.status ≠ .ok) :
    r.result = 0#64 ∧ r.rdata = [] := by
  cases h with
  | error st => exact ⟨rfl, rfl⟩
  | done | mac | name => exact absurd rfl hr

/-- Settles O9: among the responses of a command only an error is not OK, and an error is empty. -/
theorem everyCommandGivesOneResponse : Obligations.EveryCommandGivesOneResponse := by
  intro i s
  obtain ⟨t, r, he, hresp, hr⟩ := exec_response i s
  exact ⟨t, r, he, hresp, hr.empty_of_error⟩

/-! ### Well-formed responses -/

theorem responseOk_error (st : Status) : ResponseOk (errorResponse st) :=
  ⟨fun _ => ⟨rfl, rfl⟩, Nat.zero_le _⟩

theorem length_algName_le {c : Config} (hc : c.wf = true) : c.algName.length ≤ 255 := by
  simp only [Config.wf, Bool.and_eq_true, decide_eq_true_eq] at hc
  obtain ⟨-, hname⟩ := hc
  exact hname

/-- The tag GET_MAC shows has `TAG_LEN` bytes of a session, at most 16 (R42, R132). -/
theorem length_visibleMac_le {c : Config} {e : Engine} (h : EngineInv c e) : e.visibleMac.length ≤ 16 := by
  unfold Engine.visibleMac
  split_ifs with hm
  · have hu : e.phase ≠ .uninit := fun hu => by
      have hno := ((paramsOk_uninit hu).1 h.params).2
      rw [hm] at hno
      cases hno
    rw [h.macLength hm]
    exact tagLen_le_of_tagBitsOk ((paramsOk_session hu).1 h.params).tagBits
  · exact Nat.zero_le _

theorem CommandResponse.responseOk {s : State} {r : Response} (h : CommandResponse s r) (hs : StateInv s) :
    ResponseOk r := by
  obtain ⟨hc, hinv⟩ := hs
  refine ⟨h.empty_of_error, ?_⟩
  cases h with
  | error | done => exact Nat.zero_le _
  | mac => exact (length_visibleMac_le hinv).trans (by decide)
  | name => exact length_algName_le hc

/-! ### The responses after a step -/

/-- No move of the host gives a response, and neither does the command that a power-on loses (R430, R441, U16). -/
theorem afterMove_responses (s : State) (m : HostMove) : (s.afterMove m).responses = s.responses := by
  cases m with
  | send | present | store | powerOn => rfl
  | sendLost words =>
    obtain h | ⟨_, -, h⟩ := loseCommand_cases { s with port := s.port ++ words } <;> rw [State.afterMove, h] <;> rfl

theorem takeMove_responses {s t : State} (h : takeMove s = .next t) : t.responses = s.responses := by
  unfold takeMove at h
  split at h
  · cases h; rfl
  · rename_i m ms _
    obtain ⟨-, hf⟩ | ⟨-, hn⟩ := hostMove_cases m { s with moves := ms }
    · rw [hf] at h; cases h
    · rw [hn] at h
      cases h
      exact afterMove_responses { s with moves := ms } m

/-- A step leaves the responses alone, or appends one that is as R105 says. -/
theorem step_responses {s t : State} (hs : StateInv s) (h : step s = .next t) :
    t.responses = s.responses ∨ ∃ r, t.responses = s.responses ++ [r] ∧ ResponseOk r := by
  obtain ⟨i, rest, -, he⟩ | ⟨_, rest, -, he⟩ | ⟨-, he⟩ := step_cases s <;> rw [he] at h
  · obtain ⟨u, r, hu, hresp, hr⟩ := exec_response i { s with port := rest }
    obtain rfl : u = t := Host.Outcome.next.inj (hu.symm.trans h)
    exact .inr ⟨r, hresp, hr.responseOk hs⟩
  · cases h
    exact .inr ⟨_, rfl, responseOk_error _⟩
  · exact .inl (takeMove_responses h)

/-- Settles O25: what a step appends is well formed, and the old responses stay in front. -/
theorem stepKeepsTheResponsesWellFormed : Obligations.StepKeepsTheResponsesWellFormed := by
  intro s t hs hok h
  obtain hsame | ⟨r, hresp, hr⟩ := step_responses hs h
  · exact ⟨hsame ▸ List.prefix_rfl, hsame ▸ hok⟩
  · rw [hresp]
    refine ⟨List.prefix_append _ _, fun r' hr' => ?_⟩
    obtain hold | hnew := List.mem_append.1 hr'
    · exact hok r' hold
    · obtain rfl := List.mem_singleton.1 hnew
      exact hr

end Sys2Proof.Machine
end

section
/-! PROOFS. What a command answers when its checks are known: the forward rules beside the inversion lemmas of
Sys2Proof/Laws/Commands.lean, and the phase after every command (40_engine_commands.md R152). -/

namespace Sys2Proof.Machine

/-! ### A command's answer, by the checks that pass or fail -/

/-- The commands that R390 refuses before the first INIT. -/
def NeedsSession : Instr → Prop
  | .processAad .. | .processBytes .. | .processByte .. | .doFinal .. => True
  | .getUpdateOutputSize _ | .getOutputSize _ => True
  | .init .. | .getMac | .reset | .getAlgorithmName => False

section Answers
variable {s : State}

theorem exec_of_uninit (hu : s.eng.phase = .uninit) {i : Instr} (hi : NeedsSession i) :
    exec i s = .next (s.answered (errorResponse .illegalState)) := by
  cases i with
  | processAad | processBytes | processByte | doFinal | getUpdateOutputSize | getOutputSize => exact if_pos hu
  | init | getMac | reset | getAlgorithmName => exact hi.elim

theorem execProcessAad_of_data (hd : s.eng.phase = .data) (inOff inLen : Nat) :
    execProcessAad inOff inLen s = .next (s.answered (errorResponse .illegalState)) := by
  simp [execProcessAad, hd, State.raise]

theorem execProcessAad_of_accepted {inOff inLen : Nat} (hu : s.eng.phase ≠ .uninit) (hd : s.eng.phase ≠ .data)
    (hin : s.inBounds inOff inLen = true) (hcap : aadCapacityExceeded s.cfg s.eng inLen = false) :
    execProcessAad inOff inLen s =
      .next ((s.withEngine { absorbAad s.cfg s.eng (s.inRead inOff inLen) with phase := .aad }).answered
        (okResponse 0 [])) := by
  simp [execProcessAad, hu, hd, hin, hcap, State.respondOk]

theorem processPayload_of_accepted {n outOff : Nat} (hout : s.outBounds outOff (updSize s.cfg s.eng n) = true)
    (hcap : dataCapacityExceeded s.cfg s.eng n (updSize s.cfg s.eng n) = false) (p : List Byte) :
    s.processPayload p n outOff =
      .next (((s.withEngine (feedPayload s.cfg s.eng p).1).outWrite outOff (feedPayload s.cfg s.eng p).2).answered
        (okResponse (updSize s.cfg s.eng n) [])) := by
  simp [State.processPayload, hout, hcap, State.respondOk]

theorem execProcessBytes_eq_processPayload {inOff inLen : Nat} (hu : s.eng.phase ≠ .uninit)
    (hin : s.inBounds inOff inLen = true) (outOff : Nat) :
    execProcessBytes inOff inLen outOff s = s.processPayload (s.inRead inOff inLen) inLen outOff := by
  simp [execProcessBytes, hu, hin]

theorem execProcessByte_eq_processPayload (hu : s.eng.phase ≠ .uninit) (byte : Byte) (outOff : Nat) :
    execProcessByte byte outOff s = s.processPayload [byte] 1 outOff := if_neg hu

/-- R161: the truncated input is found before `OUT` is looked at. -/
theorem execDoFinal_of_truncated (hu : s.eng.phase ≠ .uninit) (hd : s.eng.dir = .dec)
    (ht : held s.cfg s.eng < s.eng.tagLen) (outOff : Nat) :
    execDoFinal outOff s =
      .next ((s.withEngine (sessionStart s.cfg s.eng)).answered (errorResponse .invalidCiphertext)) := by
  simp [execDoFinal, hu, hd, ht, raiseInvalidCiphertext_eq]

/-- On decryption all of the tag has been received. -/
theorem not_truncated (ht : s.eng.dir = .dec → s.eng.tagLen ≤ held s.cfg s.eng) :
    ¬ (s.eng.dir = .dec ∧ held s.cfg s.eng < s.eng.tagLen) :=
  fun ⟨hd, hlt⟩ => absurd (ht hd) (Nat.not_le_of_lt hlt)

/-- R162: `OUT` too small. -/
theorem execDoFinal_of_undersized {outOff : Nat} (hu : s.eng.phase ≠ .uninit)
    (ht : s.eng.dir = .dec → s.eng.tagLen ≤ held s.cfg s.eng)
    (hout : s.outBounds outOff (outSize s.cfg s.eng 0) = false) :
    execDoFinal outOff s = .next (s.answered (errorResponse .outputLength)) := by
  simp [execDoFinal, hu, not_truncated ht, hout, State.raise]

/-- R160, R163: with the input complete and `OUT` large enough, whether the tag is verified decides. -/
theorem execDoFinal_of_fitting {outOff : Nat} (hu : s.eng.phase ≠ .uninit)
    (ht : s.eng.dir = .dec → s.eng.tagLen ≤ held s.cfg s.eng)
    (hout : s.outBounds outOff (outSize s.cfg s.eng 0) = true) :
    execDoFinal outOff s =
      if (finalFrame s.cfg s.eng).2.2 = true then
        .next (((s.withEngine { sessionStart s.cfg s.eng with mac := (finalFrame s.cfg s.eng).2.1, macValid := true }).outWrite
          outOff (finalFrame s.cfg s.eng).1).answered (okResponse (outSize s.cfg s.eng 0) []))
      else .next ((s.withEngine (sessionStart s.cfg s.eng)).answered (errorResponse .invalidCiphertext)) := by
  unfold execDoFinal
  rw [if_neg hu, if_neg (not_truncated ht), if_neg (by simp [hout])]
  rcases finalFrame s.cfg s.eng with ⟨frame, tag, ok⟩
  cases ok <;> rfl

theorem State.inBounds_iff (off n : Nat) : s.inBounds off n = true ↔ off + n ≤ s.inWin.cap.toNat := by
  simp [State.inBounds, Window.holds]

theorem State.outBounds_iff (off n : Nat) : s.outBounds off n = true ↔ off + n ≤ s.outWin.cap.toNat := by
  simp [State.outBounds, Window.holds]

end Answers

/-! ### The phase after a command -/

theorem sessionStart_phase_eq_startPhase (c : Config) (e : Engine) : (sessionStart c e).phase = startPhase e := by
  simp only [sessionStart_phase, startPhase, List.length_eq_zero_iff]

/-- The phase a session start ends in is told by the associated data of INIT, which it keeps. -/
theorem startPhase_sessionStart (c : Config) (e : Engine) : startPhase (sessionStart c e) = startPhase e := by
  simp only [startPhase, (sessionStart_sameParams c e).initAd]

/-- Settles O17: by the command, each of its answers gives the phase and the status. -/
theorem phaseFollowsTheTransitionTable : Obligations.PhaseFollowsTheTransitionTable := by
  intro i s t r h hr
  have answer {u : State} {r' : Response} (hu : exec i s = .next u) (hr' : u.responses = s.responses ++ [r']) :
      t = u ∧ r = r' := by
    obtain rfl : t = u := Host.Outcome.next.inj (h.symm.trans hu)
    exact ⟨rfl, by simpa using hr.symm.trans hr'⟩
  have illegal (hi : NeedsSession i) (hu : s.eng.phase = .uninit) : r.status = .illegalState := by
    obtain ⟨-, rfl⟩ := answer (exec_of_uninit hu hi) rfl
    rfl
  cases i with
  | init dir kp ap tagBits koff klen noff nlen aoff alen =>
    obtain ⟨st, hst, -, he⟩ | ⟨-, he⟩ := execInit_cases dir kp ap tagBits koff klen noff nlen aoff alen s <;>
      obtain ⟨rfl, rfl⟩ := answer he rfl
    · exact (if_neg (by rintro rfl; simp at hst)).symm
    · exact (sessionStart_phase_eq_startPhase ..).trans (startPhase_sessionStart ..).symm
  | processAad inOff inLen =>
    refine ⟨fun hp => ?_, ?_⟩
    · obtain hu | hd := hp
      · exact illegal trivial hu
      · obtain ⟨-, rfl⟩ := answer (execProcessAad_of_data hd inOff inLen) rfl
        rfl
    · obtain ⟨st, hst, he⟩ | ⟨-, -, -, -, he⟩ := execProcessAad_cases inOff inLen s <;>
        obtain ⟨rfl, rfl⟩ := answer he rfl
      · exact (if_neg (by rintro rfl; simp at hst)).symm
      · rfl
  | processBytes inOff inLen outOff =>
    refine ⟨illegal trivial, ?_⟩
    obtain ⟨st, hst, he⟩ | ⟨-, -, -, -, he⟩ := execProcessBytes_cases inOff inLen outOff s <;>
      obtain ⟨rfl, rfl⟩ := answer he rfl
    · exact (if_neg (by rintro rfl; simp at hst)).symm
    · exact (feedPayload_sameParams ..).2.1
  | processByte byte outOff =>
    refine ⟨illegal trivial, ?_⟩
    obtain ⟨st, hst, he⟩ | ⟨-, -, -, he⟩ := execProcessByte_cases byte outOff s <;>
      obtain ⟨rfl, rfl⟩ := answer he rfl
    · exact (if_neg (by rintro rfl; simp at hst)).symm
    · exact (feedPayload_sameParams ..).2.1
  | doFinal outOff =>
    refine ⟨illegal trivial, ?_⟩
    obtain ⟨st, hst, he⟩ | ⟨-, -, he⟩ | ⟨-, -, -, -, he⟩ := execDoFinal_cases outOff s <;>
      obtain ⟨rfl, rfl⟩ := answer he rfl
    · exact (if_neg (by rintro (rfl | rfl) <;> simp at hst)).symm
    · exact sessionStart_phase_eq_startPhase ..
    · exact sessionStart_phase_eq_startPhase ..
  | getMac =>
    obtain ⟨rfl, -⟩ := answer (execGetMac_eq s) rfl
    rfl
  | reset =>
    obtain ⟨hu, he⟩ | ⟨hu, he⟩ := execReset_cases s <;> obtain ⟨rfl, rfl⟩ := answer he rfl
    · exact ⟨rfl, hu.trans (if_pos hu).symm⟩
    · exact ⟨rfl, (sessionStart_phase_eq_startPhase ..).trans (if_neg hu).symm⟩
  | getUpdateOutputSize len =>
    refine ⟨illegal trivial, ?_⟩
    obtain ⟨-, he⟩ | ⟨-, he⟩ := execGetUpdateOutputSize_cases len s <;> obtain ⟨rfl, -⟩ := answer he rfl <;> rfl
  | getOutputSize len =>
    refine ⟨illegal trivial, ?_⟩
    obtain ⟨-, he⟩ | ⟨-, he⟩ := execGetOutputSize_cases len s <;> obtain ⟨rfl, -⟩ := answer he rfl <;> rfl
  | getAlgorithmName =>
    obtain ⟨rfl, -⟩ := answer (execGetAlgorithmName_eq s) rfl
    rfl

/-! ### Associated data after payload (R142) -/

/-- A payload command that fails leaves the phase, and one that succeeds ends in DATA. -/
theorem phase_of_feedsPayload {i : Instr} {s t : State} {r : Response} (hi : feedsPayload i) (h : exec i s = .next t)
    (hr : t.responses = s.responses ++ [r]) : t.eng.phase = if r.status = .ok then .data else s.eng.phase := by
  obtain ⟨_, _, _, rfl⟩ | ⟨_, _, rfl⟩ := hi
  · exact (phaseFollowsTheTransitionTable _ s t r h hr).2
  · exact (phaseFollowsTheTransitionTable _ s t r h hr).2

/-- A session that has accepted payload stays in DATA until a command starts another. -/
theorem phase_data_of_not_startsASession {i : Instr} {s t : State} {r : Response} (hs : s.eng.phase = .data)
    (hi : ¬ startsASession i r.status) (h : exec i s = .next t) (hr : t.responses = s.responses ++ [r]) :
    t.eng.phase = .data := by
  have hphase := phaseFollowsTheTransitionTable i s t r h hr
  cases i with
  | init dir kp ap tagBits koff klen noff nlen aoff alen =>
    have hfail : r.status ≠ .ok := fun hok => hi (.inl ⟨⟨_, _, _, _, _, _, _, _, _, _, rfl⟩, hok⟩)
    exact (hphase.trans (if_neg hfail)).trans hs
  | processAad inOff inLen =>
    obtain ⟨hillegal, hphase⟩ := hphase
    exact (hphase.trans (if_neg (by simp [hillegal (.inr hs)]))).trans hs
  | processBytes inOff inLen outOff =>
    have hphase := hphase.2
    simpa [hs] using hphase
  | processByte byte outOff =>
    have hphase := hphase.2
    simpa [hs] using hphase
  | doFinal outOff =>
    have hnot : ¬ (r.status = .ok ∨ r.status = .invalidCiphertext) := fun hst => hi (.inr (.inr ⟨⟨outOff, rfl⟩, hst⟩))
    exact (hphase.2.trans (if_neg hnot)).trans hs
  | reset => exact absurd (.inr (.inl rfl)) hi
  | getMac => exact hphase.trans hs
  | getUpdateOutputSize len => exact hphase.2.trans hs
  | getOutputSize len => exact hphase.2.trans hs
  | getAlgorithmName => exact hphase.trans hs

/-- Settles O34: the phase is DATA, in which R140 refuses PROCESS_AAD. -/
theorem aadAfterDataIsRefused : Obligations.AadAfterDataIsRefused := by
  intro i s t r h hr
  refine ⟨fun hcase hfeed => ?_, fun hfeed hfail => (phase_of_feedsPayload hfeed h hr).trans (if_neg hfail)⟩
  have hdata : t.eng.phase = .data := by
    obtain hi | ⟨hs, hi⟩ := hcase
    · rw [phase_of_feedsPayload hi h hr]
      obtain hok | hs := hfeed hi
      · exact if_pos hok
      · rw [hs, ite_self]
    · exact phase_data_of_not_startsASession hs hi h hr
  exact ⟨hdata, fun inOff inLen => execProcessAad_of_data hdata inOff inLen⟩

/-! ### GET_MAC, RESET and GET_ALGORITHM_NAME -/

/-- Settles O49: the tag is the one that `visibleMac` shows (R170). -/
theorem getMacReturnsTheTag : Obligations.GetMacReturnsTheTag :=
  fun s => ⟨s.eng.visibleMac, execGetMac_eq s, fun hm => if_pos hm, fun hm => if_neg (by simp [hm])⟩

/-- Settles O50: the two answers of RESET (R172). -/
theorem resetStartsASessionAgain : Obligations.ResetStartsASessionAgain := by
  intro s
  obtain ⟨hu, he⟩ | ⟨hu, he⟩ := execReset_cases s
  · exact ⟨fun _ => he, fun hs => absurd hu hs⟩
  · refine ⟨fun hs => absurd hs hu, fun _ => ⟨_, he, rfl, ?_, sessionStart_phase_eq_startPhase ..⟩⟩
    exact (sessionStart_sameParams s.cfg s.eng).sameSessionParams

/-- Settles O52. -/
theorem getAlgorithmNameReturnsTheName : Obligations.GetAlgorithmNameReturnsTheName := execGetAlgorithmName_eq

/-! ### DO_FINAL refused (R161, R162) -/

/-- Settles O43: the truncated input is found first. -/
theorem doFinalRefusesATruncatedInput : Obligations.DoFinalRefusesATruncatedInput :=
  fun outOff _ hu hd ht => execDoFinal_of_truncated hu hd ht outOff

/-- DO_FINAL does not look at the responses given before it. -/
theorem execDoFinal_withResponses (outOff : Nat) (s : State) :
    ∃ (e : Engine) (m : Memory) (r : Response), ∀ rs : List Response,
      execDoFinal outOff { s with responses := rs } = .next { s with eng := e, mem := m, responses := rs ++ [r] } := by
  by_cases hu : s.eng.phase = .uninit
  · exact ⟨s.eng, s.mem, errorResponse .illegalState, fun rs => if_pos hu⟩
  by_cases hcut : s.eng.dir = .dec ∧ held s.cfg s.eng < s.eng.tagLen
  · obtain ⟨hd, hcut⟩ := hcut
    exact ⟨sessionStart s.cfg s.eng, s.mem, errorResponse .invalidCiphertext,
      fun rs => execDoFinal_of_truncated (s := { s with responses := rs }) hu hd hcut outOff⟩
  have ht : s.eng.dir = .dec → s.eng.tagLen ≤ held s.cfg s.eng := fun hd => Nat.le_of_not_lt fun hlt => hcut ⟨hd, hlt⟩
  cases hout : s.outBounds outOff (outSize s.cfg s.eng 0) with
  | false =>
    exact ⟨s.eng, s.mem, errorResponse .outputLength,
      fun rs => execDoFinal_of_undersized (s := { s with responses := rs }) hu ht hout⟩
  | true =>
    cases hok : (finalFrame s.cfg s.eng).2.2 with
    | false =>
      exact ⟨sessionStart s.cfg s.eng, s.mem, errorResponse .invalidCiphertext,
        fun rs => (execDoFinal_of_fitting (s := { s with responses := rs }) hu ht hout).trans (if_neg (by simp [hok]))⟩
    | true =>
      exact ⟨{ sessionStart s.cfg s.eng with mac := (finalFrame s.cfg s.eng).2.1, macValid := true },
        s.mem.writeBytes (s.outAddr outOff) (finalFrame s.cfg s.eng).1, okResponse (outSize s.cfg s.eng 0) [],
        fun rs => (execDoFinal_of_fitting (s := { s with responses := rs }) hu ht hout).trans (if_pos hok)⟩

/-- Settles O44: the failed attempt leaves one response behind, which a retry does not look at. -/
theorem doFinalMayBeRetried : Obligations.DoFinalMayBeRetried := by
  intro outOff s hu ht hsmall
  have hout : s.outBounds outOff (outSize s.cfg s.eng 0) = false := by
    rw [← Bool.not_eq_true, State.outBounds_iff]
    exact Nat.not_le_of_lt hsmall
  refine ⟨_, execDoFinal_of_undersized hu ht hout, rfl, rfl, rfl, fun w => ?_⟩
  obtain ⟨e, m, r, hretry⟩ := execDoFinal_withResponses outOff { s with outWin := w }
  exact ⟨_, _, hretry _, hretry s.responses, rfl, rfl, r, rfl, rfl⟩

end Sys2Proof.Machine
end

section
/-! PROOFS. INIT (40_engine_commands.md R130 to R135). -/

namespace Sys2Proof.Machine

/-! ### The answer of INIT -/

theorem mem_tagSet_of_tagBitsOk (v : Variant) (tagBits : Nat) : tagBitsOk v tagBits = true ↔ tagBits ∈ tagSet v :=
  List.contains_iff_mem

theorem initKeyAccepted_iff (s : State) (kp : Bool) (koff klen : Nat) :
    initKeyAccepted s kp koff klen = true ↔
      (kp = true → keyOk s.cfg.transform (s.inRead koff klen) = true) ∧ (kp = false → s.eng.keyValid = true) := by
  cases kp <;> simp [initKeyAccepted]

section Init
variable {s : State} {dir : Dir} {kp ap : Bool} {tagBits koff klen noff nlen aoff alen : Nat}

/-- R132 to R135: the ranges lie in `IN`, and the tag length, the nonce length or the key is not accepted. -/
theorem execInit_of_badParameter (hk : kp = true → s.inBounds koff klen = true) (hn : s.inBounds noff nlen = true)
    (ha : ap = true → s.inBounds aoff alen = true)
    (hbad : ¬ (tagBitsOk s.cfg.variant tagBits = true ∧ nonceLenOk s.cfg.variant nlen = true ∧
      initKeyAccepted s kp koff klen = true)) :
    execInit dir kp ap tagBits koff klen noff nlen aoff alen s =
      .next (s.answered (errorResponse .invalidParameter)) := by
  unfold execInit
  rw [if_neg (by cases kp <;> simp [hk]), if_neg (by simp [hn]), if_neg (by cases ap <;> simp [ha])]
  split_ifs with htag hnonce hkey
  · rfl
  · rfl
  · rfl
  all_goals exact absurd ⟨by simpa using htag, by simpa using hnonce, by simpa using hkey⟩ hbad

/-- R131: INIT with all its checks passed. -/
theorem execInit_of_accepted (h : InitAccepted s kp ap tagBits koff klen noff nlen aoff alen) :
    execInit dir kp ap tagBits koff klen noff nlen aoff alen s =
      .next ((s.withEngine (commitInit s.cfg s.eng dir tagBits (initKeyBytes s kp koff klen) (s.inRead noff nlen)
        (initAdBytes s ap aoff alen))).answered (okResponse 0 [])) := by
  obtain ⟨_, -, hnot, -⟩ | ⟨-, he⟩ := execInit_cases dir kp ap tagBits koff klen noff nlen aoff alen s
  · exact absurd h hnot
  · exact he

end Init

theorem commitInit_sameParams (c : Config) (e : Engine) (dir : Dir) (tagBits : Nat) (k n ad : List Byte) :
    SameParams (e.withParams dir tagBits k n ad) (commitInit c e dir tagBits k n ad) :=
  sessionStart_sameParams c _

/-- The sets of R132 and R133, variant by variant. -/
theorem tagBits_nonceLen_accepted_iff (v : Variant) (tagBits nlen : Nat) :
    (tagBitsOk v tagBits = true ∧ nonceLenOk v nlen = true) ↔
      (v = .ccm → tagBits ∈ [32, 48, 64, 80, 96, 112, 128] ∧ 7 ≤ nlen ∧ nlen ≤ 13) ∧
      (v = .ocb → tagBits ∈ [64, 72, 80, 88, 96, 104, 112, 120, 128] ∧ 1 ≤ nlen ∧ nlen ≤ 15) := by
  rw [mem_tagSet_of_tagBitsOk]
  cases v <;> simp [nonceLenOk, tagSet]

/-- Settles O27: the three checks decide between the session and INVALID_PARAMETER. -/
theorem initSucceedsExactlyWhenItsChecksPass : Obligations.InitSucceedsExactlyWhenItsChecksPass := by
  intro dir kp ap tagBits koff klen noff nlen aoff alen s hk hn ha had
  rw [← State.inBounds_iff] at hk hn ha
  rw [← and_assoc, ← tagBits_nonceLen_accepted_iff, ← initKeyAccepted_iff, and_assoc]
  by_cases hgood : tagBitsOk s.cfg.variant tagBits = true ∧ nonceLenOk s.cfg.variant nlen = true ∧
      initKeyAccepted s kp koff klen = true
  · have ⟨htag, hnonce, hkey⟩ := hgood
    obtain ⟨hsupplied, hretained⟩ := (initKeyAccepted_iff s kp koff klen).1 hkey
    have hacc : InitAccepted s kp ap tagBits koff klen noff nlen aoff alen :=
      ⟨fun h => ⟨hk, hsupplied h⟩, hretained, hn, fun _ => ⟨ha, had⟩, htag, hnonce⟩
    exact ⟨_, okResponse 0 [], execInit_of_accepted hacc, rfl, ⟨fun _ => hgood, fun _ => rfl⟩, fun h => absurd rfl h⟩
  · refine ⟨_, errorResponse .invalidParameter, execInit_of_badParameter (fun _ => hk) hn (fun _ => ha) hgood, rfl,
      ⟨fun h => ?_, fun h => absurd h hgood⟩, fun _ => rfl⟩
    cases h

/-- Settles O28: `commitInit` is the session start under the parameters written. -/
theorem initCommitsTheSessionParameters : Obligations.InitCommitsTheSessionParameters := by
  intro dir kp ap tagBits koff klen noff nlen aoff alen s hacc
  obtain ⟨hdir, hkey, hvalid, hnonce, htag, had⟩ := commitInit_sameParams s.cfg s.eng dir tagBits
    (initKeyBytes s kp koff klen) (s.inRead noff nlen) (initAdBytes s ap aoff alen)
  refine ⟨commitInit s.cfg s.eng dir tagBits (initKeyBytes s kp koff klen) (s.inRead noff nlen) (initAdBytes s ap aoff alen),
    execInit_of_accepted hacc, hkey, hvalid, hdir, htag, hnonce, ?_, had, sessionStart_mac ..,
    sessionStart_macValid .., ?_, ?_⟩
  · rw [Engine.nonceLen, hnonce, Engine.withParams_nonce, State.length_inRead]
  · exact (sessionStart_phase_eq_startPhase ..).trans (startPhase_sessionStart ..).symm
  · rw [hkey, hnonce, had]
    rfl

/-! ### Key reuse (R135) -/

/-- A session start forgets all but the session parameters, the tag register and the registers of the other variant. -/
theorem sessionStart_congr {c : Config} {e e' : Engine} (hp : SameParams e e') (hm : e'.mac = e.mac)
    (hv : e'.macValid = e.macValid) (hu : SameUnused c e e') : sessionStart c e' = sessionStart c e := by
  obtain ⟨hdir, hkey, hvalid, hnonce, htag, had⟩ := hp
  obtain ⟨hccm, hocb⟩ := hu
  unfold sessionStart clearSession absorbAad
  cases hc : c.variant <;> simp [*]

theorem OtherVariantUnused.sameUnused {s s' : State} (h : OtherVariantUnused s) (h' : OtherVariantUnused s')
    (hc : s'.cfg = s.cfg) : SameUnused s.cfg s.eng s'.eng := by
  rw [otherVariantUnused_iff] at h h'
  rw [hc] at h'
  exact ⟨fun hv => (h'.1 hv).trans (h.1 hv).symm, fun hv => (h'.2 hv).trans (h.2 hv).symm⟩

/-- The session INIT commits depends only on what it is given. -/
theorem commitInit_congr {c : Config} {e e' : Engine} (hu : SameUnused c e e') (dir : Dir) (tagBits : Nat)
    (k n ad : List Byte) : commitInit c e' dir tagBits k n ad = commitInit c e dir tagBits k n ad :=
  sessionStart_congr ⟨rfl, rfl, rfl, rfl, rfl, rfl⟩ rfl rfl hu

theorem inRead_congr {s s' : State} (hw : s'.inWin = s.inWin) (hm : s'.mem = s.mem) (off n : Nat) :
    s'.inRead off n = s.inRead off n := by
  simp only [State.inRead, hw, hm]

/-- Where an INIT with a key is accepted, so is one without from a state that retains a key. -/
theorem InitAccepted.reuse {s s' : State} {ap : Bool} {tagBits koff klen noff nlen aoff alen : Nat}
    (h : InitAccepted s true ap tagBits koff klen noff nlen aoff alen) (hc : s'.cfg = s.cfg) (hw : s'.inWin = s.inWin)
    (hk : s'.eng.keyValid = true) (koff' klen' : Nat) :
    InitAccepted s' false ap tagBits koff' klen' noff nlen aoff alen := by
  obtain ⟨-, -, hn, ha, htag, hnonce⟩ := h
  refine ⟨fun h => absurd h Bool.false_ne_true, fun _ => hk, ?_, ?_, by rwa [hc], by rwa [hc]⟩
  · simpa only [State.inBounds, hw] using hn
  · simpa only [State.inBounds, hw, hc] using ha

/-- Settles O30: the retained key stands for the supplied one, and a session start forgets the rest. -/
theorem keyReuseStartsTheSameSession : Obligations.KeyReuseStartsTheSameSession := by
  refine ⟨?_, ?_, ?_⟩
  · intro dir ap tagBits koff klen noff nlen aoff alen koff' klen' s s' t hacc hc hw hm hs hs' hvalid hkey h
    obtain rfl := Host.Outcome.next.inj (h.symm.trans (execInit_of_accepted hacc))
    refine ⟨_, execInit_of_accepted (hacc.reuse hc hw hvalid koff' klen'), ?_⟩
    have hkb : initKeyBytes s' false koff' klen' = initKeyBytes s true koff klen := hkey
    have had : initAdBytes s' ap aoff alen = initAdBytes s ap aoff alen := by
      simp only [initAdBytes, inRead_congr hw hm]
    rw [hkb, had, inRead_congr hw hm, hc]
    exact commitInit_congr (hs.sameUnused hs' hc) ..
  · intro dir ap tagBits koff klen noff nlen aoff alen s hacc
    have hsame := commitInit_sameParams s.cfg s.eng dir tagBits s.eng.key (s.inRead noff nlen) (initAdBytes s ap aoff alen)
    exact ⟨_, execInit_of_accepted hacc, rfl, hsame.key, hsame.keyValid⟩
  · intro dir ap tagBits koff klen noff nlen aoff alen s hno hn ha
    refine execInit_of_badParameter (fun h => absurd h Bool.false_ne_true) ((State.inBounds_iff ..).2 hn)
      (fun h => (State.inBounds_iff ..).2 (ha h)) fun ⟨_, _, hkey⟩ => ?_
    exact absurd (hno.symm.trans hkey) Bool.false_ne_true

end Sys2Proof.Machine
end

section
/-! PROOFS. The associated data: the window of R151 absorbs a string block by block (43_ocb_offset_mac.md R291), and
PROCESS_AAD (40_engine_commands.md R140, R141). -/

namespace Sys2Proof.Machine

/-! ### The whole blocks of a string -/

theorem wholeBlocks_of_short {a : List Byte} (h : a.length < 16) : wholeBlocks a = [] := by
  simp [wholeBlocks, Nat.div_eq_of_lt h]

/-- The first block of a string, then the whole blocks of what follows it. -/
theorem wholeBlocks_append {b a : List Byte} (hb : b.length = 16) :
    wholeBlocks (b ++ a) = blockOfBytes b :: wholeBlocks a := by
  have hlen : (b ++ a).length / 16 = a.length / 16 + 1 := by simp [hb]
  simp only [wholeBlocks, hlen, List.range_succ_eq_map, List.map_cons, List.map_map]
  congr 1
  · simp [← hb]
  · refine List.map_congr_left fun j _ => ?_
    have hdrop : (b ++ a).drop (16 * (j + 1)) = a.drop (16 * j) := by
      rw [show 16 * (j + 1) = b.length + 16 * j by omega, List.drop_length_add_append]
    simp only [Function.comp_apply, Nat.succ_eq_add_one, hdrop]

/-- A string by its blocks: what holds of the strings shorter than a block, and of a string with a block put in front of it,
holds of every string. -/
theorem blockwise_induction {P : List Byte → Prop} (short : ∀ a, a.length < 16 → P a)
    (block : ∀ b a, b.length = 16 → P a → P (b ++ a)) (a : List Byte) : P a := by
  induction hn : a.length using Nat.strong_induction_on generalizing a with
  | _ n ih =>
    by_cases hlt : a.length < 16
    · exact short a hlt
    · rw [← List.take_append_drop 16 a]
      exact block _ _ (by simp; omega) (ih (a.drop 16).length (by simp; omega) _ rfl)

/-! ### The associated-data window -/

section HashFeed
variable (t : Transform) (k : List Byte)

theorem hashFeedByte_of_short {r : OcbRegs} {b : Byte} (h : r.hashBuf.length < 15) :
    hashFeedByte t k r b = { r with hashBuf := r.hashBuf ++ [b] } := by
  have hne : ¬ (r.hashBuf ++ [b]).length = 16 := by simp; omega
  simp only [hashFeedByte, hne, if_false]

/-- Bytes that complete no block are held. -/
theorem hashFeed_of_short {r : OcbRegs} {a : List Byte} (h : r.hashBuf.length + a.length < 16) :
    hashFeed t k r a = { r with hashBuf := r.hashBuf ++ a } := by
  induction a generalizing r with
  | nil => simp [hashFeed]
  | cons b a ih =>
    rw [List.length_cons] at h
    have hfeed : hashFeed t k r (b :: a) = hashFeed t k (hashFeedByte t k r b) a := rfl
    rw [hfeed, hashFeedByte_of_short t k (by omega), ih (by simp; omega)]
    simp

/-- A block into the empty window is absorbed (R291). -/
theorem hashFeed_block {r : OcbRegs} {b : List Byte} (hr : r.hashBuf = []) (hb : b.length = 16) :
    hashFeed t k r b = ocbHashBlock t k r (blockOfBytes b) := by
  have hlast : b = b.dropLast ++ [b.getLast (by rintro rfl; simp at hb)] := (List.dropLast_append_getLast _).symm
  have hinit : b.dropLast.length = 15 := by simp [hb]
  generalize b.dropLast = p at hlast hinit
  generalize b.getLast _ = x at hlast
  subst hlast
  rw [hashFeed_append, hashFeed_of_short t k (a := p) (by simp [hr, hinit])]
  simp [hashFeed, hashFeedByte, hr, hinit, ocbHashBlock, OcbRegs.ltAt]

theorem pmacChain_congr {r r' : OcbRegs} (h : r'.lt = r.lt) (bs : List Block) (i : Nat) (off sum : Block) :
    pmacChain t k r' i off sum bs = pmacChain t k r i off sum bs := by
  induction bs generalizing i off sum with
  | nil => rfl
  | cons b bs ih => simp only [pmacChain, OcbRegs.ltAt, h, ih]

end HashFeed

theorem toNat_add_ofNat_of_lt {x : BitVec 64} {n : Nat} (h : x.toNat + n < 2 ^ 64) :
    (x + BitVec.ofNat 64 n).toNat = x.toNat + n := by
  rw [BitVec.toNat_add, BitVec.toNat_ofNat]
  omega

/-- Settles O32: by blocks; a block in front is one step of the chain. -/
theorem associatedDataIsHashedBlockwise : Obligations.AssociatedDataIsHashedBlockwise := by
  intro t k r a hr hcount
  induction a using blockwise_induction generalizing r with
  | short a hlt =>
    rw [hashFeed_of_short t k (by simpa [hr] using hlt), wholeBlocks_of_short hlt, Nat.div_eq_of_lt hlt]
    simp [hr, pmacChain]
  | block b a hb ih =>
    have hlen : (b ++ a).length / 16 = a.length / 16 + 1 := by simp [hb]
    rw [hlen] at hcount ⊢
    have hone : (r.hashCount + 1#64).toNat = r.hashCount.toNat + 1 := toNat_add_ofNat_of_lt (by omega)
    rw [hashFeed_append, hashFeed_block t k hr hb, wholeBlocks_append hb]
    obtain ⟨hbuf, hcnt, hchain⟩ := ih (ocbHashBlock t k r (blockOfBytes b)) hr
      (by rw [ocbHashBlock_hashCount, hone]; omega)
    rw [ocbHashBlock_hashCount, hone] at hcnt hchain
    refine ⟨?_, by omega, ?_⟩
    · rw [hbuf, show 16 * (a.length / 16 + 1) = b.length + 16 * (a.length / 16) by omega,
        List.drop_length_add_append]
    · rw [hchain, pmacChain_congr t k (ocbHashBlock_lt ..)]
      simp only [pmacChain, ocbHashBlock, hone]

/-! ### PROCESS_AAD -/

/-- A state with the same payload side differs in the four associated-data registers only. -/
theorem SamePayloadSide.eq_with {r r' : OcbRegs} (h : SamePayloadSide r r') :
    r' = { r with
      hashBuf := r'.hashBuf, hashCount := r'.hashCount, hashOffset := r'.hashOffset, hashSum := r'.hashSum } := by
  obtain ⟨hstar, hdollar, hlt, hoff, hck, hbuf, hcnt⟩ := h
  rw [← hstar, ← hdollar, ← hlt, ← hoff, ← hck, ← hbuf, ← hcnt]

theorem aadCapacityExceeded_iff (c : Config) (e : Engine) (n : Nat) :
    aadCapacityExceeded c e n = true ↔ AadExceeds c e n := by
  unfold aadCapacityExceeded AadExceeds Engine.hashPos
  cases c.variant <;> simp
  omega

/-- The registers after PROCESS_AAD (R140). -/
def afterAad (c : Config) (e : Engine) (a : List Byte) : Engine := { absorbAad c e a with phase := .aad }

theorem execProcessAad_eq_afterAad {s : State} {inOff inLen : Nat} (hu : s.eng.phase ≠ .uninit)
    (hd : s.eng.phase ≠ .data) (hin : inOff + inLen ≤ s.inWin.cap.toNat)
    (hcap : aadCapacityExceeded s.cfg s.eng inLen = false) :
    exec (.processAad inOff inLen) s =
      .next ((s.withEngine (afterAad s.cfg s.eng (s.inRead inOff inLen))).answered (okResponse 0 [])) :=
  execProcessAad_of_accepted hu hd ((State.inBounds_iff ..).2 hin) hcap

theorem afterAad_sameParams (c : Config) (e : Engine) (a : List Byte) :
    SameParams e (afterAad c e a) ∧ (afterAad c e a).mac = e.mac ∧ (afterAad c e a).macValid = e.macValid := by
  unfold afterAad absorbAad
  cases c.variant <;> exact ⟨⟨rfl, rfl, rfl, rfl, rfl, rfl⟩, rfl, rfl⟩

theorem afterAad_ccm {c : Config} (hv : c.variant = .ccm) (e : Engine) (a : List Byte) :
    afterAad c e a = { e with phase := .aad, ccm := { e.ccm with aadBuf := e.ccm.aadBuf ++ a } } := by
  rw [afterAad, absorbAad_ccm hv]

theorem afterAad_ocb {c : Config} (hv : c.variant = .ocb) (e : Engine) (a : List Byte) :
    afterAad c e a = { e with phase := .aad, ocb := hashFeed c.transform e.key e.ocb a } := by
  rw [afterAad, absorbAad_ocb hv]

/-- The associated-data window and its block counter (R35, R36), which does not wrap where the check of R141 passed. -/
theorem afterAad_window {c : Config} {e : Engine} (hv : c.variant = .ocb) (hw : e.hashPos ≤ 15) {a : List Byte}
    (hcap : aadCapacityExceeded c e a.length = false) :
    (afterAad c e a).hashPos = (e.hashPos + a.length) % 16 ∧
    (afterAad c e a).ocb.hashCount.toNat = e.ocb.hashCount.toNat + (e.hashPos + a.length) / 16 := by
  obtain ⟨hfill, hcount⟩ := hashFeed_window c.transform e.key e.ocb a hw
  simp only [aadCapacityExceeded, hv, decide_eq_false_iff_not] at hcap
  rw [afterAad_ocb hv]
  refine ⟨hfill, ?_⟩
  rw [hcount]
  exact toNat_add_ofNat_of_lt (by unfold Engine.hashPos at hcap; omega)

/-- Settles O31: the accepted PROCESS_AAD, variant by variant. -/
theorem processAadAbsorbsItsBytes : Obligations.ProcessAadAbsorbsItsBytes := by
  intro inOff inLen s hp hin hcap hw
  rw [← aadCapacityExceeded_iff, Bool.not_eq_true] at hcap
  have hu : s.eng.phase ≠ .uninit := by obtain hp | hp := hp <;> simp [hp]
  have hd : s.eng.phase ≠ .data := by obtain hp | hp := hp <;> simp [hp]
  obtain ⟨hsame, hmac, hvalid⟩ := afterAad_sameParams s.cfg s.eng (s.inRead inOff inLen)
  refine ⟨_, execProcessAad_eq_afterAad hu hd hin hcap, rfl, hsame.sameSessionParams, hmac, hvalid, fun hv => ?_,
    fun hv => ?_⟩
  · rw [State.withEngine_eng, afterAad_ccm hv]
    exact ⟨rfl, rfl⟩
  · obtain ⟨hfill, hcount⟩ := afterAad_window (a := s.inRead inOff inLen) hv hw (by simpa using hcap)
    rw [State.length_inRead] at hfill hcount
    refine ⟨?_, ?_, hfill, hcount, ?_⟩ <;> rw [State.withEngine_eng, afterAad_ocb hv]
    exact (hashFeed_samePayloadSide ..).eq_with

/-! ### PROCESS_AAD in two parts -/

theorem afterAad_append (c : Config) (e : Engine) (a b : List Byte) :
    afterAad c (afterAad c e a) b = afterAad c e (a ++ b) := by
  unfold afterAad absorbAad
  cases c.variant <;> simp [hashFeed_append]

theorem aadCapacityExceeded_of_le {c : Config} {e : Engine} {m n : Nat} (hmn : m ≤ n)
    (h : aadCapacityExceeded c e n = false) : aadCapacityExceeded c e m = false := by
  unfold aadCapacityExceeded at h ⊢
  cases hv : c.variant <;> simp [hv] at h ⊢ <;> omega

/-- What fits in one part fits after the first. -/
theorem aadCapacityExceeded_afterAad {c : Config} {e : Engine} {a : List Byte} {n : Nat} (hw : e.hashPos ≤ 15)
    (h : aadCapacityExceeded c e (a.length + n) = false) : aadCapacityExceeded c (afterAad c e a) n = false := by
  have hcap := aadCapacityExceeded_of_le (Nat.le_add_right a.length n) h
  cases hv : c.variant with
  | ccm =>
    simp only [aadCapacityExceeded, hv, decide_eq_false_iff_not] at h ⊢
    simp only [afterAad_ccm hv, List.length_append]
    omega
  | ocb =>
    obtain ⟨hfill, hcount⟩ := afterAad_window hv hw hcap
    simp only [aadCapacityExceeded, hv, decide_eq_false_iff_not] at h ⊢
    rw [hfill, hcount]
    omega

/-- A range of `IN` read in two parts. -/
theorem State.inRead_add (s : State) (off m n : Nat) : s.inRead off (m + n) = s.inRead off m ++ s.inRead (off + m) n := by
  simp only [State.inRead, Memory.readBytes_add, Nat.add_assoc]

/-- Settles O33: two feeds are one feed of both strings, and the checks of the whole imply those of the parts. -/
theorem associatedDataSplitDoesNotMatter : Obligations.AssociatedDataSplitDoesNotMatter := by
  intro inOff m n s t hw h hr
  have answer {u : State} (hu : exec (.processAad inOff (m + n)) s = .next u) : t = u :=
    Host.Outcome.next.inj (h.symm.trans hu)
  obtain ⟨st, hst, he⟩ | ⟨hu, hd, hin, hcap, he⟩ := execProcessAad_cases inOff (m + n) s
  · obtain rfl := answer he
    have hresp : errorResponse st = ⟨.ok, 0#64, []⟩ := by simpa using hr
    obtain rfl : st = .ok := congrArg Response.status hresp
    simp at hst
  · obtain rfl := answer he
    rw [State.inBounds_iff] at hin
    have hcap' : aadCapacityExceeded s.cfg (afterAad s.cfg s.eng (s.inRead inOff m)) n = false :=
      aadCapacityExceeded_afterAad hw (by simpa using hcap)
    refine ⟨_, _, execProcessAad_eq_afterAad hu hd (by omega) (aadCapacityExceeded_of_le (Nat.le_add_right m n) hcap),
      execProcessAad_eq_afterAad (by simp [afterAad]) (by simp [afterAad]) (by simpa [Nat.add_assoc] using hin) hcap',
      ?_, rfl, by simp [okResponse]⟩
    rw [State.inRead_add]
    exact afterAad_append ..

end Sys2Proof.Machine
end

section
/-! PROOFS. What the session start leaves in every register (40_engine_commands.md R150), the initial offset bit by bit
(43_ocb_offset_mac.md R285, R286). -/

namespace Sys2Proof.Machine

/-! ### Bits of a byte string -/

/-- Bit `p` of a byte string, the most significant bit of byte 0 the first, is this bit of its number (R11). -/
theorem intBe_testBit (s : List Byte) {p : Nat} (hp : p < 8 * s.length) :
    (intBe s).testBit (8 * s.length - 1 - p) = (s.getD (p / 8) 0#8).getMsbD (p % 8) := by
  induction s generalizing p with
  | nil => simp at hp
  | cons b s ih =>
    rw [List.length_cons] at hp ⊢
    have hlow : intBe s < 2 ^ (8 * s.length) := by simpa [pow_mul] using intBe_lt s
    have hnum : intBe (b :: s) = 2 ^ (8 * s.length) * b.toNat + intBe s := by
      rw [intBe_cons, pow_mul, Nat.mul_comm]; rfl
    rw [hnum, Nat.testBit_two_pow_mul_add _ hlow]
    by_cases hfirst : p < 8
    · rw [if_neg (by omega), Nat.div_eq_of_lt hfirst, Nat.mod_eq_of_lt hfirst, BitVec.getMsbD_eq_getLsbD,
        show 8 * (s.length + 1) - 1 - p - 8 * s.length = 8 - 1 - p by omega]
      simp [hfirst, BitVec.getLsbD]
    · obtain ⟨q, rfl⟩ : ∃ q, p = q + 8 := ⟨p - 8, by omega⟩
      rw [if_pos (by omega), show 8 * (s.length + 1) - 1 - (q + 8) = 8 * s.length - 1 - q by omega, ih (by omega),
        Nat.add_div_right q (by decide), Nat.add_mod_right]
      rfl

/-- A window of 128 bits of a string of 24 bytes, `bottom` bits from its start (R286). -/
theorem getMsbD_ofNat_intBe_shiftRight {s : List Byte} (hs : s.length = 24) {bottom j : Nat} (hb : bottom < 64)
    (hj : j < 128) :
    (BitVec.ofNat 128 (intBe s >>> (64 - bottom))).getMsbD j = (s.getD ((bottom + j) / 8) 0#8).getMsbD ((bottom + j) % 8) := by
  rw [← intBe_testBit s (by omega), BitVec.getMsbD_eq_getLsbD, BitVec.getLsbD_ofNat, Nat.testBit_shiftRight, hs,
    show 64 - bottom + (128 - 1 - j) = 8 * 24 - 1 - (bottom + j) by omega]
  simp [hj]
  omega

/-! ### The formatted nonce (R285) -/

theorem length_formattedNonce {nonce : List Byte} (h : nonce.length ≤ 16) (tagLen : Nat) :
    (formattedNonce nonce tagLen).length = 16 := by
  simp [formattedNonce]
  omega

theorem getD_modify (f : Byte → Byte) (i : Nat) {n : Nat} {l : List Byte} (hn : n < l.length) :
    (l.modify i f).getD n 0#8 = if n = i then f (l.getD n 0#8) else l.getD n 0#8 := by
  simp only [List.getD_eq_getElem?_getD, List.getElem?_modify, List.getElem?_eq_getElem hn,
    Option.getD_some, eq_comm (a := n)]
  split <;> rfl

theorem getD_append_zeroBytes (n : Nat) (s : List Byte) (i : Nat) :
    (zeroBytes n ++ s).getD i 0#8 = if n ≤ i then s.getD (i - n) 0#8 else 0#8 := by
  split_ifs with hi
  · rw [List.getD_append_right _ _ _ _ (by simpa using hi), length_zeroBytes]
  · rw [List.getD_append _ _ _ _ (by simpa using hi), zeroBytes, List.getD_replicate _ (by omega)]

theorem or_else_self (p : Prop) [Decidable p] (x y : Byte) :
    (if p then x ||| y else x) = x ||| (if p then y else 0#8) := by
  split <;> simp

/-- The nonce at the end, the tag length in the first byte and a one before the nonce. -/
theorem getD_formattedNonce {nonce : List Byte} (h : nonce.length ≤ 15) (tagLen : Nat) {i : Nat} (hi : i < 16) :
    (formattedNonce nonce tagLen).getD i 0#8 =
      (if 16 - nonce.length ≤ i then nonce.getD (i - (16 - nonce.length)) 0#8 else 0#8) |||
        (if i = 0 then BitVec.ofNat 8 (2 * (8 * tagLen % 128)) else 0#8) ||| (if i = 15 - nonce.length then 1#8 else 0#8) := by
  have hlen : i < (zeroBytes (16 - nonce.length) ++ nonce).length := by simp; omega
  simp only [formattedNonce]
  rw [getD_modify _ _ (by simpa using hlen), getD_modify _ _ hlen, getD_append_zeroBytes, Nat.shiftLeft_eq, pow_one,
    Nat.mul_comm (8 * tagLen % 128), or_else_self, or_else_self]

/-! ### The initial offset (R286) -/

section Stretch
variable (top : Block)

theorem length_stretch : (stretch top).length = 24 := by simp [stretch]

theorem getD_stretch_low {j : Nat} (hj : j < 16) : (stretch top).getD j 0#8 = (bytesOfBlock top).getD j 0#8 :=
  List.getD_append _ _ _ _ (by simpa using hj)

theorem getD_xorBytes {a b : List Byte} {j : Nat} (ha : j < a.length) (hb : j < b.length) :
    (xorBytes a b).getD j 0#8 = a.getD j 0#8 ^^^ b.getD j 0#8 := by
  simp only [xorBytes, List.getD_eq_getElem?_getD, List.getElem?_zipWith, List.getElem?_eq_getElem ha,
    List.getElem?_eq_getElem hb, Option.getD_some]

theorem getD_stretch_high {j : Nat} (hj : j < 8) :
    (stretch top).getD (16 + j) 0#8 = (bytesOfBlock top).getD j 0#8 ^^^ (bytesOfBlock top).getD (j + 1) 0#8 := by
  rw [stretch, List.getD_append_right _ _ _ _ (by simp), length_bytesOfBlock, Nat.add_sub_cancel_left,
    getD_xorBytes (by simp; omega) (by simp; omega)]
  simp only [List.getD_eq_getElem?_getD, List.getElem?_take, List.getElem?_drop, hj, if_true, Nat.add_comm 1 j]

end Stretch

theorem toNat_and_0x3F (b : Byte) : (b &&& 0x3F#8).toNat = b.toNat % 64 := by
  rw [BitVec.toNat_and]
  exact Nat.and_two_pow_sub_one_eq_mod b.toNat 6

theorem initialOffsetIs_offset0 (t : Transform) (k : List Byte) {nonce : List Byte} (h : nonce.length ≤ 15) (tagLen : Nat) :
    InitialOffsetIs t k nonce tagLen (offset0 t k nonce tagLen) := by
  refine ⟨formattedNonce nonce tagLen, _, stretch (ktop t k nonce tagLen), _, length_formattedNonce (by omega) tagLen,
    fun i hi => getD_formattedNonce h tagLen hi, rfl, rfl, length_stretch _, fun j hj => getD_stretch_low _ hj,
    fun j hj => getD_stretch_high _ hj, fun j hj => ?_⟩
  rw [offset0, toNat_and_0x3F]
  exact getMsbD_ofNat_intBe_shiftRight (length_stretch _) (Nat.mod_lt _ (by decide)) hj

/-! ### The session start (R150) -/

theorem ocbSessionStart_hashBlocks (t : Transform) (k nonce : List Byte) (tagLen : Nat) {ad : List Byte}
    (h : ad.length < 2 ^ 32) :
    let r := hashFeed t k (ocbSessionStart t k nonce tagLen) ad
    r.hashBuf = ad.drop (16 * (ad.length / 16)) ∧ r.hashCount.toNat = ad.length / 16 ∧
      (r.hashOffset, r.hashSum) = pmacChain t k r 0 0#128 0#128 (wholeBlocks ad) := by
  intro r
  have hzero : (ocbSessionStart t k nonce tagLen).hashCount.toNat = 0 := rfl
  obtain ⟨hbuf, hcount, hchain⟩ := associatedDataIsHashedBlockwise t k (ocbSessionStart t k nonce tagLen) ad rfl (by omega)
  refine ⟨hbuf, hcount.trans (by rw [hzero, Nat.zero_add]), hchain.trans ?_⟩
  rw [pmacChain_congr t k (hashFeed_samePayloadSide t k (ocbSessionStart t k nonce tagLen) ad).lt, hzero]
  rfl

/-- Settles O29: the two variants' registers, each from its own rule. -/
theorem sessionStartSetsTheDatapath : Obligations.SessionStartSetsTheDatapath := by
  intro c e had
  refine ⟨(sessionStart_sameParams c e).sameSessionParams, sessionStart_mac c e, sessionStart_macValid c e,
    sessionStart_phase_eq_startPhase c e, fun hv => ?_, fun hv => ?_⟩
  · rw [sessionStart_ccm c e hv]
    exact ⟨(sessionStart_other c e).2 hv, rfl, rfl⟩
  · obtain ⟨hstar, hdollar, hlt0, hlt⟩ := constantsOf_sessionStart hv e
    have hocb := sessionStart_ocb c e hv
    have hpay := hashFeed_samePayloadSide c.transform e.key (ocbSessionStart c.transform e.key e.nonce e.tagLen) e.initAd
    obtain ⟨hbuf, hcount, hchain⟩ := ocbSessionStart_hashBlocks c.transform e.key e.nonce e.tagLen had
    rw [← hocb] at hpay hbuf hcount hchain
    exact ⟨(sessionStart_other c e).1 hv, hstar, hdollar, hlt0, hlt, hpay.offset,
      fun _ h15 => hpay.offset ▸ initialOffsetIs_offset0 c.transform e.key h15 e.tagLen, hpay.checksum, hpay.mainBuf,
      hpay.mainCount, hbuf, hcount, hchain⟩

end Sys2Proof.Machine
end

section
/-! PROOFS. The payload (40_engine_commands.md R143 to R146; 44_buffered_unit.md R343 to R345): PROCESS_BYTES and PROCESS_BYTE,
and a payload in two parts. -/

namespace Sys2Proof.Machine

/-! ### Writing in two parts, and reading beside a write -/

theorem Memory.writeBytes_append (m : Memory) (a : Nat) (x y : List Byte) :
    m.writeBytes a (x ++ y) = (m.writeBytes a x).writeBytes (a + x.length) y := by
  induction x generalizing m a with
  | nil => rfl
  | cons b x ih => simpa [Memory.writeBytes, Nat.add_assoc, Nat.add_comm 1] using ih (m.write a b) (a + 1)

theorem Memory.readBytes_writeBytes_apart {m : Memory} (hm : m.wf = true) {a n b : Nat} {bs : List Byte}
    (h : a + n ≤ b ∨ b + bs.length ≤ a) : (m.writeBytes b bs).readBytes a n = m.readBytes a n :=
  List.map_congr_left fun j hj => Memory.read_writeBytes_outside hm (by rw [List.mem_range] at hj; omega)

/-- Where the windows share no storage, an output leaves what a command can read from `IN` (R62). -/
theorem inRead_outWrite_apart {s : State} (hs : s.mem.wf = true) (hw : WindowsApart s) {inOff n outOff : Nat}
    {bs : List Byte} (hin : inOff + n ≤ s.inWin.cap.toNat) (hout : outOff + bs.length ≤ s.outWin.cap.toNat) :
    (s.outWrite outOff bs).inRead inOff n = s.inRead inOff n := by
  refine Memory.readBytes_writeBytes_apart hs ?_
  simp only [WindowsApart] at hw
  simp only [State.outAddr, State.outWrite_inWin]
  omega

theorem State.outAddr_add (s : State) (off n : Nat) : s.outAddr (off + n) = s.outAddr off + n := (Nat.add_assoc ..).symm

/-! ### The payload window -/

section Window
variable {dir : Dir} {tagLen : Nat}

theorem blocksEmitted_of_short {pos n : Nat} (h : pos + n < windowCap dir tagLen) : blocksEmitted dir tagLen pos n = 0 := by
  cases dir <;> simp only [blocksEmitted, windowCap] at h ⊢ <;> omega

/-- The blocks of two feeds are those of one (R345): `pos'` is what the first leaves in the window. -/
theorem blocksEmitted_add {pos pos' m : Nat} (h : pos' + 16 * blocksEmitted dir tagLen pos m = pos + m) (n : Nat) :
    blocksEmitted dir tagLen pos m + blocksEmitted dir tagLen pos' n = blocksEmitted dir tagLen pos (m + n) := by
  cases dir <;> simp only [blocksEmitted] at h ⊢ <;> omega

theorem windowFeedByte_of_short (t : Transform) (k : List Byte) {r : OcbRegs}
    (h : r.mainBuf.length + 1 < windowCap dir tagLen) (b : Byte) :
    windowFeedByte t k dir tagLen r b = ({ r with mainBuf := r.mainBuf ++ [b] }, []) := by
  have hne : ¬ (r.mainBuf ++ [b]).length = windowCap dir tagLen := by simp; omega
  simp only [windowFeedByte, hne, if_false]

theorem windowFeed_singleton (t : Transform) (k : List Byte) (r : OcbRegs) (b : Byte) :
    windowFeed t k dir tagLen r [b] = windowFeedByte t k dir tagLen r b := by
  simp [windowFeed]

end Window

/-- A state with the same associated-data side differs in the four payload registers only. -/
theorem SameHashSide.eq_with {r r' : OcbRegs} (h : SameHashSide r r') :
    r' = { r with
      mainBuf := r'.mainBuf, mainCount := r'.mainCount, offset := r'.offset, checksum := r'.checksum } := by
  obtain ⟨hstar, hdollar, hlt, hbuf, hcnt, hoff, hsum⟩ := h
  rw [← hstar, ← hdollar, ← hlt, ← hbuf, ← hcnt, ← hoff, ← hsum]

/-! ### Feeding the payload -/

theorem feedPayload_eq_ccm {c : Config} (hv : c.variant = .ccm) (e : Engine) (p : List Byte) :
    feedPayload c e p = ({ e with phase := .data, ccm := { e.ccm with dataBuf := e.ccm.dataBuf ++ p } }, []) := by
  simp only [feedPayload, hv]

theorem feedPayload_eq_ocb {c : Config} (hv : c.variant = .ocb) (e : Engine) (p : List Byte) :
    feedPayload c e p =
      ({ e with phase := .data, ocb := (windowFeed c.transform e.key e.dir e.tagLen e.ocb p).1 },
        (windowFeed c.transform e.key e.dir e.tagLen e.ocb p).2) := by
  simp only [feedPayload, hv]

/-- Two parts of the payload fed one after the other. -/
theorem feedPayload_append (c : Config) (e : Engine) (p q : List Byte) :
    feedPayload c e (p ++ q) =
      ((feedPayload c (feedPayload c e p).1 q).1, (feedPayload c e p).2 ++ (feedPayload c (feedPayload c e p).1 q).2) := by
  cases hv : c.variant with
  | ccm => simp [feedPayload_eq_ccm hv]
  | ocb => simp [feedPayload_eq_ocb hv, windowFeed_append]

theorem updSize_ccm {c : Config} (hv : c.variant = .ccm) (e : Engine) (n : Nat) : updSize c e n = 0 := by
  simp only [updSize, hv]

section Feed
variable {c : Config} {e : Engine}

/-- The output check of R143 reserves what the window emits, and the rest stays in it (R344). -/
theorem windowFeed_updSize (hv : c.variant = .ocb) (hw : MainWindowOk e) (p : List Byte) :
    (windowFeed c.transform e.key e.dir e.tagLen e.ocb p).2.length = updSize c e p.length ∧
    (windowFeed c.transform e.key e.dir e.tagLen e.ocb p).1.mainBuf.length + updSize c e p.length =
      e.ocb.mainBuf.length + p.length := by
  obtain ⟨hemit, hfill, -⟩ := windowFeed_window c.transform e.key e.dir e.tagLen e.ocb p hw.lt_windowCap
  rw [updSize_eq_blocksEmitted c e p.length hv]
  exact ⟨hemit, hfill⟩

/-- The output of two parts is as long as that of the whole (41_size_calculator.md R206). -/
theorem updSize_feedPayload (hw : c.variant = .ocb → MainWindowOk e) (p : List Byte) (n : Nat) :
    updSize c e p.length + updSize c (feedPayload c e p).1 n = updSize c e (p.length + n) := by
  cases hv : c.variant with
  | ccm => simp only [updSize_ccm hv]
  | ocb =>
    obtain ⟨-, hfill, -⟩ := windowFeed_window c.transform e.key e.dir e.tagLen e.ocb p (hw hv).lt_windowCap
    simp only [updSize_eq_blocksEmitted _ _ _ hv, feedPayload_ocb hv, ← Nat.mul_add]
    exact congrArg (16 * ·) (blocksEmitted_add hfill n)

/-- The block counter of R34 does not wrap where the capacity check of R144 passed. -/
theorem feedPayload_mainCount_toNat (hv : c.variant = .ocb) (hw : MainWindowOk e) {p : List Byte}
    (hcap : e.ocb.mainCount.toNat + updSize c e p.length / 16 < 2 ^ 64) :
    (feedPayload c e p).1.ocb.mainCount.toNat = e.ocb.mainCount.toNat + updSize c e p.length / 16 := by
  obtain ⟨-, -, hcount, -⟩ := windowFeed_window c.transform e.key e.dir e.tagLen e.ocb p hw.lt_windowCap
  rw [updSize_eq_blocksEmitted c e _ hv, Nat.mul_div_cancel_left _ (by decide : 0 < 16)] at hcap ⊢
  simp only [feedPayload_ocb hv, hcount]
  exact toNat_add_ofNat_of_lt hcap

theorem dataCapacityExceeded_ocb (hv : c.variant = .ocb) (e : Engine) (n u : Nat) :
    dataCapacityExceeded c e n u = false ↔ e.ocb.mainCount.toNat + u / 16 < 2 ^ 64 := by
  simp only [dataCapacityExceeded, hv, decide_eq_false_iff_not]
  omega

theorem dataCapacityExceeded_ccm (hv : c.variant = .ccm) (e : Engine) (n u : Nat) :
    dataCapacityExceeded c e n u = false ↔ e.ccm.dataBuf.length + n ≤ ccmQmax c e := by
  simp only [dataCapacityExceeded, hv, decide_eq_false_iff_not, not_lt]

theorem dataCapacityExceeded_of_le {m n u v : Nat} (hmn : m ≤ n) (huv : u ≤ v)
    (h : dataCapacityExceeded c e n v = false) : dataCapacityExceeded c e m u = false := by
  cases hv : c.variant with
  | ccm => rw [dataCapacityExceeded_ccm hv] at h ⊢; omega
  | ocb => rw [dataCapacityExceeded_ocb hv] at h ⊢; omega

/-- What fits in one part fits after the first. -/
theorem dataCapacityExceeded_feedPayload (hw : c.variant = .ocb → MainWindowOk e) {p : List Byte} {n : Nat}
    (h : dataCapacityExceeded c e (p.length + n) (updSize c e (p.length + n)) = false) :
    dataCapacityExceeded c (feedPayload c e p).1 n (updSize c (feedPayload c e p).1 n) = false := by
  have hsize := updSize_feedPayload hw p n
  cases hv : c.variant with
  | ccm =>
    rw [dataCapacityExceeded_ccm hv] at h ⊢
    have hq : ccmQmax c (feedPayload c e p).1 = ccmQmax c e := by rw [feedPayload_ccm hv]; rfl
    rw [hq, feedPayload_ccm hv, List.length_append]
    omega
  | ocb =>
    rw [dataCapacityExceeded_ocb hv, ← hsize] at h
    have hblocks : 16 ∣ updSize c e p.length := ⟨_, updSize_eq_blocksEmitted c e p.length hv⟩
    rw [dataCapacityExceeded_ocb hv, feedPayload_mainCount_toNat hv (hw hv) (by omega)]
    omega

end Feed

/-! ### PROCESS_BYTES and PROCESS_BYTE, accepted -/

/-- The state after an accepted payload command (R143). -/
def afterPayload (s : State) (p : List Byte) (outOff : Nat) : State :=
  (((s.withEngine (feedPayload s.cfg s.eng p).1).outWrite outOff (feedPayload s.cfg s.eng p).2).answered
    (okResponse (updSize s.cfg s.eng p.length) []))

section AfterPayload
variable (s : State) (p : List Byte) (outOff : Nat)
@[simp] theorem afterPayload_eng : (afterPayload s p outOff).eng = (feedPayload s.cfg s.eng p).1 := rfl
@[simp] theorem afterPayload_mem :
    (afterPayload s p outOff).mem = s.mem.writeBytes (s.outAddr outOff) (feedPayload s.cfg s.eng p).2 := rfl
@[simp] theorem afterPayload_responses :
    (afterPayload s p outOff).responses = s.responses ++ [okResponse (updSize s.cfg s.eng p.length) []] := rfl
@[simp] theorem afterPayload_cfg : (afterPayload s p outOff).cfg = s.cfg := rfl
@[simp] theorem afterPayload_inWin : (afterPayload s p outOff).inWin = s.inWin := rfl
@[simp] theorem afterPayload_outWin : (afterPayload s p outOff).outWin = s.outWin := rfl
@[simp] theorem afterPayload_outAddr (off : Nat) : (afterPayload s p outOff).outAddr off = s.outAddr off := rfl
end AfterPayload

theorem execProcessBytes_of_accepted {s : State} {inOff inLen outOff : Nat} (hu : s.eng.phase ≠ .uninit)
    (hin : inOff + inLen ≤ s.inWin.cap.toNat) (hout : outOff + updSize s.cfg s.eng inLen ≤ s.outWin.cap.toNat)
    (hcap : dataCapacityExceeded s.cfg s.eng inLen (updSize s.cfg s.eng inLen) = false) :
    exec (.processBytes inOff inLen outOff) s = .next (afterPayload s (s.inRead inOff inLen) outOff) := by
  rw [afterPayload, State.length_inRead]
  exact (execProcessBytes_eq_processPayload hu ((State.inBounds_iff ..).2 hin) outOff).trans
    (processPayload_of_accepted ((State.outBounds_iff ..).2 hout) hcap _)

theorem execProcessByte_of_accepted {s : State} {outOff : Nat} (hu : s.eng.phase ≠ .uninit)
    (hout : outOff + updSize s.cfg s.eng 1 ≤ s.outWin.cap.toNat)
    (hcap : dataCapacityExceeded s.cfg s.eng 1 (updSize s.cfg s.eng 1) = false) (b : Byte) :
    exec (.processByte b outOff) s = .next (afterPayload s [b] outOff) :=
  (execProcessByte_eq_processPayload hu b outOff).trans
    (processPayload_of_accepted ((State.outBounds_iff ..).2 hout) hcap _)

/-- Settles O36: the output and the registers are those of the window, whose arithmetic is `windowFeed_window`. -/
theorem ocbEmitsWhatThePredictorSays : Obligations.OcbEmitsWhatThePredictorSays := by
  intro inOff inLen outOff s hv hu hw hs hin hout hcap
  have hlen := State.length_inRead s inOff inLen
  have hexec := execProcessBytes_of_accepted hu hin hout ((dataCapacityExceeded_ocb hv ..).2 hcap)
  generalize s.inRead inOff inLen = p at hexec hlen
  subst hlen
  obtain ⟨hsame, hphase, hmac, hvalid⟩ := feedPayload_sameParams s.cfg s.eng p
  obtain ⟨hemit, hfill⟩ := windowFeed_updSize hv hw p
  have hcount := feedPayload_mainCount_toNat hv hw hcap
  have hfeed := feedPayload_eq_ocb hv s.eng p
  refine ⟨(feedPayload s.cfg s.eng p).1, s.mem.writeBytes (s.outAddr outOff) (feedPayload s.cfg s.eng p).2,
    (feedPayload s.cfg s.eng p).2, hexec, ?_, ?_, ?_, fun a => ?_, hphase, hsame.sameSessionParams, hmac, hvalid, ?_, ?_,
    hcount, ?_⟩
  · rw [hfeed]
  · rw [hfeed]; exact hemit
  · rw [hfeed, ← hemit]; exact windowFeed_mainBuf ..
  · rw [hfeed, ← hemit]; exact Memory.read_writeBytes hs ..
  · rw [hfeed]
  · rw [hfeed]; exact Nat.eq_sub_of_add_eq hfill
  · rw [hfeed]; exact (windowFeed_sameHashSide ..).eq_with

end Sys2Proof.Machine
end

section
/-! PROOFS. PROCESS_BYTE (40_engine_commands.md R146), and the payload in two parts (R145). -/

namespace Sys2Proof.Machine

/-! ### PROCESS_BYTE -/

theorem processPayload_of_small {s : State} {n outOff : Nat} (h : s.outBounds outOff (updSize s.cfg s.eng n) = false)
    (p : List Byte) : s.processPayload p n outOff = .next (s.answered (errorResponse .outputLength)) := by
  simp [State.processPayload, h, State.raise]

theorem processPayload_of_full {s : State} {n outOff : Nat} (hout : s.outBounds outOff (updSize s.cfg s.eng n) = true)
    (h : dataCapacityExceeded s.cfg s.eng n (updSize s.cfg s.eng n) = true) (p : List Byte) :
    s.processPayload p n outOff = .next (s.answered (errorResponse .capacity)) := by
  simp [State.processPayload, hout, h, State.raise]

/-- What is accepted for the payload goes on without looking at the storage or at `IN`. -/
theorem processPayload_withInput (p : List Byte) (n outOff : Nat) (s : State) :
    ∃ (e : Engine) (r : Response), ∀ (m : Memory) (w : Window), ∃ m' : Memory,
      State.processPayload { s with mem := m, inWin := w } p n outOff =
        .next { s with eng := e, mem := m', inWin := w, responses := s.responses ++ [r] } := by
  cases hout : s.outBounds outOff (updSize s.cfg s.eng n) with
  | false =>
    exact ⟨s.eng, errorResponse .outputLength, fun m w =>
      ⟨m, processPayload_of_small (s := { s with mem := m, inWin := w }) hout p⟩⟩
  | true =>
    cases hcap : dataCapacityExceeded s.cfg s.eng n (updSize s.cfg s.eng n) with
    | true =>
      exact ⟨s.eng, errorResponse .capacity, fun m w =>
        ⟨m, processPayload_of_full (s := { s with mem := m, inWin := w }) hout hcap p⟩⟩
    | false =>
      exact ⟨(feedPayload s.cfg s.eng p).1, okResponse (updSize s.cfg s.eng n) [], fun m w =>
        ⟨m.writeBytes (s.outAddr outOff) (feedPayload s.cfg s.eng p).2,
          processPayload_of_accepted (s := { s with mem := m, inWin := w }) hout hcap p⟩⟩

/-- PROCESS_BYTE does not look at the storage or at `IN`. -/
theorem execProcessByte_withInput (byte : Byte) (outOff : Nat) (s : State) :
    ∃ (e : Engine) (r : Response), ∀ (m : Memory) (w : Window), ∃ m' : Memory,
      exec (.processByte byte outOff) { s with mem := m, inWin := w } =
        .next { s with eng := e, mem := m', inWin := w, responses := s.responses ++ [r] } := by
  by_cases hu : s.eng.phase = .uninit
  · exact ⟨s.eng, errorResponse .illegalState, fun m w =>
      ⟨m, exec_of_uninit (s := { s with mem := m, inWin := w }) hu (i := .processByte byte outOff) trivial⟩⟩
  · obtain ⟨e, r, h⟩ := processPayload_withInput [byte] 1 outOff s
    refine ⟨e, r, fun m w => ?_⟩
    obtain ⟨m', hm⟩ := h m w
    exact ⟨m', (execProcessByte_eq_processPayload (s := { s with mem := m, inWin := w }) hu byte outOff).trans hm⟩

/-- Settles O37: both are `processPayload` of the same byte, and it does not read `IN`. -/
theorem processByteIsProcessBytesOfOneByte : Obligations.ProcessByteIsProcessBytesOfOneByte := by
  intro byte inOff outOff s hin hbyte
  refine ⟨?_, fun m w => ?_⟩
  · by_cases hu : s.eng.phase = .uninit
    · exact (exec_of_uninit hu (i := .processByte byte outOff) trivial).trans
        (exec_of_uninit hu (i := .processBytes inOff 1 outOff) trivial).symm
    · have hread : s.inRead inOff 1 = [byte] := by rw [← hbyte]; rfl
      have hbytes := execProcessBytes_eq_processPayload hu ((State.inBounds_iff ..).2 hin) outOff
      rw [hread] at hbytes
      exact (execProcessByte_eq_processPayload hu byte outOff).trans hbytes.symm
  · obtain ⟨e, r, h⟩ := execProcessByte_withInput byte outOff s
    obtain ⟨_, hs⟩ := h s.mem s.inWin
    obtain ⟨_, hm⟩ := h m w
    exact ⟨_, _, hs, hm, rfl, rfl⟩

/-- Settles O40: below the capacity the byte is held, nothing is emitted and no block is counted. -/
theorem ocbHoldsAByteBelowTheCapacity : Obligations.OcbHoldsAByteBelowTheCapacity := by
  intro b outOff s hv hu henc hdec hout
  have hshort : s.eng.ocb.mainBuf.length + 1 < windowCap s.eng.dir s.eng.tagLen := by
    unfold Engine.mainPos at henc hdec
    cases hd : s.eng.dir with
    | enc => have := henc hd; simp only [windowCap]; omega
    | dec => have := hdec hd; simp only [windowCap]; omega
  have hsize : updSize s.cfg s.eng 1 = 0 := by
    rw [updSize_eq_blocksEmitted _ _ _ hv, Engine.mainPos, blocksEmitted_of_short hshort]
  have hcap : dataCapacityExceeded s.cfg s.eng 1 (updSize s.cfg s.eng 1) = false := by
    rw [dataCapacityExceeded_ocb hv, hsize]
    exact s.eng.ocb.mainCount.isLt
  rw [execProcessByte_of_accepted hu (by omega) hcap b, afterPayload, List.length_singleton, hsize,
    feedPayload_eq_ocb hv, windowFeed_singleton, windowFeedByte_of_short _ _ hshort]
  rfl

/-! ### The payload in two parts -/

section TwoParts
variable {s : State}

/-- Two parts leave the registers and the storage that the whole leaves, the second written behind the first. -/
theorem afterPayload_afterPayload {p : List Byte} (hlen : (feedPayload s.cfg s.eng p).2.length = updSize s.cfg s.eng p.length)
    (q : List Byte) (outOff : Nat) :
    let t := afterPayload (afterPayload s p outOff) q (outOff + updSize s.cfg s.eng p.length)
    t.eng = (afterPayload s (p ++ q) outOff).eng ∧ t.mem = (afterPayload s (p ++ q) outOff).mem := by
  simp only [afterPayload_eng, afterPayload_mem, afterPayload_cfg, afterPayload_outAddr, feedPayload_append,
    Memory.writeBytes_append, hlen, State.outAddr_add, and_self]

theorem inRead_afterPayload (hs : s.mem.wf = true) (hapart : WindowsApart s) {p : List Byte} {inOff n outOff : Nat}
    (hin : inOff + n ≤ s.inWin.cap.toNat)
    (hout : outOff + (feedPayload s.cfg s.eng p).2.length ≤ s.outWin.cap.toNat) :
    (afterPayload s p outOff).inRead inOff n = s.inRead inOff n :=
  inRead_outWrite_apart hs hapart hin hout

/-- The results of two parts add up to that of the whole (R145). -/
theorem okResponse_result_add (a b : Nat) :
    (okResponse a []).result + (okResponse b []).result = (okResponse (a + b) []).result :=
  (BitVec.ofNat_add a b).symm

end TwoParts

/-- Settles O41: the checks of the whole imply those of the parts, and the second part reads from `IN` what the first
left there. -/
theorem payloadSplitDoesNotMatter : Obligations.PayloadSplitDoesNotMatter := by
  intro inOff m n outOff s t r ⟨_, hinv⟩ hs hapart h hr hok
  have answer {u : State} (hu : exec (.processBytes inOff (m + n) outOff) s = .next u) : t = u :=
    Host.Outcome.next.inj (h.symm.trans hu)
  obtain ⟨st, hst, he⟩ | ⟨hu, hin, hout, hcap, -⟩ := execProcessBytes_cases inOff (m + n) outOff s
  · obtain rfl := answer he
    obtain rfl : errorResponse st = r := by simpa using hr
    obtain rfl : st = .ok := hok
    simp at hst
  rw [State.inBounds_iff] at hin
  rw [State.outBounds_iff] at hout
  obtain rfl := answer (execProcessBytes_of_accepted hu hin hout hcap)
  obtain rfl : okResponse (updSize s.cfg s.eng (m + n)) [] = r := by simpa using hr
  have hlen := length_feedPayload_output hinv (s.inRead inOff m)
  have hsize := updSize_feedPayload hinv.mainWindow (s.inRead inOff m) n
  have hcap' := dataCapacityExceeded_feedPayload hinv.mainWindow (p := s.inRead inOff m) (n := n) (by simpa using hcap)
  have hsplit := afterPayload_afterPayload hlen (s.inRead (inOff + m) n) outOff
  rw [State.length_inRead] at hlen hsize hsplit
  have hfirst := execProcessBytes_of_accepted hu (by omega : inOff + m ≤ s.inWin.cap.toNat)
    (by omega : outOff + updSize s.cfg s.eng m ≤ s.outWin.cap.toNat)
    (dataCapacityExceeded_of_le (Nat.le_add_right m n) (by omega) hcap)
  have hread := inRead_afterPayload hs hapart (p := s.inRead inOff m) (outOff := outOff)
    (by omega : inOff + m + n ≤ s.inWin.cap.toNat) (by omega)
  have hphase : (afterPayload s (s.inRead inOff m) outOff).eng.phase ≠ .uninit := by
    rw [afterPayload_eng, (feedPayload_sameParams ..).2.1]
    decide
  refine ⟨_, _, hfirst, execProcessBytes_of_accepted hphase (by simpa [Nat.add_assoc] using hin)
    (by simp only [afterPayload_outWin, afterPayload_cfg, afterPayload_eng]; omega) hcap', ?_, ?_,
    okResponse (updSize s.cfg s.eng m) [],
    okResponse (updSize s.cfg (feedPayload s.cfg s.eng (s.inRead inOff m)).1 n) [], ?_, rfl, rfl, ?_⟩
  · rw [hread, State.inRead_add]; exact hsplit.1
  · rw [hread, State.inRead_add]; exact hsplit.2
  · simp
  · rw [okResponse_result_add, hsize]

end Sys2Proof.Machine
end

section
/-! PROOFS. The final procedure in the terms of the rules: CCM (42_ccm_mac.md R241 to R250) and OCB (43_ocb_offset_mac.md R292,
R298 to R301). -/

namespace Sys2Proof.Machine

/-! ### CCM: the blocks of the chaining value (R243 to R245) -/

theorem zeroFilled_append {b : List Byte} (hb : b.length = 16) (a : List Byte) : zeroFilled (b ++ a) = b ++ zeroFilled a := by
  simp [zeroFilled, hb]

theorem zeroFilled_of_short {a : List Byte} (h0 : a ≠ []) (h : a.length < 16) : zeroFilled a = zeroPad16 a := by
  have hpos := List.length_pos_of_ne_nil h0
  rw [zeroFilled, zeroPad16, show (16 - a.length % 16) % 16 = 16 - a.length by omega]

theorem zeroPaddedBlocksUpTo_nil (fuel : Nat) : zeroPaddedBlocksUpTo fuel [] = [] := by
  cases fuel <;> rfl

theorem zeroPaddedBlocksUpTo_of_ne_nil {a : List Byte} (h : a ≠ []) (fuel : Nat) :
    zeroPaddedBlocksUpTo (fuel + 1) a = blockOfBytes (zeroPad16 (a.take 16)) :: zeroPaddedBlocksUpTo fuel (a.drop 16) := by
  cases a with
  | nil => exact absurd rfl h
  | cons b a => rfl

theorem length_zeroPad16 {a : List Byte} (h : a.length ≤ 16) : (zeroPad16 a).length = 16 := by
  simp [zeroPad16]; omega

theorem zeroPad16_of_full {a : List Byte} (h : a.length = 16) : zeroPad16 a = a := by
  simp [zeroPad16, h, zeroBytes]

/-- The blocks of a string filled with zero bytes, with fuel enough, are its whole blocks once it is filled. -/
theorem zeroPaddedBlocksUpTo_eq (a : List Byte) {fuel : Nat} (hf : a.length ≤ fuel) :
    zeroPaddedBlocksUpTo fuel a = wholeBlocks (zeroFilled a) := by
  induction a using blockwise_induction generalizing fuel with
  | short a hlt =>
    by_cases h0 : a = []
    · subst h0
      rw [zeroPaddedBlocksUpTo_nil]; rfl
    · obtain ⟨fuel, rfl⟩ : ∃ n, fuel = n + 1 := ⟨fuel - 1, by have := List.length_pos_of_ne_nil h0; omega⟩
      have hone := wholeBlocks_append (a := []) (length_zeroPad16 (Nat.le_of_lt hlt))
      rw [List.append_nil] at hone
      rw [zeroPaddedBlocksUpTo_of_ne_nil h0, List.take_of_length_le (Nat.le_of_lt hlt), List.drop_of_length_le (Nat.le_of_lt hlt),
        zeroPaddedBlocksUpTo_nil, zeroFilled_of_short h0 hlt, hone]
      rfl
  | block b a hb ih =>
    rw [List.length_append] at hf
    obtain ⟨fuel, rfl⟩ : ∃ n, fuel = n + 1 := ⟨fuel - 1, by omega⟩
    have h0 : b ++ a ≠ [] := by rintro h; simp [List.append_eq_nil_iff.1 h] at hb
    rw [zeroPaddedBlocksUpTo_of_ne_nil h0, List.take_left' hb, List.drop_left' hb, zeroPad16_of_full hb, ih (by omega),
      zeroFilled_append hb, wholeBlocks_append hb]

theorem zeroPaddedBlocks_eq (a : List Byte) : zeroPaddedBlocks a = wholeBlocks (zeroFilled a) :=
  zeroPaddedBlocksUpTo_eq a le_rfl

theorem ccmAadBlocks_eq (aad : List Byte) : ccmAadBlocks aad = wholeBlocks (zeroFilled (ccmAadString aad)) := by
  unfold ccmAadBlocks ccmAadString
  by_cases h0 : aad.length = 0
  · rw [if_pos h0, if_pos h0]; rfl
  · rw [if_neg h0, if_neg h0, zeroPaddedBlocks_eq]
    have hbound : (2 : Nat) ^ 16 - 2 ^ 8 = 0xFF00 := by decide
    unfold ccmAadLength
    rw [hbound]
    split_ifs <;> rfl

theorem cbcMac_eq_foldl (t : Transform) (k : List Byte) (b0 : Block) (bs : List Block) :
    cbcMac t k b0 bs = (b0 :: bs).foldl (fun y b => blockE t k (y ^^^ b)) 0#128 := by
  simp [cbcMac]

/-! ### CCM: the keystream (R247) -/

/-- A byte of a run of strings of 16 bytes. -/
theorem getD_flatMap_range {f : Nat → List Byte} (hf : ∀ i, (f i).length = 16) {n j : Nat} (hj : j < 16 * n) :
    ((List.range n).flatMap f).getD j 0#8 = (f (j / 16)).getD (j % 16) 0#8 := by
  have hlen : ∀ m, ((List.range m).flatMap f).length = 16 * m := by
    intro m; simp [List.length_flatMap, hf, Nat.mul_comm]
  induction n with
  | zero => omega
  | succ n ih =>
    rw [List.range_succ, List.flatMap_append, List.flatMap_singleton]
    by_cases hlt : j < 16 * n
    · rw [List.getD_append _ _ _ _ (by rw [hlen]; exact hlt), ih hlt]
    · rw [List.getD_append_right _ _ _ _ (by rw [hlen]; omega), hlen, show j / 16 = n by omega,
        show j % 16 = j - 16 * n by omega]

theorem getD_ccmKeystream (t : Transform) (k nonce : List Byte) {q j : Nat} (hj : j < q) :
    (ccmKeystream t k nonce q).getD j 0#8 =
      (bytesOfBlock (blockE t k (ccmCounter nonce (j / 16 + 1)))).getD (j % 16) 0#8 := by
  rw [ccmKeystream, List.getD_eq_getElem?_getD, List.getElem?_take, if_pos hj, ← List.getD_eq_getElem?_getD]
  exact getD_flatMap_range (fun i => length_bytesOfBlock _) (by omega)

theorem ccmTag_eq (t : Transform) (k nonce : List Byte) (m : Nat) (aad p : List Byte) :
    ccmTag t k nonce m aad p =
      xorBytes ((bytesOfBlock ((ccmHeader nonce m aad.length p.length ::
          (wholeBlocks (zeroFilled (ccmAadString aad)) ++ wholeBlocks (zeroFilled p))).foldl
            (fun y b => blockE t k (y ^^^ b)) 0#128)).take m)
        ((bytesOfBlock (blockE t k (ccmCounter nonce 0))).take m) := by
  rw [← ccmAadBlocks_eq, ← zeroPaddedBlocks_eq, ← cbcMac_eq_foldl]
  rfl

/-- The transform of the payload `input`, the same in both directions (R248, R249). -/
def ccmCrypt (t : Transform) (k nonce input : List Byte) : List Byte :=
  xorBytes input (ccmKeystream t k nonce input.length)

theorem length_ccmCrypt (t : Transform) (k nonce input : List Byte) : (ccmCrypt t k nonce input).length = input.length := by
  simp [ccmCrypt, length_ccmKeystream]

theorem getD_ccmCrypt (t : Transform) (k nonce : List Byte) {input : List Byte} {j : Nat} (hj : j < input.length) :
    (ccmCrypt t k nonce input).getD j 0#8 =
      input.getD j 0#8 ^^^ (bytesOfBlock (blockE t k (ccmCounter nonce (j / 16 + 1)))).getD (j % 16) 0#8 := by
  rw [ccmCrypt, getD_xorBytes hj (by rwa [length_ccmKeystream]), getD_ccmKeystream t k nonce hj]

theorem ccmFinal_enc (t : Transform) (k nonce : List Byte) (m : Nat) (r : CcmRegs) :
    ccmFinal t k nonce .enc m r =
      (ccmCrypt t k nonce r.dataBuf ++ ccmTag t k nonce m r.aadBuf r.dataBuf,
        ccmTag t k nonce m r.aadBuf r.dataBuf, true) := rfl

/-- On decryption the last bytes held are the received tag (R250). -/
theorem ccmFinal_dec (t : Transform) (k nonce : List Byte) (m : Nat) (r : CcmRegs) :
    ccmFinal t k nonce .dec m r =
      (ccmCrypt t k nonce (r.dataBuf.take (r.dataBuf.length - m)),
        ccmTag t k nonce m r.aadBuf (ccmCrypt t k nonce (r.dataBuf.take (r.dataBuf.length - m))),
        tagEqual (ccmTag t k nonce m r.aadBuf (ccmCrypt t k nonce (r.dataBuf.take (r.dataBuf.length - m))))
          (r.dataBuf.drop (r.dataBuf.length - m))) := by
  have hlen : (r.dataBuf.take (r.dataBuf.length - m)).length = r.dataBuf.length - m := by simp
  simp only [ccmCrypt, hlen, ccmFinal]

theorem ccmFinalIs_ccmFinal (t : Transform) (k nonce : List Byte) (dir : Dir) (m : Nat) (r : CcmRegs) :
    CcmFinalIs t k nonce dir m r (ccmFinal t k nonce dir m r).1 (ccmFinal t k nonce dir m r).2.1 := by
  cases dir with
  | enc =>
    rw [ccmFinal_enc]
    exact ⟨_, _, _, _, rfl, length_ccmCrypt .., fun j hj => getD_ccmCrypt t k nonce hj, rfl, rfl, ccmTag_eq .., rfl⟩
  | dec =>
    rw [ccmFinal_dec]
    exact ⟨_, _, _, _, rfl, length_ccmCrypt .., fun j hj => getD_ccmCrypt t k nonce hj, rfl, rfl, ccmTag_eq ..,
      (List.append_nil _).symm⟩

/-! ### OCB (R292, R298 to R301) -/

section Ocb
variable (t : Transform) (k : List Byte) (dir : Dir) (r : OcbRegs)

theorem finalPart_nil : finalPart t k dir r [] = ([], r.offset, r.checksum) := rfl

theorem finalPart_of_ne_nil {part : List Byte} (h : part ≠ []) :
    finalPart t k dir r part =
      (xorBytes part ((bytesOfBlock (blockE t k (r.offset ^^^ r.lStar))).take part.length), r.offset ^^^ r.lStar,
        r.checksum ^^^ blockOfBytes (pad10 (match dir with
          | .enc => part
          | .dec => xorBytes part ((bytesOfBlock (blockE t k (r.offset ^^^ r.lStar))).take part.length)))) :=
  if_neg (by simpa using h)

theorem hashFinal_of_empty (h : r.hashBuf = []) : hashFinal t k r = r.hashSum := if_pos (by simp [h])

theorem hashFinal_of_ne_nil (h : r.hashBuf ≠ []) :
    hashFinal t k r =
      r.hashSum ^^^ blockE t k (blockOfBytes (pad10 r.hashBuf) ^^^ (r.hashOffset ^^^ r.lStar)) :=
  if_neg (by simpa using h)

theorem ocbFinal_enc (m : Nat) :
    ocbFinal t k .enc m r =
      ((finalPart t k .enc r r.mainBuf).1 ++
          ocbTag t k r m (finalPart t k .enc r r.mainBuf).2.1 (finalPart t k .enc r r.mainBuf).2.2,
        ocbTag t k r m (finalPart t k .enc r r.mainBuf).2.1 (finalPart t k .enc r r.mainBuf).2.2, true) := rfl

/-- On decryption the last bytes held are the received tag (R301). -/
theorem ocbFinal_dec (m : Nat) :
    ocbFinal t k .dec m r =
      ((finalPart t k .dec r (r.mainBuf.take (r.mainBuf.length - m))).1,
        ocbTag t k r m (finalPart t k .dec r (r.mainBuf.take (r.mainBuf.length - m))).2.1
          (finalPart t k .dec r (r.mainBuf.take (r.mainBuf.length - m))).2.2,
        tagEqual (ocbTag t k r m (finalPart t k .dec r (r.mainBuf.take (r.mainBuf.length - m))).2.1
          (finalPart t k .dec r (r.mainBuf.take (r.mainBuf.length - m))).2.2)
          (r.mainBuf.drop (r.mainBuf.length - m))) := rfl

theorem ocbFinalIs_ocbFinal (m : Nat) :
    OcbFinalIs t k dir m r (ocbFinal t k dir m r).1 (ocbFinal t k dir m r).2.1 := by
  cases dir with
  | enc =>
    rw [ocbFinal_enc]
    refine ⟨r.mainBuf, (finalPart t k .enc r r.mainBuf).1, r.mainBuf, (finalPart t k .enc r r.mainBuf).2.1,
      (finalPart t k .enc r r.mainBuf).2.2, hashFinal t k r, rfl, rfl, fun h => ?_, fun h => ?_,
      hashFinal_of_empty t k r, hashFinal_of_ne_nil t k r, rfl, rfl⟩
    · rw [h, finalPart_nil]; exact ⟨rfl, rfl, rfl⟩
    · rw [finalPart_of_ne_nil t k .enc r h]; exact ⟨rfl, rfl, rfl⟩
  | dec =>
    rw [ocbFinal_dec]
    generalize hpart : r.mainBuf.take (r.mainBuf.length - m) = part
    refine ⟨part, (finalPart t k .dec r part).1, (finalPart t k .dec r part).1, (finalPart t k .dec r part).2.1,
      (finalPart t k .dec r part).2.2, hashFinal t k r, hpart.symm, rfl, fun h => ?_, fun h => ?_,
      hashFinal_of_empty t k r, hashFinal_of_ne_nil t k r, rfl, (List.append_nil _).symm⟩
    · rw [h, finalPart_nil]; exact ⟨rfl, rfl, rfl⟩
    · rw [finalPart_of_ne_nil t k .dec r h]; exact ⟨rfl, rfl, rfl⟩

end Ocb

end Sys2Proof.Machine
end

section
/-! PROOFS. DO_FINAL (40_engine_commands.md R160, R163): the frame and the tag it leaves, and the tag it refuses. -/

namespace Sys2Proof.Machine

/-! ### The tag is verified when it is the received one (R352) -/

/-- On strings of equal length the comparator decides equality: every pair of bytes is examined. -/
theorem tagEqual_iff_eq {a b : List Byte} (h : a.length = b.length) : tagEqual a b = true ↔ a = b := by
  refine ⟨fun he => ?_, fun he => he ▸ tagEqual_self a⟩
  rw [tagEqual_iff_pairs] at he
  induction a generalizing b with
  | nil => exact (List.length_eq_zero_iff.1 h.symm).symm
  | cons x a ih =>
    cases b with
    | nil => cases h
    | cons y b =>
      simp only [xorBytes, List.zipWith_cons_cons, List.forall_mem_cons] at he
      obtain ⟨hxy, hrest⟩ := he
      rw [BitVec.xor_eq_zero_iff.1 hxy, ih (Nat.succ.inj h) hrest]

section FinalFrame
variable {c : Config} {e : Engine}

/-- On encryption the frame ends in the tag (R250, R301). -/
theorem finalFrame_enc_append (hd : e.dir = .enc) : ∃ out, (finalFrame c e).1 = out ++ (finalFrame c e).2.1 := by
  unfold finalFrame
  rw [hd]
  cases c.variant <;> exact ⟨_, rfl⟩

/-- On decryption the recomputed tag is compared with the received one (R250, R301). -/
theorem finalFrame_dec_verdict (hd : e.dir = .dec) :
    (finalFrame c e).2.2 = tagEqual (finalFrame c e).2.1 (receivedTag c e) := by
  unfold finalFrame receivedTag
  rw [hd]
  cases c.variant <;> rfl

theorem length_receivedTag (h : e.tagLen ≤ held c e) : (receivedTag c e).length = e.tagLen := by
  unfold held Engine.mainPos at h
  unfold receivedTag
  cases hv : c.variant <;> simp only [hv] at h <;> simp only [List.length_drop] <;> omega

/-- In a session the tag has `TAG_LEN` bytes. -/
theorem length_finalFrame_tag_of_inv (h : EngineInv c e) (hu : e.phase ≠ .uninit) :
    (finalFrame c e).2.1.length = e.tagLen := by
  rw [length_finalFrame_tag, Nat.min_eq_left (tagLen_le_of_tagBitsOk ((paramsOk_session hu).1 h.params).tagBits)]

theorem finalFrame_verified_iff (h : EngineInv c e) (hu : e.phase ≠ .uninit) (ht : e.dir = .dec → e.tagLen ≤ held c e) :
    (finalFrame c e).2.2 = true ↔ (e.dir = .dec → (finalFrame c e).2.1 = receivedTag c e) := by
  cases hd : e.dir with
  | enc => simp [finalFrame_enc c e hd]
  | dec =>
    rw [finalFrame_dec_verdict hd,
      tagEqual_iff_eq ((length_finalFrame_tag_of_inv h hu).trans (length_receivedTag (ht hd)).symm)]
    simp

/-- On encryption the frame is the transform of the payload held, then the tag. -/
theorem drop_held_finalFrame (h : EngineInv c e) (hu : e.phase ≠ .uninit) (hd : e.dir = .enc) :
    (finalFrame c e).1.drop (held c e) = (finalFrame c e).2.1 := by
  obtain ⟨out, hout⟩ := finalFrame_enc_append (c := c) hd
  have hlen : (finalFrame c e).1.length = held c e + e.tagLen := by
    rw [length_finalFrame h hu, outSize, hd]; rfl
  rw [hout, List.length_append, length_finalFrame_tag_of_inv h hu] at hlen
  rw [hout, ← Nat.add_right_cancel hlen, List.drop_left]

end FinalFrame

/-- Settles O42: the accepted DO_FINAL, and the final procedure of each variant by its rules. -/
theorem doFinalWritesTheFrame : Obligations.DoFinalWritesTheFrame := by
  refine ⟨fun outOff s hinv hs hu ht hout => ?_, fun c e hinv hu ht => ⟨fun hv => ?_, fun hv => ?_, ?_⟩⟩
  · have hok : (finalFrame s.cfg s.eng).2.2 = true := by
      cases hd : s.eng.dir with
      | enc => exact finalFrame_enc _ _ hd
      | dec => exact (ht hd).2
    have hexec := (execDoFinal_of_fitting hu (fun hd => (ht hd).1) ((State.outBounds_iff ..).2 hout)).trans (if_pos hok)
    refine ⟨_, _, s.mem.writeBytes (s.outAddr outOff) (finalFrame s.cfg s.eng).1, hexec, rfl, rfl, length_finalFrame hinv hu,
      length_finalFrame_tag_of_inv hinv hu, drop_held_finalFrame hinv hu, fun a => ?_⟩
    rw [← length_finalFrame hinv hu]
    exact Memory.read_writeBytes hs ..
  · simp only [finalFrame, hv]
    exact ocbFinalIs_ocbFinal ..
  · simp only [finalFrame, hv]
    exact ccmFinalIs_ccmFinal ..
  · exact finalFrame_verified_iff hinv hu ht

/-- Settles O45: a tag that is not the received one is not verified. -/
theorem doFinalRefusesAForgedTag : Obligations.DoFinalRefusesAForgedTag := by
  intro outOff s received hinv hu hd ht hout hccm hocb hne
  have hreceived : receivedTag s.cfg s.eng = received := by
    unfold receivedTag
    cases hv : s.cfg.variant with
    | ccm => exact (hccm hv).symm
    | ocb => exact (hocb hv).symm
  have hbad : ¬ (finalFrame s.cfg s.eng).2.2 = true := fun hok =>
    hne (((finalFrame_verified_iff hinv hu fun _ => ht).1 hok hd).trans hreceived)
  exact ⟨(execDoFinal_of_fitting hu (fun _ => ht) ((State.outBounds_iff ..).2 hout)).trans (if_neg hbad),
    sessionStart_mac .., sessionStart_macValid ..⟩

end Sys2Proof.Machine
end

section
/-! PROOFS. The size predictor (41_size_calculator.md R200 to R207): the predictions in numbers and their bounds,
the predictions after a PROCESS_BYTES, and the size queries. -/

namespace Sys2Proof.Machine

/-! ### The bytes held and the predictions -/

theorem held_ccm {c : Config} (hv : c.variant = .ccm) (e : Engine) : held c e = e.ccm.dataBuf.length := by
  simp only [held, hv]

theorem held_ocb {c : Config} (hv : c.variant = .ocb) (e : Engine) : held c e = e.mainPos := by
  simp only [held, hv]

theorem outSize_enc {e : Engine} (hd : e.dir = .enc) (c : Config) (n : Nat) : outSize c e n = held c e + n + e.tagLen := by
  simp only [outSize, hd]

theorem outSize_dec {e : Engine} (hd : e.dir = .dec) (c : Config) (n : Nat) : outSize c e n = held c e + n - e.tagLen := by
  simp only [outSize, hd]

/-- An update takes whole blocks out of the bytes that the final procedure would have for its frame (R200, R203). -/
theorem updSize_le_outSize (c : Config) (e : Engine) (n : Nat) : updSize c e n ≤ outSize c e n := by
  cases hv : c.variant with
  | ccm => simp only [updSize_ccm hv, Nat.zero_le]
  | ocb =>
    rw [updSize_eq_blocksEmitted c e n hv]
    cases hd : e.dir with
    | enc =>
      rw [outSize_enc hd, held_ocb hv]
      exact (Nat.mul_div_le _ 16).trans (Nat.le_add_right _ _)
    | dec =>
      rw [outSize_dec hd, held_ocb hv]
      exact Nat.mul_div_le _ 16

section Predictions
variable {c : Config} {e : Engine}

/-- The buffer of CCM is bounded by `CCM_DATA_MAX`, the window of OCB by its capacity (R9, R42). -/
theorem held_lt_of_inv (hc : c.wf = true) (h : EngineInv c e) (hu : e.phase ≠ .uninit) : held c e < 2 ^ 32 := by
  cases hv : c.variant with
  | ccm =>
    have hbuf := h.dataBuffer hv
    simp only [Config.wf, Bool.and_eq_true, decide_eq_true_eq] at hc
    obtain ⟨⟨⟨⟨-, hmax⟩, -⟩, -⟩, -⟩ := hc
    rw [held_ccm hv]
    exact hbuf.trans_lt hmax
  | ocb =>
    have hwin := (h.mainWindow hv).lt_windowCap
    have htag := tagLen_le_of_tagBitsOk ((paramsOk_session hu).1 h.params).tagBits
    rw [held_ocb hv, Engine.mainPos]
    cases hd : e.dir <;> simp only [hd, windowCap] at hwin <;> omega

theorem outSize_lt_of_inv (hc : c.wf = true) (h : EngineInv c e) (hu : e.phase ≠ .uninit) {n : Nat} (hn : n < 2 ^ 32) :
    outSize c e n < 2 ^ 64 := by
  have hheld := held_lt_of_inv hc h hu
  have htag := tagLen_le_of_tagBitsOk ((paramsOk_session hu).1 h.params).tagBits
  cases hd : e.dir with
  | enc => rw [outSize_enc hd]; omega
  | dec => rw [outSize_dec hd]; omega

/-- Settles O55: `out_size` is 0, and `upd_size` is at most that. -/
theorem noPlaintextBeforeTheTagLength : Obligations.NoPlaintextBeforeTheTagLength := by
  intro n c e hd hshort
  have hout : outSize c e n = 0 := (outSize_dec hd c n).trans (Nat.sub_eq_zero_of_le hshort)
  exact ⟨Nat.eq_zero_of_le_zero (hout ▸ updSize_le_outSize c e n), hout⟩

/-! ### The predictions after a feed -/

/-- What a feed does not emit is held (44_buffered_unit.md R344). -/
theorem held_feedPayload (hw : c.variant = .ocb → MainWindowOk e) (p : List Byte) :
    held c (feedPayload c e p).1 + updSize c e p.length = held c e + p.length := by
  cases hv : c.variant with
  | ccm => simp only [held_ccm hv, updSize_ccm hv, feedPayload_ccm hv, List.length_append, Nat.add_zero]
  | ocb =>
    rw [held_ocb hv, held_ocb hv, feedPayload_ocb hv]
    exact (windowFeed_updSize hv (hw hv) p).2

/-- `out_size` of the whole is what the first part emits and `out_size` of the rest (R206). On decryption the feed emits
nothing of the last `TAG_LEN` bytes, so the subtraction loses nothing. -/
theorem outSize_feedPayload (hw : c.variant = .ocb → MainWindowOk e) (p : List Byte) (n : Nat) :
    updSize c e p.length + outSize c (feedPayload c e p).1 n = outSize c e (p.length + n) := by
  have hheld := held_feedPayload hw p
  have hsame := (feedPayload_sameParams c e p).1
  cases hd : e.dir with
  | enc =>
    rw [outSize_enc (hsame.dir.trans hd), outSize_enc hd, hsame.tagLen]
    omega
  | dec =>
    have hle := updSize_le_outSize c e p.length
    rw [outSize_dec hd] at hle
    rw [outSize_dec (hsame.dir.trans hd), outSize_dec hd, hsame.tagLen]
    omega

end Predictions

/-- A PROCESS_BYTES that answers OK fed the bytes it read. -/
theorem eq_afterPayload_of_ok {inOff inLen outOff : Nat} {s t : State} {r : Response}
    (h : exec (.processBytes inOff inLen outOff) s = .next t) (hr : t.responses = s.responses ++ [r])
    (hok : r.status = .ok) : t = afterPayload s (s.inRead inOff inLen) outOff := by
  obtain ⟨st, hst, he⟩ | ⟨hu, hin, hout, hcap, -⟩ := execProcessBytes_cases inOff inLen outOff s
  · obtain rfl := Host.Outcome.next.inj (h.symm.trans he)
    obtain rfl : errorResponse st = r := by simpa using hr
    obtain rfl : st = .ok := hok
    simp at hst
  · rw [State.inBounds_iff] at hin
    rw [State.outBounds_iff] at hout
    exact Host.Outcome.next.inj (h.symm.trans (execProcessBytes_of_accepted hu hin hout hcap))

/-- Settles O54: both predictions after the feed; where nothing was emitted the sum is its second term. -/
theorem sizePredictionsAreAdditive : Obligations.SizePredictionsAreAdditive := by
  intro inOff m outOff n s t r ⟨_, hinv⟩ h hr hok
  obtain rfl := eq_afterPayload_of_ok h hr hok
  have hupd := updSize_feedPayload hinv.mainWindow (s.inRead inOff m) n
  have hout := outSize_feedPayload hinv.mainWindow (s.inRead inOff m) n
  rw [State.length_inRead] at hupd hout
  refine ⟨hupd, hout, fun hnone => ?_⟩
  have hzero : updSize s.cfg s.eng m = 0 := hnone.elim (fun hv => updSize_ccm hv s.eng m) id
  rwa [hzero, Nat.zero_add] at hout

/-! ### The size queries -/

/-- Settles O53: the two answers of each query, the predictions by variant and direction, and their bounds. -/
theorem sizeQueriesAnswerThePredictions : Obligations.SizeQueriesAnswerThePredictions := by
  intro len s
  refine ⟨fun hs => ⟨?_, ?_⟩, fun hu => ⟨?_, ?_⟩, ?_, ?_, fun ⟨hc, hinv⟩ hs hlen => ?_⟩
  · exact ((execGetUpdateOutputSize_cases len s).resolve_left fun h => hs h.1).2
  · exact ((execGetOutputSize_cases len s).resolve_left fun h => hs h.1).2
  · exact ((execGetUpdateOutputSize_cases len s).resolve_right fun h => h.1 hu).2
  · exact ((execGetOutputSize_cases len s).resolve_right fun h => h.1 hu).2
  · cases hv : s.cfg.variant with
    | ccm => exact updSize_ccm hv s.eng len
    | ocb =>
      rw [updSize_eq_blocksEmitted _ _ _ hv]
      cases s.eng.dir <;> rfl
  · unfold outSize held
    cases s.cfg.variant <;> cases s.eng.dir <;> rfl
  · have hout := outSize_lt_of_inv hc hinv hs hlen
    have hupd := (updSize_le_outSize s.cfg s.eng len).trans_lt hout
    exact ⟨Nat.mod_eq_of_lt hupd, Nat.mod_eq_of_lt hout⟩

end Sys2Proof.Machine
end

section
/-! PROOFS. The CCM instance (42_ccm_mac.md): the payload it buffers (R230; 40_engine_commands.md R144), the layout of its
header and counter blocks (R241, R246), and the frame it opens (R250). -/

namespace Sys2Proof.Machine

/-! ### The message bound (R144) -/

/-- The capacity check of a payload command, at the output its variant reserves, in the terms of R144. -/
theorem dataCapacityExceeded_updSize_iff (c : Config) (e : Engine) (n : Nat) :
    dataCapacityExceeded c e n (updSize c e n) = true ↔ DataExceeds c e n := by
  cases hv : c.variant with
  | ccm =>
    have hqmax : ccmQmax c e < e.ccm.dataBuf.length + n ↔ c.ccmDataMax < e.ccm.dataBuf.length + n ∨
        2 ^ (8 * (15 - e.nonce.length)) - 1 + (if e.dir = .dec then e.tagLen else 0) < e.ccm.dataBuf.length + n := by
      unfold ccmQmax Engine.nonceLen
      cases e.dir <;> exact min_lt_iff
    simpa [dataCapacityExceeded, DataExceeds, hv] using hqmax
  | ocb =>
    rw [← Bool.not_eq_false, dataCapacityExceeded_ocb hv]
    simp [DataExceeds, hv]

/-! ### The payload commands (R143, R146, R230) -/

/-- On CCM an accepted payload command holds its bytes, and stores nothing in `OUT`. -/
theorem afterPayload_ccm {s : State} (hv : s.cfg.variant = .ccm) (p : List Byte) (outOff : Nat) :
    afterPayload s p outOff =
      { s with
        eng := { s.eng with phase := .data, ccm := { s.eng.ccm with dataBuf := s.eng.ccm.dataBuf ++ p } }
        responses := s.responses ++ [⟨.ok, 0#64, []⟩] } := by
  rw [afterPayload, feedPayload_eq_ccm hv, updSize_ccm hv]
  rfl

/-- Settles O35: `updSize_ccm` leaves the output check no byte to reserve, so the capacity check alone decides. -/
theorem ccmBuffersThePayload : Obligations.CcmBuffersThePayload := by
  intro s outOff hv hu hout
  have hfit : ∀ n, outOff + updSize s.cfg s.eng n ≤ s.outWin.cap.toNat := fun n => by rwa [updSize_ccm hv]
  have hheld : ∀ {n}, ¬ DataExceeds s.cfg s.eng n → dataCapacityExceeded s.cfg s.eng n (updSize s.cfg s.eng n) = false :=
    fun h => by rwa [← dataCapacityExceeded_updSize_iff, Bool.not_eq_true] at h
  have hfull : ∀ {n}, DataExceeds s.cfg s.eng n → ∀ p, s.processPayload p n outOff = s.raise .capacity :=
    fun h => processPayload_of_full ((State.outBounds_iff ..).2 (hfit _)) ((dataCapacityExceeded_updSize_iff ..).2 h)
  refine ⟨fun inOff inLen hin => ⟨fun h => ?_, fun h => ?_⟩, fun byte => ⟨fun h => ?_, fun h => ?_⟩⟩
  · rw [execProcessBytes_of_accepted hu hin (hfit inLen) (hheld h), afterPayload_ccm hv]
  · exact (execProcessBytes_eq_processPayload hu ((State.inBounds_iff ..).2 hin) outOff).trans (hfull h _)
  · rw [execProcessByte_of_accepted hu (hfit 1) (hheld h), afterPayload_ccm hv]
  · exact (execProcessByte_eq_processPayload hu byte outOff).trans (hfull h _)

/-! ### The header and counter blocks (R241, R246) -/

/-- A flags byte, a nonce and a number in the bytes they leave free fill one block. -/
theorem bytesOfBlock_flags_nonce_number {nonce : List Byte} (h : nonce.length ≤ 15) (flags : Byte) (v : Nat) :
    bytesOfBlock (blockOfBytes (flags :: nonce ++ be (15 - nonce.length) v)) =
      flags :: nonce ++ be (15 - nonce.length) v :=
  bytesOfBlock_blockOfBytes (by simp; omega)

/-- Settles O59: both blocks are a flags byte, the nonce and a number, and `L - 1` is `14 - NONCE_LEN`. -/
theorem ccmBlocksAreLaidOutAsTheTablesSay : Obligations.CcmBlocksAreLaidOutAsTheTablesSay := by
  intro nonce m a q i _ hn _ _
  have hlen : 15 - nonce.length - 1 = 14 - nonce.length := by omega
  constructor
  · rw [ccmHeader, bytesOfBlock_flags_nonce_number (by omega), ccmFlags, hlen]
    simp only [decide_eq_true_eq]
  · have hflags : be 1 (14 - nonce.length) = [BitVec.ofNat 8 (14 - nonce.length)] := by simp [be]
    rw [ccmCounter, hlen, hflags, List.singleton_append]
    exact bytesOfBlock_flags_nonce_number (by omega) ..

/-! ### What was sealed opens (R250) -/

/-- The keystream depends on the length of its input only, so crypting twice cancels (R248, R249). -/
theorem ccmCrypt_ccmCrypt (t : Transform) (k nonce p : List Byte) : ccmCrypt t k nonce (ccmCrypt t k nonce p) = p := by
  rw [ccmCrypt, length_ccmCrypt, ccmCrypt]
  exact xorBytes_xorBytes (length_ccmKeystream t k nonce p.length).ge

/-- Decryption of a crypted payload with a string of `m` bytes behind it: the payload, its tag, and the comparator's verdict
on that string. -/
theorem ccmFinal_dec_ccmCrypt (t : Transform) (k nonce aad p : List Byte) {m : Nat} {tag : List Byte} (h : tag.length = m) :
    ccmFinal t k nonce .dec m ⟨aad, ccmCrypt t k nonce p ++ tag⟩ =
      (p, ccmTag t k nonce m aad p, tagEqual (ccmTag t k nonce m aad p) tag) := by
  have hsplit : (ccmCrypt t k nonce p ++ tag).length - m = (ccmCrypt t k nonce p).length := by
    rw [List.length_append, h, Nat.add_sub_cancel]
  rw [ccmFinal_dec, hsplit, List.take_left, List.drop_left, ccmCrypt_ccmCrypt]

/-- Settles O47: the frame is the crypted payload with its tag behind it. -/
theorem ccmOpensWhatItSealed : Obligations.CcmOpensWhatItSealed := by
  intro t k nonce m aad p hm _ frame tag h
  rw [ccmFinal_enc] at h
  obtain ⟨rfl, rfl, -⟩ := h
  have htag : (ccmTag t k nonce m aad p).length = m := (length_ccmTag ..).trans (Nat.min_eq_left hm)
  refine ⟨?_, ?_⟩
  · rw [List.length_append, length_ccmCrypt, htag]
  · rw [ccmFinal_dec_ccmCrypt t k nonce aad p htag, tagEqual_self]

/-! ### Worked values -/

/-- Settles O60: every conjunct is closed, so the datapath is run on it. -/
theorem workedValuesOfTheDatapath : Obligations.WorkedValuesOfTheDatapath :=
  ⟨by decide, rfl, rfl, rfl, by decide, by decide, by decide, by decide⟩

end Sys2Proof.Machine
end

section
/-! PROOFS. The arithmetic of the offset sequence: `ntz` (43_ocb_offset_mac.md R284), doubling (R281) and the Gray code (R287). -/

namespace Sys2Proof.Machine

/-! ### Trailing zeros (R284) -/

theorem ntzUpTo_odd (fuel j : Nat) : ntzUpTo (fuel + 1) (2 * j + 1) = 0 := if_pos (by omega)

theorem ntzUpTo_even (fuel j : Nat) : ntzUpTo (fuel + 1) (2 * j) = 1 + ntzUpTo fuel j := by
  simp [ntzUpTo]

/-- A positive number of at most `fuel + 1` bits, by its lowest bit: an odd number, or the double of a positive number of at
most `fuel` bits. -/
theorem odd_or_double {fuel i : Nat} (h0 : 0 < i) (h : i < 2 ^ (fuel + 1)) :
    (∃ j, i = 2 * j + 1) ∨ ∃ j, i = 2 * j ∧ 0 < j ∧ j < 2 ^ fuel := by
  obtain heven | hodd := Nat.mod_two_eq_zero_or_one i
  · exact .inr ⟨i / 2, by omega, by omega, by omega⟩
  · exact .inl ⟨i / 2, by omega⟩

theorem ntzUpTo_spec {fuel i : Nat} (h0 : 0 < i) (h : i < 2 ^ fuel) :
    2 ^ ntzUpTo fuel i ∣ i ∧ ¬ 2 ^ (ntzUpTo fuel i + 1) ∣ i ∧ ntzUpTo fuel i < fuel := by
  induction fuel generalizing i with
  | zero => omega
  | succ fuel ih =>
    obtain ⟨j, rfl⟩ | ⟨j, rfl, hj0, hj⟩ := odd_or_double h0 h
    · rw [ntzUpTo_odd]
      exact ⟨by simp, by omega, by omega⟩
    · obtain ⟨hdvd, hndvd, hlt⟩ := ih hj0 hj
      rw [ntzUpTo_even, Nat.add_comm 1, Nat.pow_succ', Nat.pow_succ']
      exact ⟨Nat.mul_dvd_mul_left 2 hdvd, fun hd => hndvd (Nat.dvd_of_mul_dvd_mul_left two_pos hd), by omega⟩

theorem ntz_lt {i : Nat} (h0 : 0 < i) (h : i < 2 ^ 64) : ntz i < 64 :=
  have ⟨_, _, hlt⟩ := ntzUpTo_spec h0 h
  hlt

/-- Settles O58: by the bits of the counter, the lowest first. -/
theorem ntzCountsTrailingZeros : Obligations.NtzCountsTrailingZeros := by
  intro i h0 h
  obtain ⟨hdvd, hndvd, -⟩ := ntzUpTo_spec h0 h
  exact ⟨hdvd, hndvd, Nat.le_of_lt_succ (ntz_lt h0 h)⟩

/-! ### Doubling (R281) -/

/-- What a double takes from the field polynomial: it depends on the bit that the shift loses, and is linear in it. -/
def fieldReduction (lost : Bool) : Block := if lost then 0x87#128 else 0#128

theorem dbl_eq_fieldReduction (x : Block) : dbl x = (x <<< 1) ^^^ fieldReduction x.msb := by
  simp [dbl, fieldReduction, BitVec.msb_eq_decide]

theorem fieldReduction_xor (a b : Bool) : fieldReduction (a ^^ b) = fieldReduction a ^^^ fieldReduction b := by
  revert a b; decide

theorem toNat_dbl (x : Block) :
    (dbl x).toNat = ((2 * x.toNat) % 2 ^ 128) ^^^ (if 2 ^ 127 ≤ x.toNat then 0x87 else 0) := by
  rw [dbl, BitVec.toNat_xor, BitVec.toNat_shiftLeft, Nat.shiftLeft_eq, Nat.mul_comm, pow_one]
  split <;> rfl

theorem dbl_xor (x y : Block) : dbl (x ^^^ y) = dbl x ^^^ dbl y := by
  simp only [dbl_eq_fieldReduction, BitVec.msb_xor, BitVec.shiftLeft_xor_distrib, fieldReduction_xor]
  ac_rfl

/-- The lowest bit of a double tells whether the shift lost a bit, so only zero has the double zero. -/
theorem eq_zero_of_dbl_eq_zero {z : Block} (h : dbl z = 0#128) : z = 0#128 := by
  have hn := congrArg BitVec.toNat (BitVec.xor_eq_zero_iff.1 h)
  rw [BitVec.toNat_shiftLeft, Nat.shiftLeft_eq] at hn
  apply BitVec.eq_of_toNat_eq
  split at hn <;> simp only [BitVec.toNat_ofNat] at hn ⊢ <;> omega

/-- Settles O57: doubling loses nothing because it is linear and only zero has the double zero. -/
theorem doublingHasItsValue : Obligations.DoublingHasItsValue :=
  fun x y => ⟨toNat_dbl x, dbl_xor x y, fun h =>
    BitVec.xor_eq_zero_iff.1 (eq_zero_of_dbl_eq_zero (by rw [dbl_xor, h, BitVec.xor_self]))⟩

/-! ### The Gray code (R287) -/

theorem grayCode_div_two (i : Nat) : grayCode i / 2 = grayCode (i / 2) := Nat.xor_div_two

theorem grayCode_mod_two (i : Nat) : grayCode i % 2 = (i + i / 2) % 2 := Nat.xor_mod_two_eq

/-- One step of the Gray code flips the bit whose number is the count of trailing zeros of the new counter. -/
theorem grayCode_eq_xor_ntzUpTo {fuel i : Nat} (h0 : 0 < i) (h : i < 2 ^ fuel) :
    grayCode i = grayCode (i - 1) ^^^ 2 ^ ntzUpTo fuel i := by
  induction fuel generalizing i with
  | zero => omega
  | succ fuel ih =>
    obtain ⟨j, rfl⟩ | ⟨j, rfl, hj0, hj⟩ := odd_or_double h0 h
    · rw [ntzUpTo_odd, Nat.add_sub_cancel]
      refine Nat.ext_div_mod (n := 2) ?_ ?_
      · rw [Nat.xor_div_two, grayCode_div_two, grayCode_div_two]
        simp [Nat.mul_add_div]
      · rw [Nat.xor_mod_two_eq, grayCode_mod_two]
        have := grayCode_mod_two (2 * j)
        omega
    · rw [ntzUpTo_even, Nat.add_comm 1, Nat.pow_succ']
      refine Nat.ext_div_mod (n := 2) ?_ ?_
      · have hpred : (2 * j - 1) / 2 = j - 1 := by omega
        rw [Nat.xor_div_two, grayCode_div_two, grayCode_div_two, hpred, Nat.mul_div_cancel_left _ two_pos,
          Nat.mul_div_cancel_left _ two_pos, ih hj0 hj]
      · rw [Nat.xor_mod_two_eq, grayCode_mod_two]
        have := grayCode_mod_two (2 * j - 1)
        omega

theorem grayCode_add_one {i : Nat} (h : i + 1 < 2 ^ 64) : grayCode (i + 1) = grayCode i ^^^ 2 ^ ntz (i + 1) :=
  grayCode_eq_xor_ntzUpTo (Nat.succ_pos i) h

end Sys2Proof.Machine
end

section
/-! PROOFS. Both offsets are the Gray-code form of their block counters (43_ocb_offset_mac.md R287, R291, R294). -/

namespace Sys2Proof.Machine

/-! ### The byte that completes a block -/

theorem hashFeedByte_of_full (t : Transform) (k : List Byte) {r : OcbRegs} (h : r.hashBuf.length = 15) (b : Byte) :
    hashFeedByte t k r b = { ocbHashBlock t k r (blockOfBytes (r.hashBuf ++ [b])) with hashBuf := [] } :=
  if_pos (by simp [h])

section Window
variable {dir : Dir} {tagLen : Nat}

theorem windowFeedByte_of_full (t : Transform) (k : List Byte) {r : OcbRegs}
    (h : r.mainBuf.length + 1 = windowCap dir tagLen) (b : Byte) :
    windowFeedByte t k dir tagLen r b =
      ({ (ocbMainBlock t k dir r (blockOfBytes ((r.mainBuf ++ [b]).take 16))).1 with mainBuf := (r.mainBuf ++ [b]).drop 16 },
        bytesOfBlock (ocbMainBlock t k dir r (blockOfBytes ((r.mainBuf ++ [b]).take 16))).2) :=
  if_pos (by simpa using h)

theorem blocksEmitted_of_full {pos n : Nat} (h : pos + n = windowCap dir tagLen) : blocksEmitted dir tagLen pos n = 1 := by
  cases dir <;> simp only [blocksEmitted, windowCap] at h ⊢ <;> omega

end Window

/-! ### The table sum is linear -/

section TableSum
variable (r : OcbRegs)

/-- What one bit of `g` adds to the table sum. -/
def tableStep (g : Nat) (x : Block) (j : Nat) : Block := if g.testBit j then x ^^^ r.ltAt j else x

theorem tableSum_eq_foldl (g : Nat) : tableSum r g = (List.range 64).foldl (tableStep r g) 0#128 := rfl

theorem tableStep_xor (a b : Nat) (x y : Block) (j : Nat) :
    tableStep r (a ^^^ b) (x ^^^ y) j = tableStep r a x j ^^^ tableStep r b y j := by
  unfold tableStep
  rw [Nat.testBit_xor]
  cases a.testBit j <;> cases b.testBit j
  · rfl
  · exact BitVec.xor_assoc ..
  · simp only [Bool.xor_false, if_true, Bool.false_eq_true, if_false]; ac_rfl
  · have hcancel : (x ^^^ r.ltAt j) ^^^ (y ^^^ r.ltAt j) = (x ^^^ y) ^^^ (r.ltAt j ^^^ r.ltAt j) := by ac_rfl
    simp [hcancel]

theorem foldl_tableStep_xor (a b : Nat) (js : List Nat) (x y : Block) :
    js.foldl (tableStep r (a ^^^ b)) (x ^^^ y) = js.foldl (tableStep r a) x ^^^ js.foldl (tableStep r b) y := by
  induction js generalizing x y with
  | nil => rfl
  | cons j js ih => simp only [List.foldl_cons, tableStep_xor, ih]

theorem tableSum_xor (a b : Nat) : tableSum r (a ^^^ b) = tableSum r a ^^^ tableSum r b := by
  simpa only [tableSum_eq_foldl, BitVec.xor_self] using foldl_tableStep_xor r a b (List.range 64) 0#128 0#128

theorem foldl_tableStep_two_pow (k n : Nat) :
    (List.range n).foldl (tableStep r (2 ^ k)) 0#128 = if k < n then r.ltAt k else 0#128 := by
  induction n with
  | zero => rfl
  | succ n ih =>
    rw [List.range_succ, List.foldl_concat, ih, tableStep, Nat.testBit_two_pow]
    obtain hlt | rfl | hgt := Nat.lt_trichotomy k n
    · simp [hlt, hlt.ne, Nat.lt_succ_of_lt hlt]
    · simp
    · simp [hgt.ne', Nat.not_lt_of_gt hgt, Nat.not_lt_of_ge hgt]

theorem tableSum_two_pow {k : Nat} (h : k < 64) : tableSum r (2 ^ k) = r.ltAt k := by
  rw [tableSum_eq_foldl, foldl_tableStep_two_pow, if_pos h]

end TableSum

theorem tableSum_zero (r : OcbRegs) : tableSum r 0 = 0#128 := by
  simpa using tableSum_xor r 0 0

theorem tableSum_congr {r r' : OcbRegs} (h : r'.lt = r.lt) (g : Nat) : tableSum r' g = tableSum r g := by
  simp only [tableSum, OcbRegs.ltAt, h]

/-- The offset step of R294 and of R291, on the Gray-code form: counting one block adds `LT[ntz(i)]`. -/
theorem tableSum_grayCode_add_one (r : OcbRegs) {n : BitVec 64} (h : n.toNat + 1 < 2 ^ 64) :
    tableSum r (grayCode (n + 1#64).toNat) = tableSum r (grayCode n.toNat) ^^^ r.ltAt (ntz (n + 1#64).toNat) := by
  rw [toNat_add_ofNat_of_lt h, grayCode_add_one h, tableSum_xor,
    tableSum_two_pow r (ntz_lt (Nat.succ_pos _) h)]

/-! ### The offsets of the OCB registers -/

/-- `OFFSET` is the Gray-code form of `MAIN_COUNT`, from the initial offset. -/
def PayloadOffsetIs (initial : Block) (r : OcbRegs) : Prop :=
  r.offset = initial ^^^ tableSum r (grayCode r.mainCount.toNat)

/-- `HASH_OFFSET` is the Gray-code form of `HASH_COUNT`. -/
def HashOffsetOk (r : OcbRegs) : Prop := r.hashOffset = tableSum r (grayCode r.hashCount.toNat)

theorem offsetsAreGrayCoded_iff (s : State) :
    OffsetsAreGrayCoded s ↔
      (s.cfg.variant = .ocb → s.eng.phase ≠ .uninit →
        PayloadOffsetIs (offset0 s.cfg.transform s.eng.key s.eng.nonce s.eng.tagLen) s.eng.ocb ∧
          HashOffsetOk s.eng.ocb) := Iff.rfl

section Streams
variable {initial : Block} {r r' : OcbRegs}

theorem PayloadOffsetIs.congr (h : PayloadOffsetIs initial r) (hs : SamePayloadSide r r') : PayloadOffsetIs initial r' := by
  rw [PayloadOffsetIs, hs.offset, hs.mainCount, tableSum_congr hs.lt]
  exact h

theorem HashOffsetOk.congr (h : HashOffsetOk r) (hs : SameHashSide r r') : HashOffsetOk r' := by
  rw [HashOffsetOk, hs.hashOffset, hs.hashCount, tableSum_congr hs.lt]
  exact h

theorem PayloadOffsetIs.of_start (ho : r.offset = initial) (hcount : r.mainCount = 0#64) : PayloadOffsetIs initial r := by
  have hgray : grayCode (0#64).toNat = 0 := rfl
  rw [PayloadOffsetIs, hcount, hgray, tableSum_zero, BitVec.xor_zero, ho]

theorem HashOffsetOk.of_start (ho : r.hashOffset = 0#128) (hcount : r.hashCount = 0#64) : HashOffsetOk r := by
  have hgray : grayCode (0#64).toNat = 0 := rfl
  rw [HashOffsetOk, hcount, hgray, tableSum_zero, ho]

variable (t : Transform) (k : List Byte)

/-- R291: absorbing a block steps the counter and the offset together. -/
theorem HashOffsetOk.hashBlock (h : HashOffsetOk r) (hcount : r.hashCount.toNat + 1 < 2 ^ 64) (a : Block) :
    HashOffsetOk (ocbHashBlock t k r a) := by
  rw [HashOffsetOk, tableSum_congr (ocbHashBlock_lt ..), ocbHashBlock_hashCount, tableSum_grayCode_add_one r hcount, ← h]
  rfl

/-- R294: so does a payload block. -/
theorem PayloadOffsetIs.mainBlock (h : PayloadOffsetIs initial r) (hcount : r.mainCount.toNat + 1 < 2 ^ 64) (dir : Dir)
    (b : Block) : PayloadOffsetIs initial (ocbMainBlock t k dir r b).1 := by
  rw [PayloadOffsetIs, tableSum_congr (ocbMainBlock_sameHashSide ..).lt, ocbMainBlock_mainCount,
    tableSum_grayCode_add_one r hcount, ocbMainBlock_offset, h, BitVec.xor_assoc]

theorem HashOffsetOk.feedByte (h : HashOffsetOk r) (hw : r.hashBuf.length ≤ 15) {b : Byte}
    (hcount : r.hashCount.toNat + (r.hashBuf.length + 1) / 16 < 2 ^ 64) : HashOffsetOk (hashFeedByte t k r b) := by
  obtain hshort | hfull := Nat.lt_or_eq_of_le hw
  · rw [hashFeedByte_of_short t k hshort]
    exact h
  · rw [hashFeedByte_of_full t k hfull]
    rw [hfull] at hcount
    exact h.hashBlock t k hcount (blockOfBytes (r.hashBuf ++ [b]))

/-- The associated data keeps the form as long as its counter does not wrap, which R141 checks. -/
theorem HashOffsetOk.feed (h : HashOffsetOk r) (hw : r.hashBuf.length ≤ 15) {a : List Byte}
    (hcount : r.hashCount.toNat + (r.hashBuf.length + a.length) / 16 < 2 ^ 64) : HashOffsetOk (hashFeed t k r a) := by
  induction a generalizing r with
  | nil => exact h
  | cons b a ih =>
    rw [List.length_cons] at hcount
    obtain ⟨hbuf, hcnt⟩ := hashFeedByte_window t k r b hw
    have hfirst : r.hashCount.toNat + (r.hashBuf.length + 1) / 16 < 2 ^ 64 := by omega
    refine ih (h.feedByte t k hw hfirst) (by omega) ?_
    rw [hbuf, hcnt, toNat_add_ofNat_of_lt hfirst]
    omega

theorem PayloadOffsetIs.feedByte (h : PayloadOffsetIs initial r) {dir : Dir} {tagLen : Nat}
    (hw : r.mainBuf.length < windowCap dir tagLen) {b : Byte}
    (hcount : r.mainCount.toNat + blocksEmitted dir tagLen r.mainBuf.length 1 < 2 ^ 64) :
    PayloadOffsetIs initial (windowFeedByte t k dir tagLen r b).1 := by
  obtain hshort | hfull := Nat.lt_or_eq_of_le (Nat.succ_le_of_lt hw)
  · rw [windowFeedByte_of_short t k hshort]
    exact h
  · rw [windowFeedByte_of_full t k hfull]
    rw [blocksEmitted_of_full hfull] at hcount
    exact h.mainBlock t k hcount dir (blockOfBytes ((r.mainBuf ++ [b]).take 16))

/-- The payload keeps the form as long as its counter does not wrap, which R144 checks. -/
theorem PayloadOffsetIs.feed (h : PayloadOffsetIs initial r) {dir : Dir} {tagLen : Nat}
    (hw : r.mainBuf.length < windowCap dir tagLen) {p : List Byte}
    (hcount : r.mainCount.toNat + blocksEmitted dir tagLen r.mainBuf.length p.length < 2 ^ 64) :
    PayloadOffsetIs initial (windowFeed t k dir tagLen r p).1 := by
  induction p generalizing r with
  | nil => exact h
  | cons b p ih =>
    obtain ⟨-, hfill, hcnt, hcap⟩ := windowFeedByte_window t k dir tagLen r b hw
    rw [List.length_cons, Nat.add_comm p.length, ← blocksEmitted_add hfill p.length] at hcount
    have hfirst : r.mainCount.toNat + blocksEmitted dir tagLen r.mainBuf.length 1 < 2 ^ 64 := by omega
    refine ih (r := (windowFeedByte t k dir tagLen r b).1) (h.feedByte t k hw hfirst) hcap ?_
    rw [hcnt, toNat_add_ofNat_of_lt hfirst]
    omega

end Streams

/-! ### Every step keeps the form -/

/-- The Gray-code form of both offsets, on the registers of an OCB engine in a session. -/
def GrayCoded (c : Config) (e : Engine) : Prop :=
  PayloadOffsetIs (offset0 c.transform e.key e.nonce e.tagLen) e.ocb ∧ HashOffsetOk e.ocb

section Effects
variable {c : Config} {e : Engine}

/-- A session start counts no block, and the associated data given at INIT cannot make the counter wrap (R150). -/
theorem grayCoded_sessionStart (hc : c.wf = true) (hv : c.variant = .ocb) (had : e.initAd.length ≤ c.initAdMax) :
    GrayCoded c (sessionStart c e) := by
  have hlt : c.initAdMax < 2 ^ 32 := by
    simp only [Config.wf, Bool.and_eq_true, decide_eq_true_eq] at hc
    omega
  have hsame := sessionStart_sameParams c e
  unfold GrayCoded
  rw [hsame.key, hsame.nonce, hsame.tagLen, sessionStart_ocb c e hv]
  refine ⟨(PayloadOffsetIs.of_start rfl rfl).congr (hashFeed_samePayloadSide ..),
    (HashOffsetOk.of_start rfl rfl).feed _ _ (Nat.zero_le _) ?_⟩
  change 0 + (0 + e.initAd.length) / 16 < 2 ^ 64
  omega

theorem GrayCoded.absorb (h : GrayCoded c e) (hv : c.variant = .ocb) (hw : e.hashPos ≤ 15) {a : List Byte}
    (hcap : aadCapacityExceeded c e a.length = false) : GrayCoded c { absorbAad c e a with phase := .aad } := by
  obtain ⟨hpay, hhash⟩ := h
  have hcount : e.ocb.hashCount.toNat + (e.hashPos + a.length) / 16 < 2 ^ 64 := by
    simp only [aadCapacityExceeded, hv, decide_eq_false_iff_not] at hcap
    omega
  rw [absorbAad_ocb hv]
  exact ⟨hpay.congr (hashFeed_samePayloadSide ..), hhash.feed _ _ hw hcount⟩

theorem GrayCoded.feed (h : GrayCoded c e) (hv : c.variant = .ocb) (hw : MainWindowOk e) {p : List Byte}
    (hcap : dataCapacityExceeded c e p.length (updSize c e p.length) = false) : GrayCoded c (feedPayload c e p).1 := by
  obtain ⟨hpay, hhash⟩ := h
  rw [dataCapacityExceeded_ocb hv, updSize_eq_blocksEmitted c e _ hv, Nat.mul_div_cancel_left _ (by decide : 0 < 16)] at hcap
  rw [feedPayload_ocb hv]
  exact ⟨hpay.feed _ _ hw.lt_windowCap hcap, hhash.congr (windowFeed_sameHashSide ..)⟩

theorem SessionEffect.grayCoded {e' : Engine} (he : SessionEffect c e e') (hc : c.wf = true) (hinv : EngineInv c e)
    (hv : c.variant = .ocb) (h : e.phase ≠ .uninit → GrayCoded c e) (hu : e'.phase ≠ .uninit) : GrayCoded c e' := by
  cases he with
  | keep => exact h hu
  | absorb a started _ fits => exact (h started).absorb hv (hinv.hashWindow hv) fits
  | feed p started fits => exact (h started).feed hv (hinv.mainWindow hv) fits
  | restart started | finish started | forget started =>
    exact grayCoded_sessionStart hc hv ((paramsOk_session started).1 hinv.params).initAd

end Effects

/-- Settles O24: a step counts a block where it steps the offset, or starts a session at count 0; the capacity checks keep the
counters from wrapping. -/
theorem stepKeepsTheOffsetsGrayCoded : Obligations.StepKeepsTheOffsetsGrayCoded := by
  intro s t ⟨hc, hinv⟩ hs h
  obtain ⟨hcfg, he⟩ := step_effect h
  rw [offsetsAreGrayCoded_iff] at hs ⊢
  rw [hcfg]
  intro hv hu
  generalize t.eng = e at he hu ⊢
  cases he with
  | session he => exact he.grayCoded hc hinv hv (hs hv) hu
  | init dir tagBits k n ad _ _ _ fits =>
    exact grayCoded_sessionStart (e := s.eng.withParams dir tagBits k n ad) hc hv fits
  | powerOn => exact absurd rfl hu

end Sys2Proof.Machine
end

section
/-! PROOFS. A full block of the OCB payload: the PROCESS_BYTE that completes it (43_ocb_offset_mac.md R294 to R296), and the
message that is decrypted block by block as it was encrypted (R298, R301; 95_test_vectors.md V3). -/

namespace Sys2Proof.Machine

/-! ### The PROCESS_BYTE that completes a block -/

/-- PROCESS_BYTE with one byte missing to the capacity of the window, in either direction: one block through the datapath, the
bytes behind it stay. -/
theorem execProcessByte_of_full {s : State} {outOff : Nat} (hv : s.cfg.variant = .ocb) (hu : s.eng.phase ≠ .uninit)
    (hfull : s.eng.ocb.mainBuf.length + 1 = windowCap s.eng.dir s.eng.tagLen) (hout : outOff + 16 ≤ s.outWin.cap.toNat)
    (hcount : s.eng.ocb.mainCount.toNat + 1 < 2 ^ 64) (b : Byte) :
    let block := ocbMainBlock s.cfg.transform s.eng.key s.eng.dir s.eng.ocb (blockOfBytes ((s.eng.ocb.mainBuf ++ [b]).take 16))
    exec (.processByte b outOff) s =
      .next { s with
        eng := { s.eng with phase := .data, ocb := { block.1 with mainBuf := (s.eng.ocb.mainBuf ++ [b]).drop 16 } }
        mem := s.mem.writeBytes (s.outAddr outOff) (bytesOfBlock block.2)
        responses := s.responses ++ [⟨.ok, 16#64, []⟩] } := by
  have hsize : updSize s.cfg s.eng 1 = 16 := by
    rw [updSize_eq_blocksEmitted _ _ _ hv, Engine.mainPos, blocksEmitted_of_full hfull]
  have hcap : dataCapacityExceeded s.cfg s.eng 1 (updSize s.cfg s.eng 1) = false := by
    rw [dataCapacityExceeded_ocb hv, hsize]
    exact hcount
  rw [execProcessByte_of_accepted hu (by omega) hcap b, afterPayload, List.length_singleton, hsize,
    feedPayload_eq_ocb hv, windowFeed_singleton, windowFeedByte_of_full _ _ hfull]
  rfl

theorem ocbMainBlock_enc (t : Transform) (k : List Byte) {r : OcbRegs} (hcount : r.mainCount.toNat + 1 < 2 ^ 64) (x : Block) :
    let off := r.offset ^^^ r.ltAt (ntz (r.mainCount.toNat + 1))
    ocbMainBlock t k .enc r x =
      ({ r with mainCount := r.mainCount + 1#64, offset := off, checksum := r.checksum ^^^ x },
        blockE t k (x ^^^ off) ^^^ off) := by
  simp only [ocbMainBlock, offsetStep, toNat_add_ofNat_of_lt hcount]

theorem ocbMainBlock_dec (t : Transform) (k : List Byte) {r : OcbRegs} (hcount : r.mainCount.toNat + 1 < 2 ^ 64) (y : Block) :
    let off := r.offset ^^^ r.ltAt (ntz (r.mainCount.toNat + 1))
    let x := blockD t k (y ^^^ off) ^^^ off
    ocbMainBlock t k .dec r y =
      ({ r with mainCount := r.mainCount + 1#64, offset := off, checksum := r.checksum ^^^ x }, x) := by
  simp only [ocbMainBlock, offsetStep, toNat_add_ofNat_of_lt hcount]

/-- Settles O38: on encryption sixteen bytes are the capacity, so the window is empty after the block. -/
theorem ocbEncryptsAFullBlock : Obligations.OcbEncryptsAFullBlock := by
  rintro p b outOff s hv hu hd rfl hp hout hcount
  have hfull : s.eng.ocb.mainBuf.length + 1 = windowCap s.eng.dir s.eng.tagLen := by rw [hp, hd]; rfl
  have hlen : (s.eng.ocb.mainBuf ++ [b]).length ≤ 16 := by simp [hp]
  refine (execProcessByte_of_full hv hu hfull hout hcount b).trans ?_
  rw [hd, List.take_of_length_le hlen, List.drop_of_length_le hlen, ocbMainBlock_enc _ _ hcount]

/-- Settles O39: on decryption the capacity is sixteen bytes and the tag length, which stays withheld. -/
theorem ocbDecryptsAFullBlock : Obligations.OcbDecryptsAFullBlock := by
  rintro p b outOff s hv hu hd rfl hp hout hcount
  have hfull : s.eng.ocb.mainBuf.length + 1 = windowCap s.eng.dir s.eng.tagLen := by
    rw [hp, hd, windowCap]
    omega
  refine (execProcessByte_of_full hv hu hfull hout hcount b).trans ?_
  rw [hd, ocbMainBlock_dec _ _ hcount]

/-! ### A message through the window, block by block (R342, R343) -/

section Window
variable (t : Transform) (k : List Byte) {dir : Dir} {tagLen : Nat}

theorem sixteen_le_windowCap : 16 ≤ windowCap dir tagLen := by
  cases dir <;> simp [windowCap]

/-- Bytes that do not fill the window are held. -/
theorem windowFeed_of_short {r : OcbRegs} {p : List Byte} (h : r.mainBuf.length + p.length < windowCap dir tagLen) :
    windowFeed t k dir tagLen r p = ({ r with mainBuf := r.mainBuf ++ p }, []) := by
  induction p generalizing r with
  | nil => simp [windowFeed]
  | cons b p ih =>
    rw [List.length_cons] at h
    rw [windowFeed, windowFeedByte_of_short t k (by omega)]
    simp [ih (r := { r with mainBuf := r.mainBuf ++ [b] }) (by simp; omega)]

/-- So an empty window holds a string shorter than its capacity. -/
theorem windowFeed_held {r : OcbRegs} (hr : r.mainBuf = []) {p : List Byte} (h : p.length < windowCap dir tagLen) :
    windowFeed t k dir tagLen r p = ({ r with mainBuf := p }, []) := by
  rw [windowFeed_of_short t k (by rwa [hr, List.length_nil, Nat.zero_add]), hr, List.nil_append]

/-- A string that just fills the empty window: its first block goes through the datapath, the rest stays. -/
theorem windowFeed_of_full {r : OcbRegs} (hr : r.mainBuf = []) {b : List Byte} (h : b.length = windowCap dir tagLen) :
    windowFeed t k dir tagLen r b =
      ({ (ocbMainBlock t k dir r (blockOfBytes (b.take 16))).1 with mainBuf := b.drop 16 },
        bytesOfBlock (ocbMainBlock t k dir r (blockOfBytes (b.take 16))).2) := by
  have hne : b ≠ [] := by
    rw [← List.length_pos_iff, h]
    exact sixteen_le_windowCap.trans_lt' (by decide)
  obtain ⟨p, x, rfl⟩ : ∃ p x, b = p ++ [x] := ⟨_, _, (List.dropLast_append_getLast hne).symm⟩
  rw [List.length_append, List.length_singleton] at h
  rw [windowFeed_append, windowFeed_held t k hr (by omega), windowFeed_singleton, windowFeedByte_of_full t k h, List.nil_append]
  cases dir <;> rfl

@[simp] theorem ocbMainBlock_mainBuf (dir : Dir) (r : OcbRegs) (b : Block) :
    (ocbMainBlock t k dir r b).1.mainBuf = r.mainBuf := by
  cases dir <;> rfl

/-- A block in front of a string that is at least as long as what the window withholds: the block is emitted, and the string is
fed to the empty window after it. -/
theorem windowFeed_block {r : OcbRegs} (hr : r.mainBuf = []) {b rest : List Byte} (hb : b.length = 16)
    (hrest : windowCap dir tagLen ≤ 16 + rest.length) :
    let block := ocbMainBlock t k dir r (blockOfBytes b)
    windowFeed t k dir tagLen r (b ++ rest) =
      ((windowFeed t k dir tagLen block.1 rest).1, bytesOfBlock block.2 ++ (windowFeed t k dir tagLen block.1 rest).2) := by
  intro block
  obtain ⟨withheld, behind, rfl, hw⟩ : ∃ withheld behind, rest = withheld ++ behind ∧
      16 + withheld.length = windowCap dir tagLen := by
    have hcap := sixteen_le_windowCap (dir := dir) (tagLen := tagLen)
    exact ⟨rest.take (windowCap dir tagLen - 16), rest.drop (windowCap dir tagLen - 16), (List.take_append_drop ..).symm,
      by rw [List.length_take]; omega⟩
  have hbuf : block.1.mainBuf = [] := (ocbMainBlock_mainBuf ..).trans hr
  have hheld : windowFeed t k dir tagLen block.1 withheld = ({ block.1 with mainBuf := withheld }, []) :=
    windowFeed_held t k hbuf (by omega)
  have hemit : windowFeed t k dir tagLen r (b ++ withheld) = ({ block.1 with mainBuf := withheld }, bytesOfBlock block.2) := by
    rw [windowFeed_of_full t k hr (by rw [List.length_append, hb, hw]), List.take_left' hb, List.drop_left' hb]
  rw [← List.append_assoc, windowFeed_append _ _ _ _ r, windowFeed_append _ _ _ _ block.1, hemit, hheld]
  rfl

/-- `D` inverts `E` under the same offset, so decrypting an encrypted block takes the same step and gives the block back. -/
theorem ocbMainBlock_dec_enc (r : OcbRegs) (x : Block) :
    ocbMainBlock t k .dec r (ocbMainBlock t k .enc r x).2 = ((ocbMainBlock t k .enc r x).1, x) := by
  simp [ocbMainBlock, blockD_blockE_cancel]

/-- The last, partial block is crypted with the same pad in both directions, so it decrypts to itself and gives the tag the same
offset and checksum (R298). -/
theorem finalPart_dec_enc (r : OcbRegs) {part : List Byte} (h : part.length ≤ 16) :
    finalPart t k .dec r (finalPart t k .enc r part).1 = (part, (finalPart t k .enc r part).2) := by
  by_cases hnil : part = []
  · rw [hnil, finalPart_nil]; rfl
  · have hlen := length_finalPart t k .enc r h
    have hne : (finalPart t k .enc r part).1 ≠ [] := by
      rw [← List.length_pos_iff, hlen]
      exact List.length_pos_iff.2 hnil
    rw [finalPart_of_ne_nil t k .dec r hne, hlen, finalPart_of_ne_nil t k .enc r hnil, xorBytes_xorBytes (by simp [h])]

end Window

/-! ### What was sealed opens -/

section Seal
variable (t : Transform) (k : List Byte) (m : Nat) (r : OcbRegs)

/-- All that the encryption of `p` emits, the last frame with it, and the tag. -/
def ocbSeal (p : List Byte) : List Byte × List Byte :=
  let sealed := windowFeed t k .enc m r p
  let last := ocbFinal t k .enc m sealed.1
  (sealed.2 ++ last.1, last.2.1)

/-- All that the decryption of `c` releases, the tag computed, and the comparator's verdict. -/
def ocbOpen (c : List Byte) : List Byte × List Byte × Bool :=
  let opened := windowFeed t k .dec m r c
  let final := ocbFinal t k .dec m opened.1
  (opened.2 ++ final.1, final.2)

variable {m r}

theorem length_ocbSeal_ge (hm : m ≤ 16) (p : List Byte) : m ≤ (ocbSeal t k m r p).1.length := by
  simp only [ocbSeal, ocbFinal_enc, List.length_append, length_ocbTag, Nat.min_eq_left hm]
  omega

theorem ocbSeal_block (hr : r.mainBuf = []) {b : List Byte} (hb : b.length = 16) (p : List Byte) :
    let block := ocbMainBlock t k .enc r (blockOfBytes b)
    ocbSeal t k m r (b ++ p) = (bytesOfBlock block.2 ++ (ocbSeal t k m block.1 p).1, (ocbSeal t k m block.1 p).2) := by
  have hrest : windowCap .enc m ≤ 16 + p.length := Nat.le_add_right 16 p.length
  simp only [ocbSeal, windowFeed_block t k hr hb hrest, List.append_assoc]

theorem ocbOpen_block (hr : r.mainBuf = []) {b c : List Byte} (hb : b.length = 16) (hc : m ≤ c.length) :
    let block := ocbMainBlock t k .dec r (blockOfBytes b)
    ocbOpen t k m r (b ++ c) = (bytesOfBlock block.2 ++ (ocbOpen t k m block.1 c).1, (ocbOpen t k m block.1 c).2) := by
  have hrest : windowCap .dec m ≤ 16 + c.length := Nat.add_le_add_left hc 16
  simp only [ocbOpen, windowFeed_block t k hr hb hrest, List.append_assoc]

/-- On a window that holds a last block and a tag, the final procedure of decryption takes them apart (R301). -/
theorem ocbFinal_dec_append {c tag : List Byte} (ht : tag.length = m) :
    ocbFinal t k .dec m { r with mainBuf := c ++ tag } =
      let part := finalPart t k .dec r c
      (part.1, ocbTag t k r m part.2.1 part.2.2, tagEqual (ocbTag t k r m part.2.1 part.2.2) tag) := by
  have hsplit : (c ++ tag).length - m = c.length := by rw [List.length_append, ht, Nat.add_sub_cancel]
  simp only [ocbFinal_dec, hsplit, List.take_left, List.drop_left]
  rfl

/-- A message shorter than a block is held whole, and sealed by the final procedure alone. -/
theorem ocbSeal_of_short (hr : r.mainBuf = []) {p : List Byte} (hp : p.length < 16) :
    ocbSeal t k m r p =
      let part := finalPart t k .enc r p
      (part.1 ++ ocbTag t k r m part.2.1 part.2.2, ocbTag t k r m part.2.1 part.2.2) := by
  have hcap : p.length < windowCap .enc m := hp
  rw [ocbSeal, windowFeed_held t k hr hcap]
  rfl

/-- On decryption so are the bytes of a last block with a tag behind them. -/
theorem ocbOpen_of_short (hr : r.mainBuf = []) {c tag : List Byte} (hc : c.length < 16) (ht : tag.length = m) :
    ocbOpen t k m r (c ++ tag) =
      let part := finalPart t k .dec r c
      (part.1, ocbTag t k r m part.2.1 part.2.2, tagEqual (ocbTag t k r m part.2.1 part.2.2) tag) := by
  have hcap : (c ++ tag).length < windowCap .dec m := by
    rw [List.length_append, ht, windowCap]
    omega
  rw [ocbOpen, windowFeed_held t k hr hcap, ocbFinal_dec_append t k ht]
  rfl

theorem ocbOpen_ocbSeal (hm : m ≤ 16) (hr : r.mainBuf = []) (p : List Byte) :
    ocbOpen t k m r (ocbSeal t k m r p).1 = (p, (ocbSeal t k m r p).2, true) := by
  induction p using blockwise_induction generalizing r with
  | short p hp =>
    have hlen : (finalPart t k .enc r p).1.length < 16 := by rwa [length_finalPart t k .enc r hp.le]
    rw [ocbSeal_of_short t k hr hp,
      ocbOpen_of_short t k hr hlen ((length_ocbTag ..).trans (Nat.min_eq_left hm)), finalPart_dec_enc t k r hp.le]
    simp only [tagEqual_self]
  | block b p hb ih =>
    rw [ocbSeal_block t k hr hb, ocbOpen_block t k hr (length_bytesOfBlock _) (length_ocbSeal_ge t k hm p),
      blockOfBytes_bytesOfBlock, ocbMainBlock_dec_enc, ih ((ocbMainBlock_mainBuf ..).trans hr),
      bytesOfBlock_blockOfBytes hb]

end Seal

/-- Settles O48, also for keys that are not accepted (the model choice of logs 2 and 3): no case asks for `keyOk`. Of the fresh
registers only the empty window matters. -/
theorem ocbOpensWhatItSealed : Obligations.OcbOpensWhatItSealed := by
  rintro t k m r p hm ⟨hr, -, -⟩
  have h := ocbOpen_ocbSeal t k hm hr p
  exact ⟨congrArg Prod.fst h, congrArg (·.2.1) h, congrArg (·.2.2) h⟩

end Sys2Proof.Machine
end

section
/-! PROOFS. The tag comparator (44_buffered_unit.md R352). -/

namespace Sys2Proof.Machine

/-- Settles O46, by the comparator's rule: its accumulator stays zero exactly when no pair of bytes differs, and on strings of
equal length the pairs cover both strings to their ends. -/
theorem tagComparatorDecidesEquality : Obligations.TagComparatorDecidesEquality :=
  fun _ _ hlen => tagEqual_iff_eq hlen

end Sys2Proof.Machine
end

section
/-! PROOFS. The order of a command's checks (60_exceptions.md R390): a chain of checks reports the first that fails, and the
rows of `checksOf` are the chains of the commands. -/

namespace Sys2Proof.Machine

/-! ### The checks, in the terms of R390 -/

theorem inBounds_not_iff (s : State) (off n : Nat) : (!s.inBounds off n) = true ↔ s.inWin.cap.toNat < off + n := by
  rw [Bool.not_eq_true', ← Bool.not_eq_true, State.inBounds_iff, not_le]

theorem outBounds_not_iff (s : State) (off n : Nat) : (!s.outBounds off n) = true ↔ s.outWin.cap.toNat < off + n := by
  rw [Bool.not_eq_true', ← Bool.not_eq_true, State.outBounds_iff, not_le]

/-- INIT has one check of the key for two entries of its row: supplied and not accepted, or none retained (R134, R135). -/
theorem initKeyAccepted_not_iff (s : State) (kp : Bool) (koff klen : Nat) :
    (!initKeyAccepted s kp koff klen) = true ↔
      (kp = true ∧ keyOk s.cfg.transform (s.inRead koff klen) = false) ∨ (kp = false ∧ s.eng.keyValid = false) := by
  cases kp <;> simp [initKeyAccepted]

theorem initAdMax_exceeded_iff (s : State) (ap : Bool) (aoff alen : Nat) :
    s.cfg.initAdMax < (initAdBytes s ap aoff alen).length ↔ ap = true ∧ s.cfg.initAdMax < alen := by
  cases ap <;> simp [initAdBytes]

/-- Only decryption verifies a tag (42_ccm_mac.md R250, 43_ocb_offset_mac.md R301). -/
theorem dir_of_unverified {c : Config} {e : Engine} (h : (finalFrame c e).2.2 = false) : e.dir = .dec := by
  cases hd : e.dir with
  | enc => rw [finalFrame_enc c e hd] at h; cases h
  | dec => rfl

/-- Two entries with the same status, one after the other, are one check. -/
theorem firstFailing_or {p q : Prop} {e st : Status} {checks : List (Prop × Status)}
    (h : firstFailing ((p ∨ q, e) :: checks) st) : firstFailing ((p, e) :: (q, e) :: checks) st := by
  obtain ⟨hp | hq, rfl⟩ | ⟨hpq, hrest⟩ := h
  · exact .inl ⟨hp, rfl⟩
  · by_cases hp : p
    · exact .inl ⟨hp, rfl⟩
    · exact .inr ⟨hp, .inl ⟨hq, rfl⟩⟩
  · exact .inr ⟨fun hp => hpq (.inl hp), .inr ⟨fun hq => hpq (.inr hq), hrest⟩⟩

/-! ### A chain of checks -/

/-- `x` goes on with one response more than `s` has, whose status is that of the first of the checks that fails. -/
def Reports (s : State) (checks : List (Prop × Status)) (x : Result) : Prop :=
  ∃ t r, x = .next t ∧ t.responses = s.responses ++ [r] ∧ firstFailing checks r.status

section Chain
variable {s : State} {checks : List (Prop × Status)} {p q : Prop} {e : Status} {x : Result}

/-- The end of a chain: no check is left, and the answer is OK. -/
theorem Reports.done (u : State) (hu : u.responses = s.responses) (result : Nat) (rdata : List Byte) :
    Reports s [] (u.respondOk result rdata) :=
  ⟨_, okResponse result rdata, rfl, congrArg (· ++ [_]) hu, rfl⟩

/-- A check that fails. -/
theorem Reports.fails (hp : p) (u : State) (hu : u.responses = s.responses) : Reports s ((p, e) :: checks) (u.raise e) :=
  ⟨_, errorResponse e, rfl, congrArg (· ++ [_]) hu, .inl ⟨hp, rfl⟩⟩

/-- A check that passes. -/
theorem Reports.passes (hp : ¬ p) (h : Reports s checks x) : Reports s ((p, e) :: checks) x := by
  obtain ⟨t, r, hx, hr, hst⟩ := h
  exact ⟨t, r, hx, hr, .inr ⟨hp, hst⟩⟩

/-- One check, and the rest of the chain. INVALID_CIPHERTEXT is raised with the registers of a session start, so the state
that answers need not be `s`. -/
theorem Reports.check [Decidable q] {u : State} (hq : q ↔ p) (h : Reports s checks x)
    (hu : u.responses = s.responses := by rfl) : Reports s ((p, e) :: checks) (if q then u.raise e else x) := by
  by_cases hp : p
  · rw [if_pos (hq.2 hp)]; exact .fails hp u hu
  · rw [if_neg fun h => hp (hq.1 h)]; exact .passes hp h

theorem Reports.or (h : Reports s ((p ∨ q, e) :: checks) x) : Reports s ((p, e) :: (q, e) :: checks) x := by
  obtain ⟨t, r, hx, hr, hst⟩ := h
  exact ⟨t, r, hx, hr, firstFailing_or hst⟩

end Chain

/-! ### The commands with checks -/

section Commands
variable (s : State)

theorem execInit_reports (dir : Dir) (kp ap : Bool) (tagBits koff klen noff nlen aoff alen : Nat) :
    Reports s (checksOf s (.init dir kp ap tagBits koff klen noff nlen aoff alen))
      (execInit dir kp ap tagBits koff klen noff nlen aoff alen s) :=
  .check (by rw [Bool.and_eq_true, inBounds_not_iff]) <|
  .check (inBounds_not_iff ..) <|
  .check (by rw [Bool.and_eq_true, inBounds_not_iff]) <|
  .check (by rw [Bool.not_eq_true']) <|
  .check (by rw [Bool.not_eq_true']) <| .or <|
  .check (initKeyAccepted_not_iff ..) <|
  .check (initAdMax_exceeded_iff ..) <| .done _ rfl _ _

theorem execProcessAad_reports (inOff inLen : Nat) :
    Reports s (checksOf s (.processAad inOff inLen)) (execProcessAad inOff inLen s) :=
  .check .rfl <| .check .rfl <| .check (inBounds_not_iff ..) <|
    .check (aadCapacityExceeded_iff ..) <| .done _ rfl _ _

/-- What PROCESS_BYTES and PROCESS_BYTE share of their rows. -/
theorem processPayload_reports (p : List Byte) (n outOff : Nat) :
    Reports s
      [(s.outWin.cap.toNat < outOff + updSize s.cfg s.eng n, .outputLength), (DataExceeds s.cfg s.eng n, .capacity)]
      (s.processPayload p n outOff) :=
  .check (outBounds_not_iff ..) <| .check (dataCapacityExceeded_updSize_iff ..) <| .done _ rfl _ _

theorem execProcessBytes_reports (inOff inLen outOff : Nat) :
    Reports s (checksOf s (.processBytes inOff inLen outOff)) (execProcessBytes inOff inLen outOff s) :=
  .check .rfl <| .check (inBounds_not_iff ..) <| processPayload_reports ..

theorem execProcessByte_reports (byte : Byte) (outOff : Nat) :
    Reports s (checksOf s (.processByte byte outOff)) (execProcessByte byte outOff s) :=
  .check .rfl <| processPayload_reports ..

/-- The last check of the row is the tag's, which the final procedure makes on decryption only. -/
theorem execDoFinal_reports (outOff : Nat) : Reports s (checksOf s (.doFinal outOff)) (execDoFinal outOff s) := by
  refine .check .rfl <| .check .rfl <| .check (outBounds_not_iff ..) ?_
  rcases hf : finalFrame s.cfg s.eng with ⟨frame, tag, ok⟩
  cases ok with
  | false => exact .fails ⟨dir_of_unverified (by rw [hf]), rfl⟩ _ rfl
  | true => exact .passes (by simp) (.done _ rfl _ _)

theorem execReset_reports : Reports s (checksOf s .reset) (execReset s) := by
  unfold execReset
  split_ifs <;> exact .done _ rfl _ _

theorem exec_reports (i : Instr) : Reports s (checksOf s i) (exec i s) := by
  cases i with
  | init => exact execInit_reports ..
  | processAad => exact execProcessAad_reports ..
  | processBytes => exact execProcessBytes_reports ..
  | processByte => exact execProcessByte_reports ..
  | doFinal => exact execDoFinal_reports ..
  | reset => exact execReset_reports s
  | getMac | getAlgorithmName => exact .done s rfl _ _
  | getUpdateOutputSize | getOutputSize => exact .check .rfl <| .done s rfl _ _

end Commands

/-- Settles O15: an illegal word is found by the decoder, before any command's checks, and each command is the chain of its
row. -/
theorem commandsReportTheFirstFailingCheck : Obligations.CommandsReportTheFirstFailingCheck :=
  ⟨fun _ _ _ h => ⟨_, step_of_illegal h, rfl⟩, fun i s => exec_reports s i⟩

end Sys2Proof.Machine
end

section
/-! PROOFS. What a command that fails leaves (60_exceptions.md R385, R388, R396). -/

namespace Sys2Proof.Machine

section Failed
variable {i : Instr} {s t : State} {r : Response}

/-- A command's next state and its one new response are determined. -/
theorem exec_answer_unique (h : exec i s = .next t) (hr : t.responses = s.responses ++ [r]) {u : State} {r' : Response}
    (hu : exec i s = .next u) (hr' : u.responses = s.responses ++ [r']) : t = u ∧ r = r' := by
  obtain rfl : t = u := Host.Outcome.next.inj (h.symm.trans hu)
  exact ⟨rfl, by simpa using hr.symm.trans hr'⟩

/-- A command that does not answer OK answers an error with no effect, or DO_FINAL starts the session again. -/
theorem exec_failed (h : exec i s = .next t) (hr : t.responses = s.responses ++ [r]) (hne : r.status ≠ .ok) :
    (r.status ≠ .invalidCiphertext ∧ t = { s with responses := s.responses ++ [r] }) ∨
    (r = ⟨.invalidCiphertext, 0#64, []⟩ ∧ (∃ outOff, i = .doFinal outOff) ∧
      t = { s with eng := sessionStart s.cfg s.eng, responses := s.responses ++ [r] }) := by
  obtain ⟨_, _, _, _, he⟩ | ⟨st, -, hst, he⟩ | ⟨hi, he⟩ := exec_cases i s <;>
    obtain ⟨rfl, rfl⟩ := exec_answer_unique h hr he rfl
  · exact absurd rfl hne
  · exact .inl ⟨hst, rfl⟩
  · exact .inr ⟨rfl, hi, rfl⟩

/-- A session start keeps the tag register and the parameters it starts from (R49, R150). -/
theorem sessionStart_keeps (c : Config) (e : Engine) :
    (sessionStart c e).mac = e.mac ∧ (sessionStart c e).macValid = e.macValid ∧ SameSessionParams e (sessionStart c e) :=
  ⟨sessionStart_mac c e, sessionStart_macValid c e, (sessionStart_sameParams c e).sameSessionParams⟩

/-- Both causes of R385 are on decryption: a truncated input, or a tag that differs. -/
theorem doFinal_invalidCiphertext_cause {outOff : Nat} (h : exec (.doFinal outOff) s = .next t)
    (hr : t.responses = s.responses ++ [r]) (hst : r.status = .invalidCiphertext) :
    s.eng.dir = .dec ∧ (held s.cfg s.eng < s.eng.tagLen ∨ (finalFrame s.cfg s.eng).2.2 = false) := by
  obtain ⟨_, herr, he⟩ | ⟨-, ⟨hd, ht⟩ | hf, -⟩ | ⟨-, -, -, -, he⟩ := execDoFinal_cases outOff s
  · obtain ⟨-, rfl⟩ := exec_answer_unique h hr he rfl
    obtain rfl | rfl := herr <;> cases hst
  · exact ⟨hd, .inl ht⟩
  · exact ⟨dir_of_unverified hf, .inr hf⟩
  · obtain ⟨-, rfl⟩ := exec_answer_unique h hr he rfl
    cases hst

end Failed

/-- Settles O13: the two ways to fail. -/
theorem failedCommandsChangeNothing : Obligations.FailedCommandsChangeNothing := by
  intro i s t r h hr hne
  obtain ⟨hst, ht⟩ | ⟨rfl, -, rfl⟩ := exec_failed h hr hne
  · exact ⟨fun _ => ht, fun heq => absurd heq hst⟩
  · exact ⟨fun hst => absurd rfl hst, fun _ => ⟨rfl, sessionStart_keeps s.cfg s.eng⟩⟩

/-- Settles O14: the second way to fail has one form, and DO_FINAL has two causes for it. -/
theorem invalidCiphertextHasOneForm : Obligations.InvalidCiphertextHasOneForm := by
  intro i s t r h hr hst
  obtain ⟨hne, -⟩ | ⟨rfl, ⟨outOff, rfl⟩, rfl⟩ := exec_failed h hr (by simp [hst])
  · exact absurd hst hne
  · obtain ⟨hd, hcause⟩ := doFinal_invalidCiphertext_cause h hr hst
    exact ⟨⟨outOff, rfl⟩, hd, hcause, rfl, rfl, sessionStart_keeps s.cfg s.eng⟩

end Sys2Proof.Machine
end

section
/-! PROOFS. The moves of the host (70_reset_and_hazards.md R440, R441): which of them stop the machine (60_exceptions.md
R380, R393; log 6), and what the others leave alone (R405; log 5). -/

namespace Sys2Proof.Machine

section Moves
variable {s t : State} {m : HostMove}

/-! ### The next move -/

theorem takeMove_of_nil (h : s.moves = []) : takeMove s = .next s := by
  simp only [takeMove, h]

theorem takeMove_of_cons {ms : List HostMove} (h : s.moves = m :: ms) :
    takeMove s = hostMove m { s with moves := ms } := by
  simp only [takeMove, h]

theorem hostMove_eq_next (h : hostMove m s = .next t) : m.breaksDuty s = false ∧ t = s.afterMove m := by
  obtain ⟨-, hf⟩ | ⟨hd, hn⟩ := hostMove_cases m s
  · cases hf.symm.trans h
  · exact ⟨hd, Host.Outcome.next.inj (h.symm.trans hn)⟩

theorem step_of_incomplete (h : decode s.port = .incomplete) : step s = takeMove s :=
  step_of_runPort_none (runPort_of_incomplete h)

/-! ### The duties of the host (R440) -/

theorem sendsPastCommand_iff (s : State) (words : List Word) :
    s.sendsPastCommand words = true ↔ ∃ rest, rest ≠ [] ∧
      ((∃ i, decode (s.port ++ words) = .command i rest) ∨ ∃ why, decode (s.port ++ words) = .illegal why rest) := by
  unfold State.sendsPastCommand
  cases decode (s.port ++ words) <;> simp

/-- A store changes a window exactly when some address it covers lies in `IN` or `OUT` and gets another byte. -/
theorem changesWindow_iff_exists_addr (s : State) (addr : Nat) (bytes : List Byte) :
    s.changesWindow addr bytes = true ↔
      ∃ a, addr ≤ a ∧ a < addr + bytes.length ∧ bytes.getD (a - addr) 0#8 ≠ s.mem.read a ∧
        ((s.inWin.base ≤ a ∧ a < s.inWin.base + s.inWin.cap.toNat) ∨
          (s.outWin.base ≤ a ∧ a < s.outWin.base + s.outWin.cap.toNat)) := by
  simp only [State.changesWindow_iff, Window.covers_iff]
  constructor
  · rintro ⟨j, hj, hwin, hne⟩
    refine ⟨addr + j, Nat.le_add_right .., Nat.add_lt_add_left hj addr, ?_, hwin⟩
    rw [Nat.add_sub_cancel_left, List.getD_eq_getElem _ _ hj]
    exact hne.symm
  · rintro ⟨a, hle, hlt, hne, hwin⟩
    obtain ⟨j, rfl⟩ := Nat.exists_eq_add_of_le hle
    have hj : j < bytes.length := Nat.lt_of_add_lt_add_left hlt
    rw [Nat.add_sub_cancel_left, List.getD_eq_getElem _ _ hj] at hne
    exact ⟨j, hj, hwin, hne.symm⟩

/-- The model's check of the duties is R440. -/
theorem breaksDuty_iff (m : HostMove) (s : State) : m.breaksDuty s = true ↔ BreaksHostDuty s m := by
  cases m with
  | send words | sendLost words => exact sendsPastCommand_iff s words
  | present inp out => simp [HostMove.breaksDuty, BreaksHostDuty]
  | store addr bytes => simp [HostMove.breaksDuty, BreaksHostDuty, changesWindow_iff_exists_addr]
  | powerOn => simp [HostMove.breaksDuty, BreaksHostDuty]

/-! ### What stops the machine -/

/-- No command stops: each answers a next state. -/
theorem exec_goesOn (i : Instr) (s : State) : ∃ t, exec i s = .next t := by
  obtain ⟨t, _, h, -⟩ := exec_response i s
  exact ⟨t, h⟩

/-- The host is next, and its move breaks a duty. -/
def AtBreach (s : State) : Prop :=
  decode s.port = .incomplete ∧ ∃ m ms, s.moves = m :: ms ∧ BreaksHostDuty s m

theorem atBreach_of_cons {ms : List HostMove} (hd : decode s.port = .incomplete) (hm : s.moves = m :: ms) :
    AtBreach s ↔ m.breaksDuty { s with moves := ms } = true := by
  rw [breaksDuty_iff]
  constructor
  · rintro ⟨-, m', ms', hm', hb⟩
    obtain ⟨rfl, rfl⟩ := List.cons.inj (hm.symm.trans hm')
    exact hb
  · exact fun hb => ⟨hd, m, ms, hm, hb⟩

/-- A step goes on, or it stops at a breach. -/
theorem step_goesOn_or_breach (s : State) :
    (GoesOn s ∧ ¬ AtBreach s) ∨ (step s = .fault .hostDuty ∧ AtBreach s) := by
  obtain ⟨i, rest, hd, he⟩ | ⟨why, rest, hd, he⟩ | ⟨hd, he⟩ := step_cases s
  · obtain ⟨t, ht⟩ := exec_goesOn i { s with port := rest }
    exact .inl ⟨⟨t, he.trans ht⟩, by simp [AtBreach, hd]⟩
  · exact .inl ⟨⟨_, he⟩, by simp [AtBreach, hd]⟩
  · cases hm : s.moves with
    | nil => exact .inl ⟨⟨s, he.trans (takeMove_of_nil hm)⟩, by simp [AtBreach, hm]⟩
    | cons m ms =>
      rw [atBreach_of_cons hd hm, he, GoesOn, he, takeMove_of_cons hm]
      obtain ⟨hb, hf⟩ | ⟨hb, hn⟩ := hostMove_cases m { s with moves := ms }
      · exact .inr ⟨hf, hb⟩
      · exact .inl ⟨⟨_, hn⟩, by simp [hb]⟩

/-! ### One command at the port (R440) -/

/-- A send that keeps to its duty ends with the command at the port, or before. -/
theorem oneCommandAtMost_of_send {words : List Word} (h : s.sendsPastCommand words = false) :
    OneCommandAtMost { s with port := s.port ++ words } := by
  unfold State.sendsPastCommand at h
  unfold OneCommandAtMost
  cases hd : decode (s.port ++ words) with
  | command i rest | illegal why rest => simpa [hd] using h
  | incomplete => trivial

theorem oneCommandAtMost_of_port_nil (h : s.port = []) : OneCommandAtMost s := by
  unfold OneCommandAtMost
  rw [h]
  trivial

theorem loseCommand_port (s : State) : s.loseCommand.port = [] := by
  obtain h | ⟨_, -, h⟩ := loseCommand_cases s <;> rw [h] <;> rfl

theorem afterMove_oneCommandAtMost (hs : OneCommandAtMost s) (hm : m.breaksDuty s = false) :
    OneCommandAtMost (s.afterMove m) := by
  cases m with
  | send words => exact oneCommandAtMost_of_send hm
  | present inp out => exact hs
  | store addr bytes => exact hs
  | powerOn => exact oneCommandAtMost_of_port_nil rfl
  | sendLost words => exact oneCommandAtMost_of_port_nil (loseCommand_port _)

theorem takeMove_oneCommandAtMost (hs : OneCommandAtMost s) (h : takeMove s = .next t) : OneCommandAtMost t := by
  cases hmoves : s.moves with
  | nil =>
    rw [takeMove_of_nil hmoves] at h
    cases h
    exact hs
  | cons m ms =>
    rw [takeMove_of_cons hmoves] at h
    obtain ⟨hm, rfl⟩ := hostMove_eq_next h
    exact afterMove_oneCommandAtMost (s := { s with moves := ms }) hs hm

/-- The command at the port takes all its words with it. -/
theorem step_oneCommandAtMost (hs : OneCommandAtMost s) (h : step s = .next t) : OneCommandAtMost t := by
  obtain ⟨i, rest, hd, he⟩ | ⟨why, rest, hd, he⟩ | ⟨-, he⟩ := step_cases s <;> rw [he] at h
  · obtain rfl : rest = [] := by simpa [OneCommandAtMost, hd] using hs
    obtain ⟨-, -, -, hport, -⟩ := exec_frame h
    exact oneCommandAtMost_of_port_nil hport
  · obtain rfl : rest = [] := by simpa [OneCommandAtMost, hd] using hs
    cases h
    exact oneCommandAtMost_of_port_nil rfl
  · exact takeMove_oneCommandAtMost hs h

end Moves

/-- Settles O8: a step goes on or stops at a breach, never both, and an idle engine is at no breach. -/
theorem onlyABreachByTheHostStopsTheMachine : Obligations.OnlyABreachByTheHostStopsTheMachine := by
  intro s
  obtain ⟨⟨t, ht⟩, hno⟩ | ⟨hf, hbreach⟩ := step_goesOn_or_breach s
  · exact ⟨by simp [ht], fun f => iff_of_false (by simp [ht]) hno, fun _ => ⟨t, ht⟩⟩
  · refine ⟨by simp [hf], fun f => iff_of_true ?_ hbreach, fun hnil => ?_⟩
    · cases f
      exact hf
    · obtain ⟨-, m, ms, hm, -⟩ := hbreach
      cases hnil.symm.trans hm

/-- Settles O10: a move that keeps its duty is `afterMove`, which writes the port, the windows or the storage. -/
theorem hostMovesLeaveTheEngineAlone : Obligations.HostMovesLeaveTheEngineAlone := by
  refine ⟨fun s hd => ?next, fun s t => step_oneCommandAtMost, fun s t m hm h => ?frame⟩
  case next =>
    rw [step_of_incomplete hd]
    exact ⟨takeMove_of_nil, fun m ms => takeMove_of_cons⟩
  case frame =>
    obtain ⟨-, rfl⟩ := hostMove_eq_next h
    obtain ⟨ws, rfl⟩ | ⟨inp, out, rfl⟩ | ⟨addr, bytes, rfl⟩ := hm
    · exact ⟨rfl, rfl, rfl, by rintro _ ⟨⟩; exact ⟨rfl, rfl⟩, by rintro _ _ ⟨⟩, by rintro _ _ ⟨⟩⟩
    · exact ⟨rfl, rfl, rfl, by rintro _ ⟨⟩, by rintro _ _ ⟨⟩; exact ⟨rfl, rfl, rfl⟩, by rintro _ _ ⟨⟩⟩
    · refine ⟨rfl, rfl, rfl, by rintro _ ⟨⟩, by rintro _ _ ⟨⟩, ?_⟩
      rintro _ _ ⟨⟩ hwf
      exact Memory.read_writeBytes hwf addr bytes

end Sys2Proof.Machine
end

section
/-! PROOFS. Power-on reset, between commands and during one, and what RESET forgets (70_reset_and_hazards.md R430, R432). -/

namespace Sys2Proof.Machine

/-! ### RESET (R172, R432) -/

theorem SameSessionParams.sameParams {e e' : Engine} (h : SameSessionParams e e') : SameParams e e' := by
  obtain ⟨hdir, hkey, hvalid, hnonce, htag, had⟩ := h
  exact ⟨hdir, hkey, hvalid, hnonce, htag, had⟩

/-- The registers after RESET in a session: the session start, and no tag. -/
def forgetSession (c : Config) (e : Engine) : Engine := { sessionStart c e with mac := [], macValid := false }

section Reset
variable {c : Config} {e e' : Engine} {s t : State}

theorem forgetSession_effect (c : Config) (h : e.phase ≠ .uninit) : SessionEffect c e (forgetSession c e) := .forget h

theorem forgetSession_phase_ne_uninit (c : Config) (e : Engine) : (forgetSession c e).phase ≠ .uninit := by
  have hphase : (forgetSession c e).phase = startPhase e := sessionStart_phase_eq_startPhase c e
  rw [hphase, startPhase]
  split <;> decide

/-- The tag register plays no part in a session start, so it may be cleared before as well as after. -/
theorem forgetSession_eq_sessionStart_cleared (c : Config) (e : Engine) :
    forgetSession c e = sessionStart c { e with mac := [], macValid := false } := by
  unfold forgetSession sessionStart clearSession absorbAad
  cases c.variant <;> dsimp only <;> split <;> rfl

/-- RESET forgets all but the session parameters and the registers of the other variant. -/
theorem forgetSession_congr (hp : SameParams e e') (hu : SameUnused c e e') :
    forgetSession c e' = forgetSession c e := by
  obtain ⟨hdir, hkey, hvalid, hnonce, htag, had⟩ := hp
  rw [forgetSession_eq_sessionStart_cleared, forgetSession_eq_sessionStart_cleared]
  exact sessionStart_congr ⟨hdir, hkey, hvalid, hnonce, htag, had⟩ rfl rfl hu

theorem forgetSession_idem (h : e.phase ≠ .uninit) : forgetSession c (forgetSession c e) = forgetSession c e :=
  forgetSession_congr (forgetSession_effect c h).sameParams (forgetSession_effect c h).sameUnused

theorem exec_reset_of_started (hs : s.eng.phase ≠ .uninit) (h : exec .reset s = .next t) :
    t.cfg = s.cfg ∧ t.eng = forgetSession s.cfg s.eng := by
  obtain ⟨hu, -⟩ | ⟨-, he⟩ := execReset_cases s
  · exact absurd hu hs
  · obtain rfl := Host.Outcome.next.inj (h.symm.trans he)
    exact ⟨rfl, rfl⟩

end Reset

/-- Settles O51: what RESET leaves depends on the session parameters alone, which RESET keeps. -/
theorem resetForgetsTheSession : Obligations.ResetForgetsTheSession := by
  intro s s' t t' u hc hp hun hun' hs hs' ht ht' hu
  obtain ⟨htc, hte⟩ := exec_reset_of_started hs ht
  obtain ⟨-, hte'⟩ := exec_reset_of_started hs' ht'
  have hstarted : t.eng.phase ≠ .uninit := by
    rw [hte]
    exact forgetSession_phase_ne_uninit s.cfg s.eng
  obtain ⟨-, hue⟩ := exec_reset_of_started hstarted hu
  rw [hue, hte', htc, hte, ← hc]
  exact ⟨forgetSession_congr hp.sameParams (hun.sameUnused hun' hc.symm), forgetSession_idem hs⟩

/-! ### Power-on between commands (R45, R430) -/

@[simp] theorem OcbRegs.zero_ltAt (k : Nat) : OcbRegs.zero.ltAt k = 0#128 := by
  have hlt : OcbRegs.zero.lt = Vector.replicate 64 0#128 := rfl
  rw [OcbRegs.ltAt, hlt, Vector.getElem?_replicate]
  split <;> rfl

theorem hostMove_powerOn (s : State) : hostMove .powerOn s = .next s.powerOnReset := rfl

/-- Settles O11: the state after the move is `powerOnReset`, whose registers are those of R45. -/
theorem powerOnSetsEveryRegister : Obligations.PowerOnSetsEveryRegister := fun s =>
  ⟨s.powerOnReset, hostMove_powerOn s, rfl, rfl, rfl, rfl, rfl, rfl, rfl, rfl, rfl, rfl, rfl, rfl, rfl, rfl, rfl, rfl, rfl,
    OcbRegs.zero_ltAt, rfl, rfl, rfl, rfl, rfl, rfl, rfl, rfl⟩

/-! ### Power-on during a command (R430, U16) -/

section Lost
variable {s u : State} {i : Instr} {rest : List Word}

/-- A whole command at the port is run for its writes alone, and of these some are made. -/
theorem loseCommand_of_command (hd : decode s.port = .command i rest) (hu : exec i { s with port := rest } = .next u) :
    s.loseCommand =
      { s.powerOnReset with mem := partWritten s.freeCount s.mem u.mem, freeCount := s.freeCount + 1 } := by
  simp only [State.loseCommand, runPort_of_command hd, hu]

/-- Words that end with the command they complete are a move the host may make. -/
theorem hostMove_sendLost_of_command {words : List Word} (hd : decode (s.port ++ words) = .command i []) :
    hostMove (.sendLost words) s = .next (State.loseCommand { s with port := s.port ++ words }) := by
  have hduty : s.sendsPastCommand words = false := by simp [State.sendsPastCommand, hd]
  simp [hostMove, HostMove.breaksDuty, hduty, State.afterMove]

end Lost

/-- Settles O12: the lost command answers a next state, and the storage left is part written on the way to it. -/
theorem lostCommandWritesOldOrNewBytes : Obligations.LostCommandWritesOldOrNewBytes := by
  intro s words i hwf hd
  obtain ⟨u, hu⟩ := exec_goesOn i { s with port := [] }
  have hlost := loseCommand_of_command (s := { s with port := s.port ++ words }) hd hu
  have huwf : u.mem.wf = true := exec_keeps_wf (s := { s with port := [] }) hwf hu
  have hpart := partWritten_read s.freeCount (before := s.mem) huwf
  exact ⟨_, u, hu, (hostMove_sendLost_of_command hd).trans (congrArg _ hlost), rfl, rfl, (hpart 0).1, fun a => (hpart a).2⟩

end Sys2Proof.Machine
end
